-- ==== Sys2Proof/Word.lean ====
section
/-! DEFINITION. The word types of the DCE (spec/00_scope.md R10) and the two-view shape of a 64-bit value
(spec/10_state.md R27, spec/40_primitives.md R93). -/

namespace Sys2Proof

/-- A 32-bit word: one host access, one quarter of a decimal register, one command (R10). -/
abbrev Word := BitVec 32

/-- A 64-bit value: the register `X`, and the scratch value Split64 (R27, R93). -/
abbrev DWord := BitVec 64

/-- Bits 31:0 of a 64-bit value: `XLO`, `low32` (R27, R93). -/
def lo32 (x : DWord) : Word := x.extractLsb' 0 32

/-- Bits 63:32 of a 64-bit value: `XHI`, `high32` (R27, R93). -/
def hi32 (x : DWord) : Word := x.extractLsb' 32 32

/-- `{hi, lo}`: the 64-bit value with these two halves (R10, R93). -/
def join64 (hi lo : Word) : DWord := BitVec.ofNat 64 (hi.toNat * 2 ^ 32 + lo.toNat)

end Sys2Proof
end

