-- ==== Sys2Proof/Syntax.lean ====
section
/-! DEFINITION. The 23 commands of spec/30_encoding.md R73, one constructor per row of spec/opcode_table.json, and
their assembler spelling (R77). -/

namespace Sys2Proof

/-- The four decimal registers `D0`..`D3` (spec/10_state.md R21; every 2-bit field names one, spec/30_encoding.md
R76). -/
inductive DReg where
  | d0 | d1 | d2 | d3
  deriving DecidableEq, Repr

/-- The number of a decimal register, 0 to 3. -/
def DReg.index : DReg → Nat
  | .d0 => 0
  | .d1 => 1
  | .d2 => 2
  | .d3 => 3

/-- The `MODE` bit of ROUND (spec/30_encoding.md R71, spec/42_round.md R142). -/
inductive RoundMode where
  /-- `MODE = 0`: half to even. -/
  | even
  /-- `MODE = 1`: half away from zero. -/
  | away
  deriving DecidableEq, Repr

/-- A decoded command (spec/30_encoding.md R73). In the two-operand rows `rd` is destination and first source. -/
inductive Instr where
  | add (rd rs : DReg)
  | sub (rd rs : DReg)
  | mul (rd rs : DReg)
  | div (rd rs : DReg)
  | mod (rd rs : DReg)
  | trunc (rd rs : DReg)
  | floor (rd rs : DReg)
  | round (rd rs : DReg) (decimals : Nat) (mode : RoundMode)
  | cmp (rd rs : DReg)
  | neg (rd rs : DReg)
  | abs (rd rs : DReg)
  | sign (r : DReg)
  | max (rd rs : DReg)
  | min (rd rs : DReg)
  | cytod (r : DReg)
  | dtocy (r : DReg)
  | r8tod (r : DReg)
  | r4tod (r : DReg)
  | dtor8 (r : DReg)
  | dtor4 (r : DReg)
  | divmod1e9 (r : DReg)
  | mul10 (r : DReg)
  | addi32 (r : DReg)
  deriving DecidableEq, Repr

/-- The pseudo-instruction `MOV Dd, Ds` is `ROUND Dd, Ds, #28, EVEN` (spec/30_encoding.md R78). -/
def Instr.mov (rd rs : DReg) : Instr := .round rd rs 28 .even

/-- The assembler name of a decimal register (spec/30_encoding.md R77). -/
def DReg.asm : DReg → String
  | .d0 => "D0"
  | .d1 => "D1"
  | .d2 => "D2"
  | .d3 => "D3"

/-- `<name> Dd, Ds` (spec/30_encoding.md R77). -/
def asmRR (name : String) (rd rs : DReg) : String := name ++ " " ++ rd.asm ++ ", " ++ rs.asm

/-- The assembler spelling of a command (spec/30_encoding.md R77). -/
def Instr.asm : Instr → String
  | .add rd rs => asmRR "ADD" rd rs
  | .sub rd rs => asmRR "SUB" rd rs
  | .mul rd rs => asmRR "MUL" rd rs
  | .div rd rs => asmRR "DIV" rd rs
  | .mod rd rs => asmRR "MOD" rd rs
  | .trunc rd rs => asmRR "TRUNC" rd rs
  | .floor rd rs => asmRR "FLOOR" rd rs
  | .round rd rs n .even => asmRR "ROUND" rd rs ++ ", #" ++ toString n ++ ", EVEN"
  | .round rd rs n .away => asmRR "ROUND" rd rs ++ ", #" ++ toString n ++ ", AWAY"
  | .cmp rd rs => asmRR "CMP" rd rs
  | .neg rd rs => asmRR "NEG" rd rs
  | .abs rd rs => asmRR "ABS" rd rs
  | .sign r => "SIGN " ++ r.asm
  | .max rd rs => asmRR "MAX" rd rs
  | .min rd rs => asmRR "MIN" rd rs
  | .cytod r => "CYTOD " ++ r.asm
  | .dtocy r => "DTOCY " ++ r.asm
  | .r8tod r => "R8TOD " ++ r.asm
  | .r4tod r => "R4TOD " ++ r.asm
  | .dtor8 r => "DTOR8 " ++ r.asm
  | .dtor4 r => "DTOR4 " ++ r.asm
  | .divmod1e9 r => "DIVMOD1E9 " ++ r.asm
  | .mul10 r => "MUL10 " ++ r.asm
  | .addi32 r => "ADDI32 " ++ r.asm

end Sys2Proof
end

