-- ==== Sys2Proof/WellFormed.lean ====
section
/-! DEFINITION. When a term of `Instr` has an encoding. The register fields and `MODE` are exact types, so the one
check is the 5-bit range of `IMM5` (spec/30_encoding.md R71, R76). -/

namespace Sys2Proof

/-- The command can be written as a word: ROUND's `decimals` fits the unsigned 5-bit field `IMM5` (R71, R76). Values 29
to 31 are legal (R75). -/
def Instr.wellFormed : Instr → Bool
  | .round _ _ decimals _ => decide (decimals < 32)
  | .add _ _ | .sub _ _ | .mul _ _ | .div _ _ | .mod _ _ => true
  | .trunc _ _ | .floor _ _ => true
  | .cmp _ _ | .neg _ _ | .abs _ _ | .sign _ | .max _ _ | .min _ _ => true
  | .cytod _ | .dtocy _ | .r8tod _ | .r4tod _ | .dtor8 _ | .dtor4 _ => true
  | .divmod1e9 _ | .mul10 _ | .addi32 _ => true

end Sys2Proof
end

