-- ==== Sys2Proof/Decode.lean ====
section
/-! DEFINITION. The command word: fields, formats, the opcode map, the decoder and the encoder
(spec/30_encoding.md R70 to R79). The decoder is total: a word that is an instance of no row is no command (R74). -/

namespace Sys2Proof

/-- The register a 2-bit field names (R76). -/
def DReg.ofBits (b : BitVec 2) : DReg :=
  match b.toNat with
  | 0 => .d0
  | 1 => .d1
  | 2 => .d2
  | _ => .d3

/-- `RD = w[9:8]` (R71). -/
def fieldRD (w : Word) : DReg := DReg.ofBits (w.extractLsb' 8 2)

/-- `RS = w[11:10]` (R71). -/
def fieldRS (w : Word) : DReg := DReg.ofBits (w.extractLsb' 10 2)

/-- `IMM5 = w[16:12]`, unsigned (R71, R76). -/
def fieldImm5 (w : Word) : Nat := (w.extractLsb' 12 5).toNat

/-- `MODE = w[17]` (R71). -/
def fieldMode (w : Word) : RoundMode := if w.getLsbD 17 then .away else .even

/-- The three formats (R72). -/
inductive Format where
  | rr | rri | r
  deriving DecidableEq, Repr

/-- The decode mask of a format: every bit the format does not use, and the opcode (R72). -/
def Format.mask : Format → Word
  | .rr => 0xFFFFF0FF#32
  | .rri => 0xFFFC00FF#32
  | .r => 0xFFFFFCFF#32

/-- One row of the opcode map: the match value, the format, and the command its fields give (R72, R73). -/
structure OpcodeRow where
  opc : Word
  format : Format
  build : Word → Instr

/-- A row of format RR. -/
def OpcodeRow.rr (opc : Word) (c : DReg → DReg → Instr) : OpcodeRow :=
  ⟨opc, .rr, fun w => c (fieldRD w) (fieldRS w)⟩

/-- A row of format R. -/
def OpcodeRow.r (opc : Word) (c : DReg → Instr) : OpcodeRow := ⟨opc, .r, fun w => c (fieldRD w)⟩

/-- The opcode map (R73), in the table's order. -/
def opcodeTable : List OpcodeRow :=
  [ .rr 0x10#32 .add, .rr 0x11#32 .sub, .rr 0x12#32 .mul, .rr 0x13#32 .div, .rr 0x14#32 .mod,
    .rr 0x20#32 .trunc, .rr 0x21#32 .floor,
    ⟨0x22#32, .rri, fun w => .round (fieldRD w) (fieldRS w) (fieldImm5 w) (fieldMode w)⟩,
    .rr 0x30#32 .cmp, .rr 0x31#32 .neg, .rr 0x32#32 .abs, .r 0x33#32 .sign, .rr 0x34#32 .max, .rr 0x35#32 .min,
    .r 0x40#32 .cytod, .r 0x41#32 .dtocy, .r 0x42#32 .r8tod, .r 0x43#32 .r4tod, .r 0x44#32 .dtor8, .r 0x45#32 .dtor4,
    .r 0x50#32 .divmod1e9, .r 0x51#32 .mul10, .r 0x52#32 .addi32 ]

/-- `w AND mask = match` (R72). -/
def OpcodeRow.hits (row : OpcodeRow) (w : Word) : Bool := w &&& row.format.mask == row.opc

/-- The command a word is, or `none` for an illegal word (R74, R79). -/
def decode (w : Word) : Option Instr := (opcodeTable.find? (·.hits w)).map (·.build w)

/-- The word of a command of format RR: `OPC + d * 2^8 + s * 2^10` (R77). -/
def encodeRR (opc : Nat) (rd rs : DReg) : Word := BitVec.ofNat 32 (opc + rd.index * 2 ^ 8 + rs.index * 2 ^ 10)

/-- The word of a command of format R: `OPC + r * 2^8` (R77). -/
def encodeR (opc : Nat) (r : DReg) : Word := BitVec.ofNat 32 (opc + r.index * 2 ^ 8)

/-- The `MODE` bit of a rounding mode (R71). -/
def RoundMode.bit : RoundMode → Nat
  | .even => 0
  | .away => 1

/-- The word of a command (R73, R77). -/
def encode : Instr → Word
  | .add rd rs => encodeRR 0x10 rd rs
  | .sub rd rs => encodeRR 0x11 rd rs
  | .mul rd rs => encodeRR 0x12 rd rs
  | .div rd rs => encodeRR 0x13 rd rs
  | .mod rd rs => encodeRR 0x14 rd rs
  | .trunc rd rs => encodeRR 0x20 rd rs
  | .floor rd rs => encodeRR 0x21 rd rs
  | .round rd rs n mode =>
    BitVec.ofNat 32 (0x22 + rd.index * 2 ^ 8 + rs.index * 2 ^ 10 + n % 32 * 2 ^ 12 + mode.bit * 2 ^ 17)
  | .cmp rd rs => encodeRR 0x30 rd rs
  | .neg rd rs => encodeRR 0x31 rd rs
  | .abs rd rs => encodeRR 0x32 rd rs
  | .sign r => encodeR 0x33 r
  | .max rd rs => encodeRR 0x34 rd rs
  | .min rd rs => encodeRR 0x35 rd rs
  | .cytod r => encodeR 0x40 r
  | .dtocy r => encodeR 0x41 r
  | .r8tod r => encodeR 0x42 r
  | .r4tod r => encodeR 0x43 r
  | .dtor8 r => encodeR 0x44 r
  | .dtor4 r => encodeR 0x45 r
  | .divmod1e9 r => encodeR 0x50 r
  | .mul10 r => encodeR 0x51 r
  | .addi32 r => encodeR 0x52 r

/-- The command the decoder reads from the bits `w` of a table row of `nbits` bits. Every command is one 32-bit word
(R70); bits above it are no part of a command. -/
def decodeTableWord (nbits w : Nat) : Option Instr :=
  if nbits ≤ 32 ∧ w < 2 ^ nbits then decode (BitVec.ofNat 32 w) else none

end Sys2Proof
end

