-- ==== Sys2Proof/Config.lean ====
section
/-! DEFINITION. The implementation parameters of spec/00_scope.md R9. Those it leaves open with a default are settings,
plain data that State holds (assumption log 21): the default, or a number that names another implementation, whose
functions have no body here. The default functions are in Machine/Float.lean. -/

namespace Sys2Proof.Config

/-- The identity string a model may carry (R1). -/
def identity : String := "DCE-96/28"

/-- `MANT_BITS`: width of the mantissa (R9). -/
def mantBits : Nat := 96

/-- `WORD_BITS`: width of one mantissa word and of one host access (R9). -/
def wordBits : Nat := 32

/-- `NDREG`: number of decimal registers (R9). -/
def ndreg : Nat := 4

/-- `XLEN`: width of `X` (R9). -/
def xlen : Nat := 64

/-- `CMD_BITS`: width of a command word (R9). -/
def cmdBits : Nat := 32

/-- `MAX96 = 2^96 - 1`, the largest mantissa (R9 `MANT_BITS`, R11). -/
def max96 : Nat := 2 ^ 96 - 1

/-- `SCALE_MAX`, the largest scale (R9). -/
def scaleMax : Nat := 28

/-- `MAX_POW32`: the largest power of ten that is one 32-bit word, the chunk size of every multi-step scaling (R9). -/
def maxPow32 : Nat := 9

/-- `WIDE_WORDS`: words in the widest scratch integer (R9). -/
def wideWords : Nat := 6

/-- `F64_TABLE_MAX`: largest exponent in the binary64 power table (R9). -/
def f64TableMax : Nat := 80

/-- `R8_DIGITS` (R9). -/
def r8Digits : Nat := 15

/-- `R4_DIGITS` (R9). -/
def r4Digits : Nat := 7

/-- `CY_SCALE`: implied decimal places of the currency format (R9). -/
def cyScale : Nat := 4

/-- `WINDOW_WORDS`: size of the host register window (R9). -/
def windowWords : Nat := 32

/-- `DCE_BASE`, the address of the window on the host's bus: OPEN, so it has no body here (R9, R51). No rule depends on
it, and no step reads it (assumption log 7). -/
opaque dceBase : Nat

/-- The parameter `F64_OPS` (R9; spec/43_convert.md R159, R160): the binary64 operations of DTOR8 and DTOR4, on bit
patterns. All operands that arise are non-negative and finite (R159). -/
structure F64Ops where
  /-- `u64_to_f64`. -/
  ofU64 : DWord → DWord
  /-- `u32_to_f64`. -/
  ofU32 : Word → DWord
  /-- `*f`. -/
  mul : DWord → DWord → DWord
  /-- `+f`. -/
  add : DWord → DWord → DWord
  /-- `/f`. -/
  div : DWord → DWord → DWord
  /-- `f64_to_f32`, as the binary32 pattern. -/
  narrow : DWord → Word
  deriving Inhabited

/-- The parameter `FROM_FLOAT_SCALING` (R9; spec/43_convert.md R154): the two lines of `FloatToDec` that scale the
rational `num / den` by a power of ten and round it to an integer. -/
structure FromFloatScaling where
  /-- `mant` for `p ≥ 0`: from `num`, `den`, `p`. -/
  up : Nat → Nat → Nat → Nat
  /-- `mant` for `p < 0`: from `num`, `den`, `-p`. -/
  down : Nat → Nat → Nat → Nat
  deriving Inhabited

/-- The binary64 operations of the implementation named by a number, other than the default (R9). No body: nothing is
known of them (assumption log 5). -/
opaque f64Other : Nat → F64Ops

/-- The from-float scaling of the implementation named by a number, other than the default (R9). No body: nothing is
known of it (assumption log 6). -/
opaque scalingOther : Nat → FromFloatScaling

/-- How `F64_OPS` is set (R9). -/
inductive F64Setting where
  /-- The default: binary64, round to nearest even. -/
  | nearestEven
  /-- Another implementation. -/
  | other (id : Nat)
  deriving DecidableEq, Repr

/-- How `FROM_FLOAT_SCALING` is set (R9). -/
inductive ScalingSetting where
  /-- The default: exact rational. -/
  | exactRational
  /-- Another implementation. -/
  | other (id : Nat)
  deriving DecidableEq, Repr

/-- `BYTE_LANES` (R9; spec/20_memory.md R53): which byte of a 32-bit word, counted from bits 7:0, each byte offset of a
byte-addressed bus carries. -/
structure ByteLanes where
  at0 : Fin 4
  at1 : Fin 4
  at2 : Fin 4
  at3 : Fin 4
  deriving DecidableEq, Repr

/-- The default `BYTE_LANES`: byte offset 0 carries bits 7:0 (R53). -/
def littleEndian : ByteLanes := ⟨0, 1, 2, 3⟩

/-- The settings of the open parameters that have a default (R9), fixed for one machine. -/
structure Params where
  /-- `F64_OPS`. -/
  f64 : F64Setting
  /-- `FROM_FLOAT_SCALING`. -/
  scaling : ScalingSetting
  /-- `BYTE_LANES`. -/
  byteLanes : ByteLanes
  deriving DecidableEq, Repr

/-- Every parameter at the default R9 states. -/
def Params.default : Params := ⟨.nearestEven, .exactRational, littleEndian⟩

end Sys2Proof.Config
end

