-- ==== Sys2Proof/Machine/State.lean ====
section
/-! DEFINITION. The state of the DCE as plain data (spec/10_state.md R20), the faults it records, the refusals of the
model, and the state after reset. -/

namespace Sys2Proof.Machine

open Sys2Proof.Config

/-- A decimal register: four 32-bit words, least significant mantissa word first (R21, R22). All 32 bits of `flags` are
stored (R22). -/
structure DecReg where
  lo : Word
  mid : Word
  hi : Word
  flags : Word
  deriving DecidableEq, Repr

/-- The contents of the data registers right after a reset, which the spec leaves open: any value each (R37; the
treatment is that of spec/93_implementation_defined.md U3, an argument). -/
structure ResetWords where
  d0 : DecReg
  d1 : DecReg
  d2 : DecReg
  d3 : DecReg
  x : DWord
  deriving DecidableEq, Repr

/-- What the outside world can do to the engine: a read or a write at a byte offset of the register window with a size
in bytes (spec/20_memory.md R51, R52), or a reset (spec/70_reset_and_hazards.md R210). -/
inductive HostEvent where
  /-- A read of `size` bytes at byte offset `offset` of the window. -/
  | read (offset size : Nat)
  /-- A write of `size` bytes at byte offset `offset`; `v` is the word on the data lines. -/
  | write (offset size : Nat) (v : Word)
  /-- A reset that leaves the data registers holding `w`. -/
  | reset (w : ResetWords)
  deriving DecidableEq, Repr

/-- The complete architectural state (R20), and three fields of the model's own: the host events not yet served and the
values the host's reads returned, oldest first (assumption log 1), and the machine's parameter settings, which no step
changes (assumption log 21). -/
structure State where
  /-- `D0` (R21). -/
  d0 : DecReg
  /-- `D1` (R21). -/
  d1 : DecReg
  /-- `D2` (R21). -/
  d2 : DecReg
  /-- `D3` (R21). -/
  d3 : DecReg
  /-- `X` (R27). -/
  x : DWord
  /-- `STATUS.ERR` (R28). -/
  err : BitVec 3
  /-- `ECMD` (R29). -/
  ecmd : Word
  /-- MODEL: host events not yet served, next one first. -/
  hostIn : List HostEvent
  /-- MODEL: the values returned by reads, oldest first (R216). -/
  returned : List Word
  /-- MODEL: how this machine's open parameters are set (spec/00_scope.md R9). -/
  params : Params
  deriving DecidableEq, Repr

/-- The four faults (spec/60_exceptions.md R190; exactly four, spec/93_implementation_defined.md U11). A fault of this
hardware is RECORDED in `STATUS` and `ECMD` and the machine goes on (R196, R216), so each of these is the argument of
`State.raiseFault`, and no step answers `Outcome.fault`: that is the spec's behaviour, so it is safe. -/
inductive Fault where
  /-- Code 1, R191. Raised by ADD, SUB, MUL, DIV, DTOCY, R8TOD, R4TOD, MUL10, ADDI32 through `orOverflow`. Safe. -/
  | overflow
  /-- Code 2, R192. Raised by DIV and MOD through `dividingCommand`. Safe. -/
  | divideByZero
  /-- Code 3, R193. Raised by every value command through `valueCommand`. Safe. -/
  | invalidValue
  /-- Code 4, R194. Raised by `execute` for a word that is no command. Safe. -/
  | illegalCommand
  deriving DecidableEq, Repr

/-- Why the model gives a situation no step. -/
inductive Refusal where
  /-- An instruction without a meaning. No arm of `exec` answers it: all 23 commands are modelled. Safe. -/
  | notModelled (mnemonic : String)
  /-- Raised by `serve` for a host access that is not a whole aligned 32-bit word at an index 0 to 31, as spec/20_memory.md
  R52 asks of a model. Safe. -/
  | notAWholeWindowWord
  deriving DecidableEq, Repr

/-- The outcome of a step. -/
abbrev Result := Host.Outcome State Fault Refusal

/-- All four words zero. -/
def DecReg.zero : DecReg := ⟨0, 0, 0, 0⟩

/-- The machine with the parameter settings `p` right after a reset that leaves the data registers holding `w` (R37,
R210, R211). -/
def State.afterReset (p : Params) (w : ResetWords) : State :=
  { d0 := w.d0, d1 := w.d1, d2 := w.d2, d3 := w.d3, x := w.x, err := 0, ecmd := 0, hostIn := [], returned := [],
    params := p }

/-- The machine right after reset. `ERR` and `ECMD` are 0 as R37 says; the data registers, which the spec leaves
unspecified, hold zero: DESIGN CHOICE, unsafe (assumption log 3). The parameters have the defaults of
spec/00_scope.md R9. -/
def State.reset : State := State.afterReset .default ⟨.zero, .zero, .zero, .zero, 0⟩

end Sys2Proof.Machine
end

