-- ==== Sys2Proof/Machine/Flags.lean ====
section
/-! DEFINITION. The `FLAGS` word of a decimal register (spec/10_state.md R22, R24) and the codes of `STATUS.ERR`
(R28; spec/60_exceptions.md R190). The hardware has no condition flags (R32). -/

namespace Sys2Proof.Machine

open Sys2Proof.Config

/-- `sign(r)`: bit 31 of `FLAGS`, set for negative (R12, R22). -/
def DecReg.sign (r : DecReg) : Bool := r.flags.getLsbD 31

/-- `scale(r)`: bits 23:16 of `FLAGS`, an unsigned byte (R12, R22). -/
def DecReg.scale (r : DecReg) : Nat := (r.flags.extractLsb' 16 8).toNat

/-- `valid(r)`: reserved bits 30:24 and 15:0 clear and scale at most 28 (R24). -/
def DecReg.valid (r : DecReg) : Bool :=
  r.flags.extractLsb' 24 7 == 0#7 && r.flags.extractLsb' 0 16 == 0#16 && decide (r.scale ≤ scaleMax)

/-- The `FLAGS` word that `pack` writes: `n * 2^31 + s * 2^16` (R12). -/
def packFlags (neg : Bool) (scale : Nat) : Word := BitVec.ofNat 32 (neg.toNat * 2 ^ 31 + scale * 2 ^ 16)

/-- `flags XOR 0x80000000`: NEG (spec/44_compare_misc.md R172). -/
def flipSign (flags : Word) : Word := flags ^^^ 0x80000000#32

/-- `flags AND 0x7FFFFFFF`: ABS (spec/44_compare_misc.md R173). -/
def clearSign (flags : Word) : Word := flags &&& 0x7FFFFFFF#32

/-- The code of a fault in `STATUS.ERR` (R190). -/
def Fault.code : Fault → BitVec 3
  | .overflow => 1
  | .divideByZero => 2
  | .invalidValue => 3
  | .illegalCommand => 4

/-- The 32-bit word a read of `STATUS` returns: `ERR` in bits 2:0, bits 31:3 zero (R28). -/
def State.status (s : State) : Word := s.err.setWidth 32

end Sys2Proof.Machine
end

