-- ==== Sys2Proof/Machine/Operands.lean ====
section
/-! DEFINITION. The operand forms: a decimal register as a record of mantissa, scale and sign, `pack`, the value of a
record (spec/00_scope.md R12, R13), and the views of `X` (spec/10_state.md R27). -/

namespace Sys2Proof.Machine

/-- A sign, a mantissa and a scale: what a value command computes with (R12). -/
structure Dec where
  mant : Nat
  scale : Nat
  neg : Bool
  deriving DecidableEq, Repr

/-- `mant(r)`, the 96-bit mantissa (R12). -/
def DecReg.mant (r : DecReg) : Nat := r.hi.toNat * 2 ^ 64 + r.mid.toNat * 2 ^ 32 + r.lo.toNat

/-- A register read as a DecimalValue (R12). -/
def DecReg.dec (r : DecReg) : Dec := ⟨r.mant, r.scale, r.sign⟩

/-- A register with its three mantissa words replaced by the low 96 bits of `m`; `FLAGS` is kept
(spec/44_compare_misc.md R177 to R179). -/
def DecReg.withMant (r : DecReg) (m : Nat) : DecReg :=
  { r with lo := BitVec.ofNat 32 m, mid := BitVec.ofNat 32 (m / 2 ^ 32), hi := BitVec.ofNat 32 (m / 2 ^ 64) }

/-- `pack(m, s, n)` (R12). -/
def pack (d : Dec) : DecReg := DecReg.withMant ⟨0, 0, 0, packFlags d.neg d.scale⟩ d.mant

/-- `val(r) = (-1)^sign * mant / 10^scale` (R13). -/
def Dec.value (d : Dec) : ℚ := (if d.neg then -1 else 1) * (d.mant / 10 ^ d.scale)

/-- The mantissa of `d` at scale `s`: `mant * 10^(s - scale)` (spec/41_arith.md R124; used for `s ≥ scale`). -/
def Dec.widen (d : Dec) (s : Nat) : Nat := d.mant * 10 ^ (s - d.scale)

/-- `XLO` (R27). -/
def State.xlo (s : State) : Word := lo32 s.x

/-- `XHI` (R27). -/
def State.xhi (s : State) : Word := hi32 s.x

/-- `D[i]` (R12). -/
def State.getD (s : State) : DReg → DecReg
  | .d0 => s.d0
  | .d1 => s.d1
  | .d2 => s.d2
  | .d3 => s.d3

end Sys2Proof.Machine
end

