-- ==== Sys2Proof/Machine/Ops.lean ====
section
/-! DEFINITION. The named operations over the registers; taking a fault and clearing it (spec/60_exceptions.md R196,
R198); and the frame every command runs in (spec/41_arith.md R120). -/

namespace Sys2Proof.Machine

/-- `D[i] <- v`, all four words at once (R12). -/
def State.setD (s : State) (r : DReg) (v : DecReg) : State :=
  match r with
  | .d0 => { s with d0 := v }
  | .d1 => { s with d1 := v }
  | .d2 => { s with d2 := v }
  | .d3 => { s with d3 := v }

/-- `X <- v` (R12). -/
def State.setX (s : State) (v : DWord) : State := { s with x := v }

/-- `XLO <- v`, `XHI` kept (R12). -/
def State.setXLO (s : State) (v : Word) : State := s.setX (join64 s.xhi v)

/-- `XHI <- v`, `XLO` kept (R12). -/
def State.setXHI (s : State) (v : Word) : State := s.setX (join64 v s.xlo)

/-- Fault entry, `raise F(w)`: `STATUS.ERR` and `ECMD` are written and nothing else (R196, R204). -/
def State.raiseFault (s : State) (f : Fault) (w : Word) : State := { s with err := f.code, ecmd := w }

/-- The return from a fault, a host write of `STATUS`: `ERR` and `ECMD` become 0 and nothing else changes (R198). -/
def State.clearFault (s : State) : State := { s with err := 0, ecmd := 0 }

/-- The end of a command that can only overflow: its result, or the Overflow fault with nothing written (R120 steps 4
and 5). -/
def orOverflow (w : Word) (s : State) (result : Option State) : Result :=
  match result with
  | some t => .next t
  | none => .next (s.raiseFault .overflow w)

/-- The frame of a value command: every decimal register it reads is tested, then the result is written or Overflow is
raised (R120 steps 3 to 5). -/
def valueCommand (w : Word) (s : State) (reads : List DecReg) (result : Option State) : Result :=
  if reads.all DecReg.valid then orOverflow w s result else .next (s.raiseFault .invalidValue w)

/-- The frame of DIV and MOD: a divisor of mantissa zero is DivideByZero before validity is looked at (R120 step 2;
spec/60_exceptions.md R192, R195). -/
def dividingCommand (w : Word) (s : State) (a divisor : DecReg) (result : Option State) : Result :=
  if divisor.mant = 0 then .next (s.raiseFault .divideByZero w) else valueCommand w s [a, divisor] result

end Sys2Proof.Machine
end

