-- ==== Sys2Proof/Machine/Rounding.lean ====
section
/-! DEFINITION. The mathematical helpers of spec/00_scope.md R11 and the integer constant tables of spec/10_state.md
R33, R35. -/

namespace Sys2Proof.Machine

open Sys2Proof.Config

/-- `RHE(n, d)`: `n/d` rounded half to even (R11). -/
def rhe (n d : Nat) : Nat :=
  let q := n / d
  let r := n % d
  if d < 2 * r ∨ (2 * r = d ∧ q % 2 = 1) then q + 1 else q

/-- `RHA(n, d)`: `n/d` rounded half away from zero (R11). -/
def rha (n d : Nat) : Nat :=
  let q := n / d
  if d ≤ 2 * (n % d) then q + 1 else q

/-- The largest `k ≤ n` with `p k`, if there is one: the search for "the largest ..." of R101, R102, R127, R154. -/
def findDown (p : Nat → Bool) : Nat → Option Nat
  | 0 => if p 0 then some 0 else none
  | n + 1 => if p (n + 1) then some (n + 1) else findDown p n

/-- `tz10(m)` for `m > 0`: the number of trailing decimal zeros (R11). A `z` with `10^z` dividing `m` is at most
`log2 m`. The rules use it for `m > 0` only. -/
def tz10 (m : Nat) : Nat := (findDown (fun z => m % 10 ^ z == 0) m.log2).getD 0

/-- `POW10_32[k]`, `0 ≤ k ≤ 9` (R33). -/
def pow10Word (k : Nat) : Word := BitVec.ofNat 32 (10 ^ k)

/-- `POWER_OVFL[k] = MAX96 div 10^k`, `1 ≤ k ≤ 9` (R35). -/
def powerOvfl (k : Nat) : Nat := max96 / 10 ^ k

end Sys2Proof.Machine
end

