-- ==== Sys2Proof/Machine/Scale.lean ====
section
/-! DEFINITION. Compaction and the scaling helpers over mathematical integers: `Compact` and the document's
`scaleResult`, the chunked division `divPow10`, `searchScale`, `overflowUnscale` (spec/40_primitives.md R100 to R104).
`none` is Overflow throughout. -/

namespace Sys2Proof.Machine

open Sys2Proof.Config

/-- `Compact(N, scale)`: the largest scale, at most `scale` and at most 28, at which `N`, rounded half to even, fits 96
bits (R101; the new scale is `scale - k` for the least `k` of the rule). -/
def compact (N scale : Nat) : Option (Nat × Nat) :=
  (findDown (fun t => rhe N (10 ^ (scale - t)) ≤ max96) (min scale scaleMax)).map
    fun t => (rhe N (10 ^ (scale - t)), t)

/-- What `divPow10` returns: quotient, remainder and digit count of the last chunk, and the sticky bit (R104). -/
structure Chunked where
  q : Nat
  rem : Nat
  pw : Nat
  sticky : Bool
  deriving DecidableEq, Repr

/-- The loop of `divPow10` (R104); each pass removes at least one digit, so `k` passes are enough fuel. -/
def divPow10Loop : Nat → Nat → Nat → Nat → Bool → Chunked
  | 0, N, _, rem, sticky => ⟨N, rem, 0, sticky⟩
  | fuel + 1, N, k, rem, sticky =>
    let sticky' := sticky || rem != 0
    let pw := min k maxPow32
    if k - pw = 0 then ⟨N / 10 ^ pw, N % 10 ^ pw, pw, sticky'⟩
    else divPow10Loop fuel (N / 10 ^ pw) (k - pw) (N % 10 ^ pw) sticky'

/-- `divPow10(N, k)`, `k ≥ 1`: division by `10^k` in chunks of at most nine digits, nines first (R104). -/
def divPow10 (N k : Nat) : Chunked := divPow10Loop k N k 0 false

/-- The test that rounds a chunked quotient half to even (R100, R143). -/
def Chunked.roundsUpEven (c : Chunked) : Bool :=
  decide (10 ^ c.pw < 2 * c.rem) || (decide (2 * c.rem = 10 ^ c.pw) && (c.q % 2 == 1 || c.sticky))

/-- The test that rounds a chunked quotient half away from zero (R143). -/
def Chunked.roundsUpAway (c : Chunked) : Bool := decide (10 ^ c.pw ≤ 2 * c.rem)

/-- The digit estimate of `scaleResult`: `((bitpos * 77) >> 8) + 1` with `bitpos` counted from bit 96 (R100). -/
def digitEstimate (N : Nat) : Nat := ((N.log2 - 96) * 77) >>> 8 + 1

/-- The loop of `scaleResult` (R100). -/
def scaleResultLoop : Nat → Nat → Nat → Nat → Nat → Bool → Option (Nat × Nat)
  | 0, _, _, _, _, _ => none
  | fuel + 1, N, scale, k, rem, sticky =>
    let pw := min k maxPow32
    let c : Chunked := ⟨N / 10 ^ pw, N % 10 ^ pw, pw, sticky || rem != 0⟩
    if 0 < k - pw then scaleResultLoop fuel c.q scale (k - pw) c.rem c.sticky
    else if max96 < c.q then
      if scale = 0 then none else scaleResultLoop fuel c.q (scale - 1) 1 c.rem c.sticky
    else if c.roundsUpEven then
      if max96 < c.q + 1 then
        if scale = 0 then none else scaleResultLoop fuel (c.q + 1) (scale - 1) 1 0 false
      else some (c.q + 1, scale)
    else some (c.q, scale)

/-- `scaleResult(N, scale)`, the document's renormalisation, for `N < 2^192` and `scale ≤ 56` (R100). -/
def scaleResult (N scale : Nat) : Option (Nat × Nat) :=
  let k := if max96 < N then digitEstimate N else 0
  if scale < k then none
  else
    let k' := max k (scale - scaleMax)
    if k' = 0 then some (N, scale) else scaleResultLoop 64 N (scale - k') k' 0 false

/-- `searchScale(q, scale)` for `scale ≤ 28` (R102). -/
def searchScale (q : Nat) (scale : Int) : Option Nat :=
  let k := (findDown (fun c => (c == 0 || decide (q ≤ powerOvfl c)) && decide (scale + c ≤ scaleMax)) 9).getD 0
  if k < 9 ∧ scale + k < 0 then none else some k

/-- `overflowUnscale(q97, scale, sticky)` (R103). -/
def overflowUnscale (q97 : Nat) (scale : Int) (sticky : Bool) : Option (Nat × Int) :=
  if scale ≤ 0 then none
  else
    let q := q97 / 10
    let r := q97 % 10
    some (if 5 < r ∨ (r = 5 ∧ (sticky ∨ q % 2 = 1)) then q + 1 else q, scale - 1)

end Sys2Proof.Machine
end

