-- ==== Sys2Proof/Machine/Arith.lean ====
section
/-! DEFINITION. ADD, SUB, MUL, DIV, MOD (spec/41_arith.md). The results are the rules' closed forms; the document's
mechanisms are in Machine/Mechanism.lean. `none` is Overflow. -/

namespace Sys2Proof.Machine

open Sys2Proof.Config

/-- `AddSub(a, b, sub)` (R124). -/
def addSub (a b : Dec) (sub : Bool) : Option Dec :=
  let s := max a.scale b.scale
  let wa := a.widen s
  let wb := b.widen s
  let exact : Nat × Bool :=
    if sub ^^ a.neg ^^ b.neg then
      if wb < wa then (wa - wb, a.neg) else if wa < wb then (wb - wa, !a.neg) else (0, false)
    else (wa + wb, a.neg)
  (compact exact.1 s).map fun r => ⟨r.1, r.2, exact.2⟩

/-- The product: `Compact(A * B, sa + sb)` with the XOR of the signs (R125). -/
def multiply (a b : Dec) : Option Dec :=
  (compact (a.mant * b.mant) (a.scale + b.scale)).map fun r => ⟨r.1, r.2, a.neg ^^ b.neg⟩

/-- `F(s) = RHE(A * 10^(s - s0) / B)` with `s0 = sa - sb`, as one rounding of the quotient of two integers (R127). -/
def quotientAt (a b : Dec) (s : Nat) : Nat := rhe (a.mant * 10 ^ (s + b.scale)) (b.mant * 10 ^ a.scale)

/-- The number of trailing zeros the scale normalisation removes (R127, R129). -/
def removable (m s : Nat) : Nat := if m = 0 then s else min (tz10 m) s

/-- The quotient for a non-zero divisor: the largest scale at most 28 at which it fits, trailing zeros removed (R127). -/
def divide (a b : Dec) : Option Dec :=
  (findDown (fun s => quotientAt a b s ≤ max96) scaleMax).map fun s =>
    let m := quotientAt a b s
    let z := removable m s
    ⟨m / 10 ^ z, s - z, a.neg ^^ b.neg⟩

/-- ADD `Dd, Ds` (R121). -/
def execAdd (rd rs : DReg) (s : State) : Result :=
  valueCommand (encode (.add rd rs)) s [s.getD rd, s.getD rs]
    ((addSub (s.getD rd).dec (s.getD rs).dec false).map fun r => s.setD rd (pack r))

/-- SUB `Dd, Ds` (R122). -/
def execSub (rd rs : DReg) (s : State) : Result :=
  valueCommand (encode (.sub rd rs)) s [s.getD rd, s.getD rs]
    ((addSub (s.getD rd).dec (s.getD rs).dec true).map fun r => s.setD rd (pack r))

/-- MUL `Dd, Ds` (R125). -/
def execMul (rd rs : DReg) (s : State) : Result :=
  valueCommand (encode (.mul rd rs)) s [s.getD rd, s.getD rs]
    ((multiply (s.getD rd).dec (s.getD rs).dec).map fun r => s.setD rd (pack r))

/-- DIV `Dd, Ds` (R127). -/
def execDiv (rd rs : DReg) (s : State) : Result :=
  dividingCommand (encode (.div rd rs)) s (s.getD rd) (s.getD rs)
    ((divide (s.getD rd).dec (s.getD rs).dec).map fun r => s.setD rd (pack r))

/-- MOD `Dd, Ds`: the exact remainder at the common scale with the dividend's sign; the dividend unchanged, all four
words, when its magnitude is the smaller (R130). Never Overflow. -/
def execMod (rd rs : DReg) (s : State) : Result :=
  let a := (s.getD rd).dec
  let b := (s.getD rs).dec
  let c := max a.scale b.scale
  dividingCommand (encode (.mod rd rs)) s (s.getD rd) (s.getD rs)
    (some (if a.widen c < b.widen c then s else s.setD rd (pack ⟨a.widen c % b.widen c, c, a.neg⟩)))

end Sys2Proof.Machine
end

