-- ==== Sys2Proof/Machine/Compare.lean ====
section
/-! DEFINITION. CMP, NEG, ABS, SIGN, MAX, MIN, DIVMOD1E9, MUL10, ADDI32 (spec/44_compare_misc.md). CMP, SIGN, MAX, MIN
are value commands; the others are raw: they never look at validity (spec/41_arith.md R120). -/

namespace Sys2Proof.Machine

open Sys2Proof.Config

/-- The mantissa at scale `s` with its sign, an exact integer (R170). -/
def Dec.signed (d : Dec) (s : Nat) : Int := if d.neg then -(d.widen s : Int) else d.widen s

/-- `Cmp3(a, b)`: -1, 0 or +1, the sign of `val(a) - val(b)` (R170). -/
def cmp3 (a b : Dec) : Int :=
  let s := max a.scale b.scale
  if a.signed s < b.signed s then -1 else if b.signed s < a.signed s then 1 else 0

/-- The result of SIGN: 0 for a zero mantissa whatever the sign bit (R174). -/
def signOf (a : Dec) : Int := if a.mant = 0 then 0 else if a.neg then -1 else 1

/-- CMP `Dd, Ds`: `X <- sext_64(Cmp3)` (R171). -/
def execCmp (rd rs : DReg) (s : State) : Result :=
  valueCommand (encode (.cmp rd rs)) s [s.getD rd, s.getD rs]
    (some (s.setX (BitVec.ofInt 64 (cmp3 (s.getD rd).dec (s.getD rs).dec))))

/-- NEG `Dd, Ds`: a raw copy with bit 31 of `FLAGS` inverted (R172). -/
def execNeg (rd rs : DReg) (s : State) : Result :=
  .next (s.setD rd { s.getD rs with flags := flipSign (s.getD rs).flags })

/-- ABS `Dd, Ds`: a raw copy with bit 31 of `FLAGS` cleared (R173). -/
def execAbs (rd rs : DReg) (s : State) : Result :=
  .next (s.setD rd { s.getD rs with flags := clearSign (s.getD rs).flags })

/-- SIGN `Dr` (R174). -/
def execSign (r : DReg) (s : State) : Result :=
  valueCommand (encode (.sign r)) s [s.getD r] (some (s.setX (BitVec.ofInt 64 (signOf (s.getD r).dec))))

/-- MAX `Dd, Ds`: `D[rs]` copied bit for bit when it is the greater; on equality `Dd` is kept (R175). -/
def execMax (rd rs : DReg) (s : State) : Result :=
  valueCommand (encode (.max rd rs)) s [s.getD rd, s.getD rs]
    (some (if cmp3 (s.getD rd).dec (s.getD rs).dec < 0 then s.setD rd (s.getD rs) else s))

/-- MIN `Dd, Ds`: `D[rs]` copied bit for bit when it is the smaller; on equality `Dd` is kept (R176). -/
def execMin (rd rs : DReg) (s : State) : Result :=
  valueCommand (encode (.min rd rs)) s [s.getD rd, s.getD rs]
    (some (if 0 < cmp3 (s.getD rd).dec (s.getD rs).dec then s.setD rd (s.getD rs) else s))

/-- DIVMOD1E9 `Dr`: quotient by 10^9 to the mantissa words, remainder to `XLO`, `XHI <- 0`; `FLAGS` kept (R177). -/
def execDivmod1e9 (r : DReg) (s : State) : Result :=
  let m := (s.getD r).mant
  .next ((s.setD r ((s.getD r).withMant (m / 10 ^ 9))).setX (join64 0 (BitVec.ofNat 32 (m % 10 ^ 9))))

/-- MUL10 `Dr`: the mantissa times ten, Overflow when it leaves 96 bits; `FLAGS` kept (R178). -/
def execMul10 (r : DReg) (s : State) : Result :=
  let m := (s.getD r).mant * 10
  orOverflow (encode (.mul10 r)) s
    (if m ≤ max96 then some (s.setD r ((s.getD r).withMant m)) else none)

/-- ADDI32 `Dr`: the mantissa plus the unsigned `XLO`, Overflow when it leaves 96 bits; `FLAGS` kept (R179). -/
def execAddi32 (r : DReg) (s : State) : Result :=
  let m := (s.getD r).mant + s.xlo.toNat
  orOverflow (encode (.addi32 r)) s
    (if m ≤ max96 then some (s.setD r ((s.getD r).withMant m)) else none)

end Sys2Proof.Machine
end

