-- ==== Sys2Proof/Machine/Float.lean ====
section
/-! DEFINITION. The binary formats (spec/43_convert.md R155), rounding to them, the table `POW10_F64`
(spec/10_state.md R34), and the default settings of the parameters `F64_OPS` (R159, R160) and `FROM_FLOAT_SCALING`
(R154). -/

namespace Sys2Proof.Machine

open Sys2Proof.Config

/-- A binary format: widths of the exponent and the fraction field (R155). -/
structure FloatFormat where
  ebits : Nat
  fbits : Nat
  deriving DecidableEq, Repr

/-- binary64 (R155). -/
def binary64 : FloatFormat := ⟨11, 52⟩

/-- binary32 (R155). -/
def binary32 : FloatFormat := ⟨8, 23⟩

/-- The exponent bias, `2^(ebits-1) - 1` (R154, R155). -/
def FloatFormat.bias (f : FloatFormat) : Nat := 2 ^ (f.ebits - 1) - 1

/-- `num / den` times `2^k` as a quotient of integers. -/
def scaleTwo (num den : Nat) (k : Int) : Nat × Nat := (num * 2 ^ k.toNat, den * 2 ^ (-k).toNat)

/-- The magnitude of a pattern with exponent field `E` (not all ones) and fraction field `F`, as numerator and
denominator (R154, R155). -/
def FloatFormat.magnitude (f : FloatFormat) (E F : Nat) : Nat × Nat :=
  if E = 0 then scaleTwo F 1 (1 - f.bias - f.fbits : Int)
  else scaleTwo (2 ^ f.fbits + F) 1 (E - f.bias - f.fbits : Int)

/-- `floor(log2(num / den))` for positive `num`, `den`. -/
def floorLog2 (num den : Nat) : Int :=
  let l : Int := (num.log2 : Int) - den.log2
  let y := scaleTwo num den (-l)
  if y.2 ≤ y.1 then l else l - 1

/-- The pattern (sign bit 0) of the value of the format nearest to `num / den`, ties to the even fraction (R159, R160).
The exponent is that of the value, or that of the subnormals when the value is below the normal range; a carry of the
rounding moves into the exponent field by itself; a value too large gives the infinity pattern. Subnormal and infinite
results do not arise in the commands (R158, R159; assumption log 16). -/
def FloatFormat.nearest (f : FloatFormat) (num den : Nat) : Nat :=
  if num = 0 then 0
  else
    let e : Int := max (floorLog2 num den) (1 - f.bias)
    let y := scaleTwo num den (f.fbits - e)
    min ((e + f.bias - 1).toNat * 2 ^ f.fbits + rhe y.1 y.2) ((2 ^ f.ebits - 1) * 2 ^ f.fbits)

/-- The exponent field `X[62:52]` of a binary64 pattern. -/
def exponent64 (x : DWord) : Nat := (x.extractLsb' 52 11).toNat

/-- The fraction field `X[51:0]` of a binary64 pattern. -/
def fraction64 (x : DWord) : Nat := (x.extractLsb' 0 52).toNat

/-- The exponent field `XLO[30:23]` of a binary32 pattern. -/
def exponent32 (x : Word) : Nat := (x.extractLsb' 23 8).toNat

/-- The fraction field `XLO[22:0]` of a binary32 pattern. -/
def fraction32 (x : Word) : Nat := (x.extractLsb' 0 23).toNat

/-- The magnitude of a finite binary64 pattern (R155). -/
def magnitude64 (x : DWord) : Nat × Nat := binary64.magnitude (exponent64 x) (fraction64 x)

/-- The binary64 pattern nearest to `num / den` (R159). -/
def nearest64 (num den : Nat) : DWord := BitVec.ofNat 64 (binary64.nearest num den)

/-- The default `F64_OPS`: every operation is the exact result rounded to nearest even (R159, R160; assumption
log 5). -/
def f64Default : F64Ops where
  ofU64 n := nearest64 n.toNat 1
  ofU32 n := nearest64 n.toNat 1
  mul a b :=
    let x := magnitude64 a
    let y := magnitude64 b
    nearest64 (x.1 * y.1) (x.2 * y.2)
  add a b :=
    let x := magnitude64 a
    let y := magnitude64 b
    nearest64 (x.1 * y.2 + y.1 * x.2) (x.2 * y.2)
  div a b :=
    let x := magnitude64 a
    let y := magnitude64 b
    nearest64 (x.1 * y.2) (x.2 * y.1)
  narrow a :=
    let x := magnitude64 a
    BitVec.ofNat 32 (binary32.nearest x.1 x.2)

/-- The default `FROM_FLOAT_SCALING`: the scaled value is formed exactly and rounded once (R154 (d); assumption log 6). -/
def scalingDefault : FromFloatScaling where
  up num den p := rhe (num * 10 ^ p) den
  down num den p := rhe num (den * 10 ^ p)

/-- `POW10_F64[k]`, `0 ≤ k ≤ F64_TABLE_MAX`: the binary64 nearest to `10^k`, ties to even (spec/10_state.md R34). DTOR8
and DTOR4 read entries 0 to 28; the others, and the 0 beyond the table, are read by no rule (assumption log 18). -/
def pow10F64 (k : Nat) : DWord := if k ≤ f64TableMax then nearest64 (10 ^ k) 1 else 0

/-- The nearest integer, ties to even, to the value of a binary64 pattern (R155). -/
def roundedValue64 (x : DWord) : Nat :=
  let y := magnitude64 x
  rhe y.1 y.2

/-- Scaling as the document words it, by one binary64 product with, or quotient by, an entry of `POW10_F64` (R154). -/
def scalingBinary64 : FromFloatScaling where
  up num den p :=
    let y := magnitude64 (pow10F64 p)
    roundedValue64 (nearest64 (num * y.1) (den * y.2))
  down num den p :=
    let y := magnitude64 (pow10F64 p)
    roundedValue64 (nearest64 (num * y.2) (den * y.1))

/-- What a replacement that asks for `n` gives: it may differ from the default's `exact` only where the binary64 product
or quotient rounds across a half-way point, so that its integer `crossed` differs (spec/93_implementation_defined.md
U16). -/
def replacedRounding (exact crossed n : Nat) : Nat := if n = crossed then crossed else exact

/-- A replacement for `FROM_FLOAT_SCALING` held to what U16 allows it (assumption log 6). -/
def scalingWithin (sc : FromFloatScaling) : FromFloatScaling where
  up num den p := replacedRounding (scalingDefault.up num den p) (scalingBinary64.up num den p) (sc.up num den p)
  down num den p := replacedRounding (scalingDefault.down num den p) (scalingBinary64.down num den p) (sc.down num den p)

/-- A replacement for `F64_OPS` whose results have sign bit 0, as `bits(r)` and `bits32` have (R159, R160). -/
def nonNegative (ops : F64Ops) : F64Ops :=
  { ops with
    div := fun a b => ops.div a b &&& 0x7FFFFFFFFFFFFFFF#64
    narrow := fun a => ops.narrow a &&& 0x7FFFFFFF#32 }

/-- The machine's `F64_OPS` (spec/00_scope.md R9). -/
def f64Of (setting : F64Setting) : F64Ops :=
  match setting with
  | .nearestEven => f64Default
  | .other id => nonNegative (f64Other id)

/-- The machine's `FROM_FLOAT_SCALING` (spec/00_scope.md R9). -/
def scalingOf (setting : ScalingSetting) : FromFloatScaling :=
  match setting with
  | .exactRational => scalingDefault
  | .other id => scalingWithin (scalingOther id)

/-- The binary64 pattern of `2^64`, the factor of rule R157. -/
def two64 : DWord := 0x43F0000000000000#64

end Sys2Proof.Machine
end

