-- ==== Sys2Proof/Machine/Convert.lean ====
section
/-! DEFINITION. CYTOD, DTOCY, R8TOD, R4TOD, DTOR8, DTOR4 (spec/43_convert.md). The functions take the open parameters
`F64_OPS` and `FROM_FLOAT_SCALING` as arguments; the commands pass what the machine's parameters set (assumption logs 5,
6 and 21). -/

namespace Sys2Proof.Machine

open Sys2Proof.Config

/-- The decimal of a signed 64-bit currency integer: its magnitude at scale 4 (R150). -/
def currencyToDec (x : DWord) : Dec := ⟨x.toInt.natAbs, cyScale, decide (x.toInt < 0)⟩

/-- The rounded currency magnitude `M` of rule R151. -/
def currencyMagnitude (a : Dec) : Nat :=
  if a.scale ≤ cyScale then a.mant * 10 ^ (cyScale - a.scale) else rhe a.mant (10 ^ (a.scale - cyScale))

/-- The 64-bit currency integer of a decimal, `none` for Overflow; the negative range reaches `2^63` (R151). -/
def decToCurrency (a : Dec) : Option DWord :=
  let M := currencyMagnitude a
  if a.neg then if M ≤ 2 ^ 63 then some (BitVec.ofInt 64 (-(M : Int))) else none
  else if M ≤ 2 ^ 63 - 1 then some (BitVec.ofInt 64 M) else none

/-- `10^e10 ≤ num/den` as integers, for `e10 = j - 29` (R154: `2^-95 ≤ x`, so `e10 ≥ -29`). -/
def decimalExponent (num den : Nat) : Int :=
  ((findDown (fun j => den * 10 ^ j ≤ num * 10 ^ 29) 57).getD 0 : Nat) - 29

/-- The zero record of R154 (c). -/
def zeroDec : Dec := ⟨0, 0, false⟩

/-- `FloatToDec(sgn, E, F, ebits, fbits, digits)`, `none` for Overflow (R154). -/
def floatToDec (sc : FromFloatScaling) (f : FloatFormat) (digits : Nat) (sgn : Bool) (E F : Nat) : Option Dec :=
  let x := f.magnitude E F
  if E = 2 ^ f.ebits - 1 then none
  else if x.2 * 2 ^ 96 ≤ x.1 then none
  else if x.1 * 2 ^ 95 < x.2 then some zeroDec
  else
    let p : Int := min (digits - 1 - decimalExponent x.1 x.2) scaleMax
    if 0 ≤ p then
      let mant := sc.up x.1 x.2 p.toNat
      if mant = 0 then some zeroDec
      else
        let z := min (min (tz10 mant) p.toNat) (digits - 1)
        some ⟨mant / 10 ^ z, p.toNat - z, sgn⟩
    else
      let m := sc.down x.1 x.2 (-p).toNat * 10 ^ (-p).toNat
      if max96 < m then none else some ⟨m, 0, sgn⟩

/-- R8TOD's result from the binary64 pattern in `X` (R152). -/
def binary64ToDec (sc : FromFloatScaling) (x : DWord) : Option Dec :=
  floatToDec sc binary64 r8Digits (x.getLsbD 63) (exponent64 x) (fraction64 x)

/-- R4TOD's result from the binary32 pattern in `XLO` (R153). -/
def binary32ToDec (sc : FromFloatScaling) (x : Word) : Option Dec :=
  floatToDec sc binary32 r4Digits (x.getLsbD 31) (exponent32 x) (fraction32 x)

/-- The binary64 magnitude of a register: steps `lo`, `hi`, `m`, `r` of rule R157. -/
def decMagnitude64 (ops : F64Ops) (a : DecReg) : DWord :=
  let lo := ops.ofU64 (join64 a.mid a.lo)
  let hi := ops.mul (ops.ofU32 a.hi) two64
  ops.div (ops.add lo hi) (pow10F64 a.scale)

/-- DTOR8's result: `na * 2^63 + bits(r)` (R157). -/
def decToBinary64 (ops : F64Ops) (a : DecReg) : DWord :=
  BitVec.ofNat 64 (a.sign.toNat * 2 ^ 63) + decMagnitude64 ops a

/-- DTOR4's result in `XLO`: `na * 2^31 + bits32(f64_to_f32(r))` (R158). -/
def decToBinary32 (ops : F64Ops) (a : DecReg) : Word :=
  BitVec.ofNat 32 (a.sign.toNat * 2 ^ 31) + ops.narrow (decMagnitude64 ops a)

/-- CYTOD `Dr` (R150). -/
def execCytod (r : DReg) (s : State) : Result := .next (s.setD r (pack (currencyToDec s.x)))

/-- DTOCY `Dr` (R151). -/
def execDtocy (r : DReg) (s : State) : Result :=
  valueCommand (encode (.dtocy r)) s [s.getD r] ((decToCurrency (s.getD r).dec).map s.setX)

/-- R8TOD `Dr` (R152). -/
def execR8tod (r : DReg) (s : State) : Result :=
  orOverflow (encode (.r8tod r)) s
    ((binary64ToDec (scalingOf s.params.scaling) s.x).map fun d => s.setD r (pack d))

/-- R4TOD `Dr`; `XHI` is ignored (R153). -/
def execR4tod (r : DReg) (s : State) : Result :=
  orOverflow (encode (.r4tod r)) s
    ((binary32ToDec (scalingOf s.params.scaling) s.xlo).map fun d => s.setD r (pack d))

/-- DTOR8 `Dr` (R157). -/
def execDtor8 (r : DReg) (s : State) : Result :=
  valueCommand (encode (.dtor8 r)) s [s.getD r] (some (s.setX (decToBinary64 (f64Of s.params.f64) (s.getD r))))

/-- DTOR4 `Dr`; `XHI <- 0` (R158). -/
def execDtor4 (r : DReg) (s : State) : Result :=
  valueCommand (encode (.dtor4 r)) s [s.getD r]
    (some (s.setX (join64 0 (decToBinary32 (f64Of s.params.f64) (s.getD r)))))

end Sys2Proof.Machine
end

