-- ==== Sys2Proof/Machine/Round.lean ====
section
/-! DEFINITION. TRUNC, FLOOR, ROUND (spec/42_round.md). None of them can overflow. -/

namespace Sys2Proof.Machine

/-- `truncate(d)` (R140). -/
def truncate (b : Dec) : Dec := ⟨b.mant / 10 ^ b.scale, 0, b.neg⟩

/-- `int()`: the floor, an increment of the magnitude when a negative value drops a non-zero part (R141). -/
def floorDec (b : Dec) : Dec :=
  let q := b.mant / 10 ^ b.scale
  ⟨if b.neg ∧ b.mant % 10 ^ b.scale ≠ 0 then q + 1 else q, 0, b.neg⟩

/-- The rounding of `n / d` that a mode asks for (R142). -/
def roundBy : RoundMode → Nat → Nat → Nat
  | .even => rhe
  | .away => rha

/-- The register ROUND writes: the source itself when its scale is at most `decimals`, all four words; otherwise the
rounded mantissa at scale `decimals` (R142). -/
def roundReg (b : DecReg) (decimals : Nat) (mode : RoundMode) : DecReg :=
  if b.scale ≤ decimals then b
  else pack ⟨roundBy mode b.mant (10 ^ (b.scale - decimals)), decimals, b.sign⟩

/-- TRUNC `Dd, Ds` (R140). -/
def execTrunc (rd rs : DReg) (s : State) : Result :=
  valueCommand (encode (.trunc rd rs)) s [s.getD rs] (some (s.setD rd (pack (truncate (s.getD rs).dec))))

/-- FLOOR `Dd, Ds` (R141). -/
def execFloor (rd rs : DReg) (s : State) : Result :=
  valueCommand (encode (.floor rd rs)) s [s.getD rs] (some (s.setD rd (pack (floorDec (s.getD rs).dec))))

/-- ROUND `Dd, Ds, #decimals, mode` (R142). -/
def execRound (rd rs : DReg) (decimals : Nat) (mode : RoundMode) (s : State) : Result :=
  valueCommand (encode (.round rd rs decimals mode)) s [s.getD rs]
    (some (s.setD rd (roundReg (s.getD rs) decimals mode)))

end Sys2Proof.Machine
end

