-- ==== Sys2Proof/Machine/Dispatch.lean ====
section
/-! DEFINITION. The meaning of each command, one arm per row of spec/opcode_table.json. -/

namespace Sys2Proof.Machine

def exec (i : Instr) (s : State) : Host.Outcome State Fault Refusal :=
  match i with
  | .add rd rs => Sys2Proof.Machine.execAdd rd rs s
  | .sub rd rs => Sys2Proof.Machine.execSub rd rs s
  | .mul rd rs => Sys2Proof.Machine.execMul rd rs s
  | .div rd rs => Sys2Proof.Machine.execDiv rd rs s
  | .mod rd rs => Sys2Proof.Machine.execMod rd rs s
  | .trunc rd rs => Sys2Proof.Machine.execTrunc rd rs s
  | .floor rd rs => Sys2Proof.Machine.execFloor rd rs s
  | .round rd rs decimals mode => Sys2Proof.Machine.execRound rd rs decimals mode s
  | .cmp rd rs => Sys2Proof.Machine.execCmp rd rs s
  | .neg rd rs => Sys2Proof.Machine.execNeg rd rs s
  | .abs rd rs => Sys2Proof.Machine.execAbs rd rs s
  | .sign r => Sys2Proof.Machine.execSign r s
  | .max rd rs => Sys2Proof.Machine.execMax rd rs s
  | .min rd rs => Sys2Proof.Machine.execMin rd rs s
  | .cytod r => Sys2Proof.Machine.execCytod r s
  | .dtocy r => Sys2Proof.Machine.execDtocy r s
  | .r8tod r => Sys2Proof.Machine.execR8tod r s
  | .r4tod r => Sys2Proof.Machine.execR4tod r s
  | .dtor8 r => Sys2Proof.Machine.execDtor8 r s
  | .dtor4 r => Sys2Proof.Machine.execDtor4 r s
  | .divmod1e9 r => Sys2Proof.Machine.execDivmod1e9 r s
  | .mul10 r => Sys2Proof.Machine.execMul10 r s
  | .addi32 r => Sys2Proof.Machine.execAddi32 r s

end Sys2Proof.Machine
end

