-- ==== Sys2Proof/Machine/Window.lean ====
section
/-! DEFINITION. The host's side: the register window, `RegRead` and `RegWrite` (spec/20_memory.md R50 to R56),
`Execute` (spec/30_encoding.md R79), the reset event (spec/70_reset_and_hazards.md R210), the service of one host event,
and the host-script notation (spec/30_encoding.md R78). -/

namespace Sys2Proof.Machine

open Sys2Proof.Config

/-- Word index of `XLO` (R51). -/
def idxXLO : Nat := 16
/-- Word index of `XHI` (R51). -/
def idxXHI : Nat := 17
/-- Word index of `CMD` (R51). -/
def idxCMD : Nat := 18
/-- Word index of `STATUS` (R51). -/
def idxSTATUS : Nat := 19
/-- Word index of `ECMD` (R51). -/
def idxECMD : Nat := 20

/-- The decimal register that owns the window index `idx`, `idx < 16`: `D[idx div 4]` (R51). -/
def windowReg (idx : Nat) : DReg := DReg.ofBits (BitVec.ofNat 2 (idx / 4))

/-- Word `j` of a decimal register: 0 `LO`, 1 `MID`, 2 `HI`, 3 `FLAGS` (R51). -/
def DecReg.word (r : DecReg) (j : Nat) : Word :=
  match j with
  | 0 => r.lo
  | 1 => r.mid
  | 2 => r.hi
  | _ => r.flags

/-- A decimal register with word `j` replaced (R51). -/
def DecReg.setWord (r : DecReg) (j : Nat) (v : Word) : DecReg :=
  match j with
  | 0 => { r with lo := v }
  | 1 => { r with mid := v }
  | 2 => { r with hi := v }
  | _ => { r with flags := v }

/-- `RegRead(idx)` (R51, R55). `CMD` and the reserved indices read 0 (R30, R54). -/
def regRead (idx : Nat) (s : State) : Word :=
  if idx < 16 then (s.getD (windowReg idx)).word (idx % 4)
  else if idx = idxXLO then s.xlo
  else if idx = idxXHI then s.xhi
  else if idx = idxSTATUS then s.status
  else if idx = idxECMD then s.ecmd
  else 0

/-- `Execute(w)` (spec/30_encoding.md R79): the command the word is, or the IllegalCommand fault (R74, R194). -/
def execute (w : Word) (s : State) : Result :=
  match decode w with
  | some i => exec i s
  | none => .next (s.raiseFault .illegalCommand w)

/-- `RegWrite(idx, v)` (R56). A write to `CMD` executes when `ERR = 0` and is dropped otherwise
(spec/60_exceptions.md R197); a write to `STATUS` clears the fault (R198); `ECMD` and the reserved indices ignore
writes. -/
def regWrite (idx : Nat) (v : Word) (s : State) : Result :=
  if idx < 16 then .next (s.setD (windowReg idx) ((s.getD (windowReg idx)).setWord (idx % 4) v))
  else if idx = idxXLO then .next (s.setXLO v)
  else if idx = idxXHI then .next (s.setXHI v)
  else if idx = idxCMD then if s.err = 0 then execute v s else .next s
  else if idx = idxSTATUS then .next s.clearFault
  else .next s

/-- The access is one whole aligned 32-bit word of the window (R52). -/
def wholeWord (offset size : Nat) : Bool :=
  size == 4 && offset % 4 == 0 && decide (offset / 4 < windowWords)

/-- The state after a reset that leaves the data registers holding `w`: `ERR` and `ECMD` cleared (R210). The host's own
record of a run (events not yet served, values returned) is no part of the engine and stays; so do the machine's
parameter settings. -/
def State.resetTo (s : State) (w : ResetWords) : State :=
  { State.afterReset s.params w with hostIn := s.hostIn, returned := s.returned }

/-- One host event served to completion (R56, R57, R210). -/
def serve (e : HostEvent) (s : State) : Result :=
  match e with
  | .read offset size =>
    if wholeWord offset size then .next { s with returned := s.returned ++ [regRead (offset / 4) s] }
    else .refused .notAWholeWindowWord
  | .write offset size v =>
    if wholeWord offset size then regWrite (offset / 4) v s else .refused .notAWholeWindowWord
  | .reset w => .next (s.resetTo w)

/-- The next host event, if there is one, taken off the list and served; with none issued the engine is idle and nothing
changes (R210, R216; assumption log 1). -/
def serveNext (s : State) : Result :=
  match s.hostIn with
  | [] => .next s
  | e :: rest => serve e { s with hostIn := rest }

/-- A host write of word `v` at window index `idx`: `WR reg, v` (R78). -/
def hostWrite (idx : Nat) (v : Word) : HostEvent := .write (4 * idx) 4 v

/-- A host read of window index `idx`: `RD reg` (R78). -/
def hostRead (idx : Nat) : HostEvent := .read (4 * idx) 4

/-- `LDD Dn, lit`: the four words of a register (R78). -/
def hostLDD (r : DReg) (v : DecReg) : List HostEvent :=
  [hostWrite (4 * r.index) v.lo, hostWrite (4 * r.index + 1) v.mid, hostWrite (4 * r.index + 2) v.hi,
    hostWrite (4 * r.index + 3) v.flags]

/-- `LDX v` (R78). -/
def hostLDX (v : DWord) : List HostEvent := [hostWrite idxXLO (lo32 v), hostWrite idxXHI (hi32 v)]

/-- `CLRERR` (R78). -/
def hostCLRERR : HostEvent := hostWrite idxSTATUS 0

/-- A bare command line: `WR CMD, encoding` (R78). -/
def hostCommand (i : Instr) : HostEvent := hostWrite idxCMD (encode i)

/-- The address of window index `idx` on a byte-addressed host bus (R51). -/
def busAddress (idx : Nat) : Nat := dceBase + 4 * idx

/-- The byte of a word, counted from bits 7:0, that byte offset `j` carries under `BYTE_LANES` (R53). -/
def laneAt (lanes : ByteLanes) (j : Fin 4) : Fin 4 :=
  match j with
  | 0 => lanes.at0
  | 1 => lanes.at1
  | 2 => lanes.at2
  | 3 => lanes.at3

/-- The byte a byte-addressed bus sees at byte offset `4 * idx + j` of the window, as the machine's `BYTE_LANES` maps it
(R53). No step reads a byte. -/
def busByte (s : State) (idx : Nat) (j : Fin 4) : BitVec 8 :=
  (regRead idx s).extractLsb' (8 * (laneAt s.params.byteLanes j).val) 8

/-- The host is about to write the word `w` to `CMD` of an engine that is not faulted: the very next step executes `w`. -/
def State.withCommand (s : State) (w : Word) : State :=
  { s with err := 0, ecmd := 0, hostIn := hostWrite idxCMD w :: s.hostIn }

end Sys2Proof.Machine
end

