-- ==== Sys2Proof/Machine/Step.lean ====
section
/-! DEFINITION. The step function: one host event (spec/00_scope.md R6, R7), and where a command word stands for the
step to run it. -/

namespace Sys2Proof.Machine

/-- One step of the machine: the next host event served to completion. -/
def step (s : State) : Host.Outcome State Fault Refusal := serveNext s

/-- `s` with the command word `w` stored where the step takes its next command from. The machine fetches nothing
(spec/10_state.md R31): the host writes the word to `CMD`, so the write stands first in the host's events, and `ERR` and
`ECMD` are 0 because a faulted engine drops it (assumption log 2). Every command has 32 bits (spec/30_encoding.md R70),
whatever `nbits` says. -/
def State.withFetchWord (s : State) (_nbits w : Nat) : State := s.withCommand (BitVec.ofNat 32 w)

end Sys2Proof.Machine
end

