-- ==== Sys2Proof/Machine/Primitives.lean ====
section
/-! DEFINITION. The internal datapath primitives over 32-bit words (spec/40_primitives.md R90 to R99, R107). A wide
integer is a list of words, least significant first (R94). `none` means the precondition does not hold: no result
(R106; spec/93_implementation_defined.md U1; assumption log 13). No floating point appears here (R105). -/

namespace Sys2Proof.Machine

/-- `mul32(a, b)`: the exact 64-bit product (R90). -/
def mul32 (a b : Word) : DWord := a.setWidth 64 * b.setWidth 64

/-- `divmod64by32(n, d)`; its precondition is `n[63:32] < d` (R91). -/
def divmod64by32 (n : DWord) (d : Word) : Option (Word × Word) :=
  if hi32 n < d then some (lo32 (n / d.setWidth 64), lo32 (n % d.setWidth 64)) else none

/-- The value of a wide integer (R94). -/
def wideValue : List Word → Nat
  | [] => 0
  | w :: ws => w.toNat + 2 ^ 32 * wideValue ws

/-- The low `count` words of `n` (R94: `word(N, i)` for `i < count`). -/
def wideOf : Nat → Nat → List Word
  | 0, _ => []
  | count + 1, n => BitVec.ofNat 32 n :: wideOf count (n / 2 ^ 32)

/-- `word(N, i)` (R94). -/
def wideWord (N i : Nat) : Word := BitVec.ofNat 32 (N / 2 ^ (32 * i))

/-- `hiIndex(N)`: the index of the highest non-zero word, 0 for `N = 0` (R94). -/
def hiIndex (N : Nat) : Nat := N.log2 / 32

/-- Word-wise addition with carry, of arrays of one length; the carry out is the overflow indication (R107). -/
def addWords : List Word → List Word → Bool → List Word × Bool
  | a :: as, b :: bs, carry =>
    let t := a.toNat + b.toNat + carry.toNat
    let rest := addWords as bs (decide (2 ^ 32 ≤ t))
    (BitVec.ofNat 32 t :: rest.1, rest.2)
  | _, _, carry => ([], carry)

/-- Word-wise subtraction with borrow, of arrays of one length (R107). -/
def subWords : List Word → List Word → Bool → List Word × Bool
  | a :: as, b :: bs, borrow =>
    let t := 2 ^ 32 + a.toNat - b.toNat - borrow.toNat
    let rest := subWords as bs (decide (t < 2 ^ 32))
    (BitVec.ofNat 32 t :: rest.1, rest.2)
  | _, _, borrow => ([], borrow)

/-- The sign flip: bitwise complement, then add 1 (R107). -/
def negWords (ws : List Word) : List Word :=
  (addWords (ws.map (~~~ ·)) (ws.map fun _ => 0) true).1

/-- One word times a wide integer plus a carry word, by `mul32` steps from word 0 upward; the last carry is the word
beyond the array (R98). -/
def mulWords : List Word → Word → Word → List Word × Word
  | [], _, carry => ([], carry)
  | a :: as, m, carry =>
    let p := mul32 a m + carry.setWidth 64
    let rest := mulWords as m (hi32 p)
    (lo32 p :: rest.1, rest.2)

/-- `increaseScale(num, power)`: the product's low words and the word that overflowed (R98). -/
def increaseScale (num : List Word) (power : Word) : List Word × Word := mulWords num power 0

/-- `add32to96(num, v)`: one word added with carry propagation, and whether no carry left the top word (R99). -/
def add32to96 : List Word → Word → List Word × Bool
  | [], v => ([], v == 0)
  | a :: as, v =>
    let t := a.toNat + v.toNat
    let rest := add32to96 as (BitVec.ofNat 32 (t / 2 ^ 32))
    (BitVec.ofNat 32 t :: rest.1, rest.2)

/-- `div96by32(num, d)`: word by word from the most significant, the remainder propagating downward (R95). -/
def div96by32 : List Word → Word → Option (List Word × Word)
  | [], _ => some ([], 0)
  | a :: as, d =>
    match div96by32 as d with
    | none => none
    | some (qs, r) =>
      match divmod64by32 (join64 r a) d with
      | none => none
      | some (q, r') => some (q :: qs, r')

/-- The schoolbook product of two wide integers: one row of `mul32` partial products for each word of the second
(R92; spec/41_arith.md R126 step 3). -/
def mulWide (as : List Word) : List Word → List Word
  | [] => as.map fun _ => 0
  | b :: bs =>
    let row := mulWords as b 0
    match row.1 ++ [row.2] with
    | [] => []
    | w :: ws => w :: (addWords (ws ++ bs.map fun _ => 0) (mulWide as bs) false).1

/-- `mul64x64to128(a, b)`: the two halves of the 128-bit product (R92). -/
def mul64x64to128 (a b : DWord) : DWord × DWord :=
  let p := wideValue (mulWide [lo32 a, hi32 a] [lo32 b, hi32 b])
  (BitVec.ofNat 64 (p / 2 ^ 64), BitVec.ofNat 64 p)

/-- The "guess high, correct low" loop: add the divisor back at most `tries` times until the remainder is not negative
(R96). -/
def correctDown (den : Nat) : Nat → Nat → Int → Option (Nat × Nat)
  | tries, q, rem =>
    if 0 ≤ rem then some (q, rem.toNat)
    else
      match tries with
      | 0 => none
      | t + 1 => correctDown den t (q - 1) (rem + den)

/-- The quotient word estimated from the top two dividend words and the top divisor word; `2^32` when the hardware divide
would overflow (R96). -/
def estimateWord (top : DWord) (d : Word) : Nat :=
  match divmod64by32 top d with
  | some (q, _) => q.toNat
  | none => 2 ^ 32

/-- `div96by64(num, den)` for a divisor with its upper word not zero and `den > num[95:32]` (R96). Two corrections are
enough for a normalised divisor (top bit set), the only kind the divider passes (spec/41_arith.md R128); for any other
the result is that of the plain division, the input-output relation R96 states. -/
def div96by64 (num den : Nat) : Option (Nat × Nat) :=
  if 2 ^ 32 ≤ den ∧ den < 2 ^ 64 ∧ num / 2 ^ 32 < den then
    if 2 ^ 63 ≤ den then
      let q := estimateWord (BitVec.ofNat 64 (num / 2 ^ 32)) (BitVec.ofNat 32 (den / 2 ^ 32))
      correctDown den 2 q (num - q * den : Int)
    else some (num / den, num % den)
  else none

/-- `div128by96(num, den)` for a divisor with its top word not zero and `den > num[127:32]` (R97), corrected as in
`div96by64`. -/
def div128by96 (num den : Nat) : Option (Nat × Nat) :=
  if 2 ^ 64 ≤ den ∧ den < 2 ^ 96 ∧ num / 2 ^ 32 < den then
    if 2 ^ 95 ≤ den then
      let q := estimateWord (BitVec.ofNat 64 (num / 2 ^ 64)) (BitVec.ofNat 32 (den / 2 ^ 64))
      correctDown den 2 q (num - q * den : Int)
    else some (num / den, num % den)
  else none

end Sys2Proof.Machine
end

