-- ==== Sys2Proof/Machine/Mechanism.lean ====
section
/-! DEFINITION. The document's algorithms for the commands, built from the primitives: `decAddSub` (spec/41_arith.md
R123), `varDecMul` (R126), `varDecDiv` with its scale normalisation (R128, R129), and the chunked `truncate` and `round`
(spec/42_round.md R140, R143). The commands are defined by the closed forms of the same rules, to which these are stated
equal; which of the two an implementation uses cannot be observed (spec/93_implementation_defined.md U17). `none` is
Overflow. -/

namespace Sys2Proof.Machine

open Sys2Proof.Config

/-- A wide integer scaled up by `10^k` in steps of at most `10^9` (R123 step 3); `k` steps are enough fuel. -/
def scaleUpWords : Nat → List Word → Nat → List Word
  | 0, ws, _ => ws
  | fuel + 1, ws, k =>
    if k = 0 then ws
    else scaleUpWords fuel (increaseScale ws (pow10Word (min k maxPow32))).1 (k - min k maxPow32)

/-- The difference of two wide integers as magnitude and sign; a negative difference is negated and flips the sign, a
zero difference has sign 0 (R123 steps 2 and 3). -/
def subMagnitude (as bs : List Word) (neg : Bool) : Nat × Bool :=
  let d := subWords as bs false
  let r := if d.2 then negWords d.1 else d.1
  if wideValue r = 0 then (0, false) else (wideValue r, if d.2 then !neg else neg)

/-- `decAddSub(d1, d2, subtract)` (R123). -/
def decAddSub (a b : Dec) (sub : Bool) : Option Dec :=
  let submag := sub ^^ b.neg ^^ a.neg
  if a.scale = b.scale then
    let as := wideOf 3 a.mant
    let bs := wideOf 3 b.mant
    if submag then
      let r := subMagnitude as bs a.neg
      some ⟨r.1, a.scale, r.2⟩
    else
      let sum := addWords as bs false
      if sum.2 then
        (overflowUnscale (2 ^ 96 + wideValue sum.1) a.scale false).map fun r => ⟨r.1, r.2.toNat, a.neg⟩
      else some ⟨wideValue sum.1, a.scale, a.neg⟩
  else
    let s := max a.scale b.scale
    let as := scaleUpWords (s - a.scale) (wideOf wideWords a.mant) (s - a.scale)
    let bs := scaleUpWords (s - b.scale) (wideOf wideWords b.mant) (s - b.scale)
    let r := if submag then subMagnitude as bs a.neg else (wideValue (addWords as bs false).1, a.neg)
    if max96 < r.1 then (scaleResult r.1 s).map fun c => ⟨c.1, c.2, r.2⟩ else some ⟨r.1, s, r.2⟩

/-- The exact product as `varDecMul` forms it: one `mul32`, one `mul64x64to128`, or nine partial products (R126). -/
def productWords (A B : Nat) : Nat :=
  if A < 2 ^ 32 ∧ B < 2 ^ 32 then (mul32 (BitVec.ofNat 32 A) (BitVec.ofNat 32 B)).toNat
  else if A < 2 ^ 64 ∧ B < 2 ^ 64 then
    let p := mul64x64to128 (BitVec.ofNat 64 A) (BitVec.ofNat 64 B)
    p.1.toNat * 2 ^ 64 + p.2.toNat
  else wideValue (mulWide (wideOf 3 A) (wideOf 3 B))

/-- `varDecMul(d1, d2)` (R126). -/
def varDecMul (a b : Dec) : Option Dec :=
  let P := productWords a.mant b.mant
  let ts := a.scale + b.scale
  let short := a.mant < 2 ^ 64 ∧ b.mant < 2 ^ 64
  let r :=
    if short ∧ P ≤ max96 ∧ ts ≤ scaleMax then some (P, ts)
    else if short ∧ P < 2 ^ 64 ∧ scaleMax < ts then some (rhe P (10 ^ (ts - scaleMax)), scaleMax)
    else scaleResult P ts
  r.map fun c => ⟨c.1, c.2, a.neg ^^ b.neg⟩

/-- Quotient and remainder of a dividend by a divisor `0 < b < 2^96`, as R128 forms them: `div96by32` for a one-word
divisor; otherwise divisor and dividend are shifted left until the divisor's top bit is set, `div96by64` gives two
quotient words or `div128by96` one, and the remainder is shifted back. The dividend is below `2^96` or below
`b * 2^32`. -/
def divWide (n b : Nat) : Option (Nat × Nat) :=
  if b < 2 ^ 32 then
    (div96by32 (wideOf 3 n) (BitVec.ofNat 32 b)).map fun r => (wideValue r.1, r.2.toNat)
  else if b < 2 ^ 64 then
    let sh := 63 - b.log2
    let num := n <<< sh
    match div96by64 (num / 2 ^ 32) (b <<< sh) with
    | none => none
    | some (q1, r1) =>
      (div96by64 (r1 * 2 ^ 32 + num % 2 ^ 32) (b <<< sh)).map fun r => (q1 * 2 ^ 32 + r.1, r.2 >>> sh)
  else
    let sh := 95 - b.log2
    (div128by96 (n <<< sh) (b <<< sh)).map fun r => (r.1, r.2 >>> sh)

/-- The digit extraction loop of `varDecDiv` (R128): quotient and scale. A digit is added at least every pass and the
scale runs from -28 to 28 (spec/70_reset_and_hazards.md R215), so 64 passes are enough. -/
def divLoop (B : Nat) : Nat → Nat → Nat → Int → Option (Nat × Int)
  | 0, _, _, _ => none
  | fuel + 1, q, r, scale =>
    if r = 0 then
      if scale < 0 then
        let k := min maxPow32 (-scale).toNat
        let p := increaseScale (wideOf 3 q) (pow10Word k)
        if p.2 = 0 then divLoop B fuel (wideValue p.1) 0 (scale + k) else none
      else some (q, scale)
    else
      match searchScale q scale with
      | none => none
      | some 0 =>
        if B < 2 * r ∨ (2 * r = B ∧ q % 2 = 1) then
          if max96 < q + 1 then overflowUnscale (q + 1) scale true else some (q + 1, scale)
        else some (q, scale)
      | some k =>
        match divWide (r * 10 ^ k) B with
        | none => none
        | some (d, r') =>
          let sum := add32to96 (increaseScale (wideOf 3 q) (pow10Word k)).1 (BitVec.ofNat 32 d)
          if sum.2 then divLoop B fuel (wideValue sum.1) r' (scale + k)
          else overflowUnscale (2 ^ 96 + wideValue sum.1) (scale + k) (r' != 0)

/-- One trial of the scale normalisation: `10^k` is divided out when the low bits, the scale and the remainder allow it
(R129). -/
def trialDivide (k : Nat) (c : Nat × Nat) : Nat × Nat :=
  if c.1 % 2 ^ k = 0 ∧ k ≤ c.2 ∧ c.1 % 10 ^ k = 0 then (c.1 / 10 ^ k, c.2 - k) else c

/-- `normalise(q, scale)`: the trial by `10^8` repeated while it succeeds, at most three times for a scale of at most 28,
then `10^4`, `10^2`, `10` once each (R129). -/
def normalise (q scale : Nat) : Nat × Nat :=
  [8, 8, 8, 4, 2, 1].foldl (fun c k => trialDivide k c) (q, scale)

/-- `varDecDiv(d1, d2)` for a non-zero divisor (R128). -/
def varDecDiv (a b : Dec) : Option Dec :=
  match divWide a.mant b.mant with
  | none => none
  | some (q, r) =>
    (divLoop b.mant 64 q r ((a.scale : Int) - b.scale)).map fun c =>
      let n := normalise c.1 c.2.toNat
      ⟨n.1, n.2, a.neg ^^ b.neg⟩

/-- `truncate(d)` by chunks, remainder and sticky bit ignored (spec/42_round.md R140). -/
def truncateChunked (b : Dec) : Dec :=
  ⟨if b.scale = 0 then b.mant else (divPow10 b.mant b.scale).q, 0, b.neg⟩

/-- The rounded quotient of `round` by chunks, `k ≥ 1` (spec/42_round.md R143). -/
def roundChunked (B k : Nat) (mode : RoundMode) : Nat :=
  let c := divPow10 B k
  let up := match mode with
    | .even => c.roundsUpEven
    | .away => c.roundsUpAway
  if up then c.q + 1 else c.q

end Sys2Proof.Machine
end

