-- ==== Sys2Proof/Safety.lean ====
section
/-! DEFINITION. The terms the statements are made in, written from the rules without the model's algorithms: which
register a command reads and writes (spec/10_state.md R39), which fault it can raise (spec/60_exceptions.md R190), the
invariants, and rounding and the binary formats over the rationals. -/

namespace Sys2Proof.Machine

open Sys2Proof.Config

/-- The decimal register a command writes on success (R39). -/
def writesD : Instr → Option DReg
  | .add rd _ | .sub rd _ | .mul rd _ | .div rd _ | .mod rd _ => some rd
  | .trunc rd _ | .floor rd _ | .round rd _ _ _ | .neg rd _ | .abs rd _ | .max rd _ | .min rd _ => some rd
  | .cytod r | .r8tod r | .r4tod r | .divmod1e9 r | .mul10 r | .addi32 r => some r
  | .cmp _ _ | .sign _ | .dtocy _ | .dtor8 _ | .dtor4 _ => none

/-- Whether a command writes `X` on success (R39). -/
def writesX : Instr → Bool
  | .cmp _ _ | .sign _ | .dtocy _ | .dtor8 _ | .dtor4 _ | .divmod1e9 _ => true
  | .add _ _ | .sub _ _ | .mul _ _ | .div _ _ | .mod _ _ | .trunc _ _ | .floor _ _ | .round _ _ _ _ => false
  | .neg _ _ | .abs _ _ | .max _ _ | .min _ _ | .cytod _ | .r8tod _ | .r4tod _ | .mul10 _ | .addi32 _ => false

/-- The decimal registers a command reads (R39). -/
def readsD : Instr → List DReg
  | .add rd rs | .sub rd rs | .mul rd rs | .div rd rs | .mod rd rs | .max rd rs | .min rd rs | .cmp rd rs => [rd, rs]
  | .trunc _ rs | .floor _ rs | .round _ rs _ _ | .neg _ rs | .abs _ rs => [rs]
  | .sign r | .dtocy r | .dtor8 r | .dtor4 r | .divmod1e9 r | .mul10 r | .addi32 r => [r]
  | .cytod _ | .r8tod _ | .r4tod _ => []

/-- Whether a command reads `XLO` (R39). -/
def readsXLO : Instr → Bool
  | .cytod _ | .r8tod _ | .r4tod _ | .addi32 _ => true
  | .add _ _ | .sub _ _ | .mul _ _ | .div _ _ | .mod _ _ | .trunc _ _ | .floor _ _ | .round _ _ _ _ => false
  | .cmp _ _ | .neg _ _ | .abs _ _ | .sign _ | .max _ _ | .min _ _ => false
  | .dtocy _ | .dtor8 _ | .dtor4 _ | .divmod1e9 _ | .mul10 _ => false

/-- Whether a command reads `XHI` (R39): the whole of `X` is read by CYTOD and R8TOD only. -/
def readsXHI : Instr → Bool
  | .cytod _ | .r8tod _ => true
  | .add _ _ | .sub _ _ | .mul _ _ | .div _ _ | .mod _ _ | .trunc _ _ | .floor _ _ | .round _ _ _ _ => false
  | .cmp _ _ | .neg _ _ | .abs _ _ | .sign _ | .max _ _ | .min _ _ => false
  | .r4tod _ | .addi32 _ | .dtocy _ | .dtor8 _ | .dtor4 _ | .divmod1e9 _ | .mul10 _ => false

/-- The commands whose result the open parameters `F64_OPS` and `FROM_FLOAT_SCALING` touch (spec/00_scope.md R9). -/
def readsParams : Instr → Bool
  | .r8tod _ | .r4tod _ | .dtor8 _ | .dtor4 _ => true
  | .add _ _ | .sub _ _ | .mul _ _ | .div _ _ | .mod _ _ | .trunc _ _ | .floor _ _ | .round _ _ _ _ => false
  | .cmp _ _ | .neg _ _ | .abs _ _ | .sign _ | .max _ _ | .min _ _ => false
  | .cytod _ | .dtocy _ | .divmod1e9 _ | .mul10 _ | .addi32 _ => false

/-- The value commands (spec/41_arith.md R120): those that test validity. -/
def isValueCommand : Instr → Bool
  | .add _ _ | .sub _ _ | .mul _ _ | .div _ _ | .mod _ _ | .trunc _ _ | .floor _ _ | .round _ _ _ _ => true
  | .cmp _ _ | .sign _ | .max _ _ | .min _ _ | .dtocy _ | .dtor8 _ | .dtor4 _ => true
  | .neg _ _ | .abs _ _ | .cytod _ | .r8tod _ | .r4tod _ | .divmod1e9 _ | .mul10 _ | .addi32 _ => false

/-- The commands that can overflow (R190, R191). -/
def canOverflow : Instr → Bool
  | .add _ _ | .sub _ _ | .mul _ _ | .div _ _ | .dtocy _ | .r8tod _ | .r4tod _ | .mul10 _ | .addi32 _ => true
  | .mod _ _ | .trunc _ _ | .floor _ _ | .round _ _ _ _ | .cmp _ _ | .neg _ _ | .abs _ _ | .sign _ => false
  | .max _ _ | .min _ _ | .cytod _ | .dtor8 _ | .dtor4 _ | .divmod1e9 _ => false

/-- The commands that divide by a register (R190, R192). -/
def isDividing : Instr → Bool
  | .div _ _ | .mod _ _ => true
  | .add _ _ | .sub _ _ | .mul _ _ | .trunc _ _ | .floor _ _ | .round _ _ _ _ | .cmp _ _ | .neg _ _ => false
  | .abs _ _ | .sign _ | .max _ _ | .min _ _ | .cytod _ | .dtocy _ | .r8tod _ | .r4tod _ | .dtor8 _ => false
  | .dtor4 _ | .divmod1e9 _ | .mul10 _ | .addi32 _ => false

/-- Which fault a command can raise: the table of R190. No command raises IllegalCommand; only a word that is no command
does. -/
def canRaise (i : Instr) : Fault → Bool
  | .overflow => canOverflow i
  | .divideByZero => isDividing i
  | .invalidValue => isValueCommand i
  | .illegalCommand => false

/-- What `STATUS` and `ECMD` hold together: no fault and `ECMD` zero (R29), or the code of a fault and a word that can
have raised it (R190, R194). -/
def FaultRecordOk (s : State) : Prop :=
  (s.err = 0 ∧ s.ecmd = 0) ∨
  (s.err = Fault.code .illegalCommand ∧ decode s.ecmd = none) ∨
  ∃ f i, s.err = Fault.code f ∧ decode s.ecmd = some i ∧ canRaise i f = true

/-- The command ends in the fault `f`: fault entry with its own word, nothing else changed (R196, R204). -/
def Raises (i : Instr) (s : State) (f : Fault) : Prop := exec i s = .next (s.raiseFault f (encode i))

/-- Every decimal register holds a valid DecimalValue (spec/10_state.md R24). -/
def AllValid (s : State) : Prop := ∀ r, (s.getD r).valid = true

/-- The host event writes no data register: it is no write of the indices 0 to 15 and no reset. -/
def HostEvent.keepsDecimals : HostEvent → Bool
  | .read _ _ => true
  | .write offset _ _ => decide (64 ≤ offset)
  | .reset _ => false

/-- The host event has a step (spec/20_memory.md R52): a whole aligned 32-bit access in the window, or a reset. -/
def HostEvent.hasStep : HostEvent → Prop
  | .read offset size => size = 4 ∧ 4 ∣ offset ∧ offset < 128
  | .write offset size _ => size = 4 ∧ 4 ∣ offset ∧ offset < 128
  | .reset _ => True

/-- A mantissa of 96 bits and a scale of at most 28 (spec/10_state.md R23). -/
def Dec.InRange (d : Dec) : Prop := d.mant ≤ max96 ∧ d.scale ≤ scaleMax

/-- `val(D[r])` (spec/00_scope.md R13). -/
def DecReg.value (r : DecReg) : ℚ := r.dec.value

/-- `m` is the integer nearest to `q`, an exact half going to the even neighbour (spec/00_scope.md R11, R14). -/
def IsNearestEven (q : ℚ) (m : ℕ) : Prop := |q - m| ≤ 1 / 2 ∧ (|q - m| = 1 / 2 → m % 2 = 0)

/-- `m` is the integer nearest to `q ≥ 0`, an exact half going up (spec/00_scope.md R11). -/
def IsNearestAway (q : ℚ) (m : ℕ) : Prop := |q - m| ≤ 1 / 2 ∧ (|q - m| = 1 / 2 → q < m)

/-- The magnitude `q`, rounded half to even at scale 0, fits 96 bits: the opposite of the Overflow condition of ADD, SUB,
MUL, DIV (spec/60_exceptions.md R191). -/
def FitsRounded (q : ℚ) : Prop := ∃ m, IsNearestEven q m ∧ m ≤ max96

/-- `m` at scale `s` is the magnitude `q` rounded half to even at the largest scale, at most `cap`, at which it fits 96
bits (spec/41_arith.md R124, R127). -/
def LargestFit (q : ℚ) (cap m s : ℕ) : Prop :=
  s ≤ cap ∧ IsNearestEven (q * 10 ^ s) m ∧ m ≤ max96 ∧
    ∀ t, s < t → t ≤ cap → ∀ n, IsNearestEven (q * 10 ^ t) n → max96 < n

/-- `z` is the number of trailing decimal zeros of `m`, or `limit` if that is smaller (spec/41_arith.md R127: for `m = 0`
it is `limit`). -/
def RemovesZeros (m limit z : ℕ) : Prop := z ≤ limit ∧ 10 ^ z ∣ m ∧ (z = limit ∨ ¬10 ^ (z + 1) ∣ m)

/-- The magnitude of a binary pattern with exponent field `E` and fraction field `F` (spec/43_convert.md R155). -/
def FloatFormat.value (f : FloatFormat) (E F : ℕ) : ℚ :=
  if E = 0 then F * (2 : ℚ) ^ (1 - f.bias - f.fbits : ℤ)
  else (2 ^ f.fbits + F) * (2 : ℚ) ^ (E - f.bias - f.fbits : ℤ)

/-- The magnitude of a binary64 pattern (R155). -/
def value64 (x : DWord) : ℚ := binary64.value (exponent64 x) (fraction64 x)

/-- The magnitude of a binary32 pattern (R155). -/
def value32 (x : Word) : ℚ := binary32.value (exponent32 x) (fraction32 x)

/-- A binary64 pattern of sign 0 that is neither infinity nor not-a-number (R155). -/
def Finite64 (x : DWord) : Prop := x.getLsbD 63 = false ∧ exponent64 x < 2047

/-- A binary32 pattern of sign 0 that is neither infinity nor not-a-number (R155). -/
def Finite32 (x : Word) : Prop := x.getLsbD 31 = false ∧ exponent32 x < 255

/-- `x` is the binary64 value nearest to `q`, an exact tie going to the even fraction (R159). -/
def IsNearest64 (q : ℚ) (x : DWord) : Prop :=
  Finite64 x ∧ ∀ y, Finite64 y → y ≠ x →
    |q - value64 x| < |q - value64 y| ∨ (|q - value64 x| = |q - value64 y| ∧ fraction64 x % 2 = 0)

/-- `x` is the binary32 value nearest to `q`, an exact tie going to the even fraction (R160). -/
def IsNearest32 (q : ℚ) (x : Word) : Prop :=
  Finite32 x ∧ ∀ y, Finite32 y → y ≠ x →
    |q - value32 x| < |q - value32 y| ∨ (|q - value32 x| = |q - value32 y| ∧ fraction32 x % 2 = 0)

/-- `r` is the binary64 magnitude of a decimal register by the steps `lo`, `hi`, `m`, `r` of rule R157, each rounded to
nearest even (R159), with the entry of `POW10_F64` as spec/10_state.md R34 defines it. -/
def IsMagnitude64 (a : DecReg) (r : DWord) : Prop :=
  ∃ lo hi m p, IsNearest64 (a.mid.toNat * 2 ^ 32 + a.lo.toNat) lo ∧
    IsNearest64 (a.hi.toNat * 2 ^ 64) hi ∧ value64 hi = a.hi.toNat * 2 ^ 64 ∧
    IsNearest64 (value64 lo + value64 hi) m ∧ IsNearest64 (10 ^ a.scale) p ∧ IsNearest64 (value64 m / value64 p) r

/-- `r` is the binary64 magnitude of a decimal register by the steps `lo`, `hi`, `m`, `r` of rule R157 with the operations
`ops`. -/
def IsSteps64 (ops : F64Ops) (a : DecReg) (r : DWord) : Prop :=
  ∃ lo hi m, lo = ops.ofU64 (a.mid ++ a.lo) ∧ hi = ops.mul (ops.ofU32 a.hi) 0x43F0000000000000#64 ∧
    m = ops.add lo hi ∧ r = ops.div m (pow10F64 a.scale)

/-- `m` is a nearest integer to a number within a quarter of `q`, and at most `10^digits`: so near a half-way point, and
there alone, a replacement for `FROM_FLOAT_SCALING` may give the other neighbour (spec/93_implementation_defined.md U16;
R154). -/
def IsNearLastDigit (digits : ℕ) (q : ℚ) (m : ℕ) : Prop := |q - m| ≤ 3 / 4 ∧ m ≤ 10 ^ digits

/-- `d` is what `FloatToDec` gives for the magnitude `x` with `digits` significant digits and sign `sgn`, when the scaled
value `q` is rounded to an `m` with `rounds q m` (R154). -/
def IsFromFloat (rounds : ℚ → ℕ → Prop) (x : ℚ) (digits : ℕ) (sgn : Bool) (d : Dec) : Prop :=
  (x < (2 : ℚ) ^ (-95 : ℤ) → d = zeroDec) ∧
  ((2 : ℚ) ^ (-95 : ℤ) ≤ x →
    ∃ (e p : ℤ) (m : ℕ), (10 : ℚ) ^ e ≤ x ∧ x < (10 : ℚ) ^ (e + 1) ∧ p = min (digits - 1 - e) 28 ∧
      rounds (x * (10 : ℚ) ^ p) m ∧
      (m = 0 → d = zeroDec) ∧
      (m ≠ 0 → 0 ≤ p → ∃ z : ℕ, RemovesZeros m (min p.toNat (digits - 1)) z ∧
        d = ⟨m / 10 ^ z, p.toNat - z, sgn⟩) ∧
      (p < 0 → d = ⟨m * 10 ^ (-p).toNat, 0, sgn⟩))

end Sys2Proof.Machine
end

