-- ==== Sys2Proof/Certificates/Slice0/Obligations.lean ====
section
/-! DEFINITION. The statements for the provers. Each is about the machine of spec/, for every state and operand its
hypotheses admit; `Raises`, `LargestFit`, `IsNearestEven` and the other terms are in Sys2Proof/Safety.lean. -/

open Sys2Proof Sys2Proof.Machine Sys2Proof.Config

/-! ### Encoding -/

/-- Decoding the word of a well-formed command gives the command, every operand at every value (R71 to R73, R77). -/
def Obligations.DecodeOfEncodeGivesCommand : Prop :=
  ∀ i : Instr, i.wellFormed = true → decode (encode i) = some i

/-- A word that decodes is the word of the command it decodes to: no bit is dropped (R72, R79). -/
def Obligations.EncodeOfDecodeGivesWord : Prop :=
  ∀ (w : Word) (i : Instr), decode w = some i → encode i = w ∧ i.wellFormed = true

/-- At most one row of the opcode map matches a word, and the map has 23 rows of distinct opcodes (R73, R79). -/
def Obligations.AtMostOneRowMatches : Prop :=
  opcodeTable.length = 23 ∧ (opcodeTable.map OpcodeRow.opc).Nodup ∧
    ∀ (w : Word) (m n : ℕ) (r₁ r₂ : OpcodeRow), opcodeTable[m]? = some r₁ → opcodeTable[n]? = some r₂ →
      r₁.hits w = true → r₂.hits w = true → m = n

/-- A word is illegal exactly when, against every row of the map, its `OPC` differs, or `ZERO` is not 0, or `IMM5` or
`MODE` is set in a format other than RRI, or `RS` is set in format R (R72, R74). -/
def Obligations.IllegalWordsExactly : Prop :=
  ∀ w : Word, decode w = none ↔ ∀ row ∈ opcodeTable,
    (w.extractLsb' 0 8).toNat ≠ row.opc.toNat ∨ w.extractLsb' 18 14 ≠ 0 ∨
      (row.format ≠ .rri ∧ w.extractLsb' 12 6 ≠ 0) ∨ (row.format = .r ∧ w.extractLsb' 10 2 ≠ 0)

/-- Words written out from the spec's worked encodings and decoding examples (R77; spec/96_test_vectors_more.md section
11). -/
def Obligations.WorkedEncodingsDecode : Prop :=
  decode 0x00000910#32 = some (.add .d1 .d2) ∧ decode 0x00022422#32 = some (.round .d0 .d1 2 .away) ∧
    decode 0x00000344#32 = some (.dtor8 .d3) ∧ decode 0x0001F422#32 = some (.round .d0 .d1 31 .even) ∧
    decode 0x00000C14#32 = some (.mod .d0 .d3) ∧ decode 0x00000000#32 = none ∧ decode 0xFFFFFFFF#32 = none ∧
    decode 0x00040410#32 = none ∧ decode 0x00001410#32 = none ∧ decode 0x00000733#32 = none

/-! ### The step and the register window -/

/-- A step at an engine that is not faulted, with a write of the word of a command to `CMD` as the next host event, is
`exec` of that command at the state without that event (R56, R79). -/
def Obligations.StepRunsDecodedCommand : Prop :=
  ∀ (s : State) (w : Word) (i : Instr) (rest : List HostEvent), s.hostIn = hostWrite 18 w :: rest → s.err = 0 →
    decode w = some i → step s = exec i { s with hostIn := rest }

/-- A word that is no command, written to `CMD` of an engine that is not faulted, takes the IllegalCommand fault: code 4
in `ERR`, the word in `ECMD`, nothing else changed (R194, R196). -/
def Obligations.IllegalWordTakesFault : Prop :=
  ∀ (s : State) (w : Word) (rest : List HostEvent), s.hostIn = hostWrite 18 w :: rest → s.err = 0 →
    decode w = none → step s = .next { s with hostIn := rest, err := 4, ecmd := w }

/-- While `ERR` is not 0 a write to `CMD` executes nothing and changes nothing, and every read returns and every write of
`D0`..`D3` and `X` stores as it does when `ERR` is 0 (R197). -/
def Obligations.FaultedEngineDropsCommands : Prop :=
  ∀ (s : State) (w : Word) (rest : List HostEvent), s.err ≠ 0 →
    (s.hostIn = hostWrite 18 w :: rest → step s = .next { s with hostIn := rest }) ∧
    (∀ idx, idx < 32 → idx ≠ 19 → idx ≠ 20 → regRead idx s = regRead idx s.clearFault) ∧
    (∀ idx, idx < 18 → s.hostIn = hostWrite idx w :: rest →
      ∃ t u, step s = .next t ∧ step s.clearFault = .next u ∧ t.clearFault = u ∧ t.err = s.err ∧ t.ecmd = s.ecmd)

/-- Any write to `STATUS` clears `ERR` and `ECMD` whatever the data and changes nothing else, and the next write to `CMD`
then executes; when both are 0 already it changes nothing; reading `STATUS` or `ECMD` clears neither (R198). -/
def Obligations.StatusWriteClearsFault : Prop :=
  ∀ (s : State) (v : Word) (rest : List HostEvent), s.hostIn = hostWrite 19 v :: rest →
    step s = .next { s with hostIn := rest, err := 0, ecmd := 0 } ∧
    (s.err = 0 → s.ecmd = 0 → step s = .next { s with hostIn := rest }) ∧
    (∀ i rest', i.wellFormed = true → rest = hostCommand i :: rest' →
      step { s with hostIn := rest, err := 0, ecmd := 0 } = exec i { s with hostIn := rest', err := 0, ecmd := 0 }) ∧
    ∀ idx, idx = 19 ∨ idx = 20 → ∃ t, step { s with hostIn := hostRead idx :: rest } = .next t ∧ t.err = s.err ∧
      t.ecmd = s.ecmd

/-- A read has no side effect but its returned value, whether or not `ERR` is set; each index returns what the address map
says, 0 at `CMD` and at the reserved indices (R51, R54, R55). -/
def Obligations.HostReadReturnsRegister : Prop :=
  (∀ (s : State) (idx : ℕ) (rest : List HostEvent), idx < 32 → s.hostIn = hostRead idx :: rest →
    step s = .next { s with hostIn := rest, returned := s.returned ++ [regRead idx s] }) ∧
  (∀ (s : State) (r : DReg), regRead (4 * r.index) s = (s.getD r).lo ∧ regRead (4 * r.index + 1) s = (s.getD r).mid ∧
    regRead (4 * r.index + 2) s = (s.getD r).hi ∧ regRead (4 * r.index + 3) s = (s.getD r).flags) ∧
  (∀ s : State, (regRead 16 s).toNat = s.x.toNat % 2 ^ 32 ∧ (regRead 17 s).toNat = s.x.toNat / 2 ^ 32 ∧
    regRead 18 s = 0 ∧ (regRead 19 s).toNat = s.err.toNat ∧ regRead 20 s = s.ecmd) ∧
  ∀ (s : State) (idx : ℕ), 21 ≤ idx → idx < 32 → regRead idx s = 0

/-- A write of one of the indices 0 to 17 stores all 32 bits, which the next read of that index returns, and leaves every
other index and the rest of the state as it was; a write of `ECMD` (index 20) or of a reserved index does nothing (R56). -/
def Obligations.HostWriteStoresWord : Prop :=
  ∀ (s : State) (idx : ℕ) (v : Word) (rest : List HostEvent), s.hostIn = hostWrite idx v :: rest →
    (idx < 18 → ∃ t, step s = .next t ∧ regRead idx t = v ∧ (∀ j, j < 32 → j ≠ idx → regRead j t = regRead j s) ∧
      t.err = s.err ∧ t.ecmd = s.ecmd ∧ t.hostIn = rest ∧ t.returned = s.returned ∧ t.params = s.params) ∧
    (20 ≤ idx → idx < 32 → step s = .next { s with hostIn := rest })

/-- The reserved indices 21 to 31 read 0 and ignore writes, with no fault and no side effect (R54). -/
def Obligations.ReservedIndicesAreInert : Prop :=
  ∀ (s : State) (idx : ℕ) (v : Word) (rest : List HostEvent), 21 ≤ idx → idx < 32 →
    regRead idx s = 0 ∧ (s.hostIn = hostWrite idx v :: rest → step s = .next { s with hostIn := rest }) ∧
    (s.hostIn = hostRead idx :: rest →
      step s = .next { s with hostIn := rest, returned := s.returned ++ [0] })

/-- A host event is given no step exactly when it is an access that is not a whole aligned 32-bit word at an index 0 to
31 (R52). -/
def Obligations.OnlyWholeWordAccessesHaveStep : Prop :=
  ∀ (s : State) (e : HostEvent) (rest : List HostEvent), s.hostIn = e :: rest →
    (step s = .refused .notAWholeWindowWord ↔ ¬e.hasStep)

/-- The engine never halts: every command has a next state in every state, and so has every step whose host event is an
access the window has or a reset (R216). -/
def Obligations.EngineNeverHalts : Prop :=
  (∀ (i : Instr) (s : State), ∃ t, exec i s = .next t) ∧
    ∀ s : State, (∀ e rest, s.hostIn = e :: rest → e.hasStep) → ∃ t, step s = .next t

/-- A reset event clears `ERR` and `ECMD` (spec/70_reset_and_hazards.md section 1). The rest is the model's choice
(assumption logs 4 and 21): the data registers hold the values the event carries, which are any values, and the host's
events, the values returned and the parameter settings stay. -/
def Obligations.ResetEventClearsFault : Prop :=
  ∀ (s : State) (w : ResetWords) (rest : List HostEvent), s.hostIn = .reset w :: rest →
    ∃ t, step s = .next t ∧ t.err = 0 ∧ t.ecmd = 0 ∧ t.d0 = w.d0 ∧ t.d1 = w.d1 ∧ t.d2 = w.d2 ∧ t.d3 = w.d3 ∧
      t.x = w.x ∧ t.hostIn = rest ∧ t.returned = s.returned ∧ t.params = s.params

/-- After reset, whatever the data registers hold, `STATUS`, `ECMD` and `CMD` read 0 and the first command written to
`CMD` executes (R37, R210, R211). That `hostIn` is empty and that `State.reset` holds zeros are the model's choices
(assumption logs 1 and 3); nothing here rests on them. -/
def Obligations.ResetLeavesEngineReady : Prop :=
  ∀ (p : Params) (w : ResetWords), regRead 18 (State.afterReset p w) = 0 ∧ regRead 19 (State.afterReset p w) = 0 ∧
    regRead 20 (State.afterReset p w) = 0 ∧
    ∀ i rest, i.wellFormed = true → step { State.afterReset p w with hostIn := hostCommand i :: rest } =
      exec i { State.afterReset p w with hostIn := rest }

/-- The model's choice (assumption log 1): with no host event the engine is idle and a step changes nothing. -/
def Obligations.IdleEngineKeepsState : Prop := ∀ s : State, s.hostIn = [] → step s = .next s

/-! ### Invariants -/

/-- Every step keeps the agreement of `STATUS` and `ECMD`: no fault and `ECMD` zero, or a code 1 to 4 and the word of a
command that can raise it, or IllegalCommand and a word that is no command (R28, R29, R190). -/
def Obligations.StepKeepsFaultRecord : Prop :=
  ∀ s t : State, FaultRecordOk s → step s = .next t → FaultRecordOk t

/-- The agreement of `STATUS` and `ECMD` holds after every reset (R37). -/
def Obligations.ResetHasFaultRecord : Prop :=
  FaultRecordOk State.reset ∧ ∀ p w, FaultRecordOk (State.afterReset p w)

/-- A step whose host event writes no data register keeps every decimal register valid: no command makes an invalid
DecimalValue out of valid ones (R25, R193). -/
def Obligations.CommandsKeepRegistersValid : Prop :=
  ∀ s t : State, AllValid s → (∀ e rest, s.hostIn = e :: rest → e.keepsDecimals = true) → step s = .next t → AllValid t

/-- A decimal register written by a command that computes a DecimalValue is valid; after NEG, ABS, MAX, MIN and the digit
commands it is valid exactly when the register its `FLAGS` word comes from was (R25). -/
def Obligations.WrittenRegistersAreValid : Prop :=
  (∀ i s t r, (isValueCommand i = true ∨ readsD i = []) → exec i s = .next t → t.err = s.err → s.err = 0 →
    writesD i = some r → (t.getD r).valid = true) ∧
  (∀ rd rs s t, (exec (.neg rd rs) s = .next t ∨ exec (.abs rd rs) s = .next t) →
    (t.getD rd).valid = (s.getD rs).valid) ∧
  (∀ rd rs s t, (exec (.max rd rs) s = .next t ∨ exec (.min rd rs) s = .next t) →
    t.getD rd = s.getD rd ∨ t.getD rd = s.getD rs) ∧
  ∀ r s t, (exec (.divmod1e9 r) s = .next t ∨ exec (.mul10 r) s = .next t ∨ exec (.addi32 r) s = .next t) →
    (t.getD r).flags = (s.getD r).flags ∧ (t.getD r).valid = (s.getD r).valid

/-! ### Faults and frames -/

/-- A command either takes one fault that the table lists for it, with `ERR` and `ECMD` written and nothing else, or leaves
`STATUS` and `ECMD` as they were (R190, R196, R204). -/
def Obligations.FaultsArePrecise : Prop :=
  ∀ (i : Instr) (s : State), (∃ f, canRaise i f = true ∧ Raises i s f) ∨
    ∃ t, exec i s = .next t ∧ t.err = s.err ∧ t.ecmd = s.ecmd

/-- DIV and MOD by a register of mantissa zero take DivideByZero, whatever the sign, scale or validity of the divisor and
whatever the dividend (R192). -/
def Obligations.ZeroDivisorTakesFault : Prop :=
  ∀ (rd rs : DReg) (s : State), (s.getD rs).hi = 0 → (s.getD rs).mid = 0 → (s.getD rs).lo = 0 →
    Raises (.div rd rs) s .divideByZero ∧ Raises (.mod rd rs) s .divideByZero

/-- A value command that reads a register which is not a valid DecimalValue takes InvalidValue, unless it is DIV or MOD and
the divisor's mantissa is zero (R193, R195). -/
def Obligations.InvalidOperandTakesFault : Prop :=
  ∀ (i : Instr) (s : State) (r : DReg), isValueCommand i = true → r ∈ readsD i → (s.getD r).valid = false →
    (∀ rd rs, i = .div rd rs ∨ i = .mod rd rs → (s.getD rs).mant ≠ 0) → Raises i s .invalidValue

/-- What a command leaves unchanged when it has a next state: every decimal register but its destination, `X` unless the
command writes it, the host's events, returned values and parameter settings (R39; spec/10_state.md R27). No step at all
changes the parameter settings (spec/00_scope.md R9; that they are a field of the state is the model's choice, assumption
log 21). -/
def Obligations.CommandFrame : Prop :=
  (∀ (i : Instr) (s t : State), exec i s = .next t →
    (∀ r, writesD i ≠ some r → t.getD r = s.getD r) ∧ (writesX i = false → t.x = s.x) ∧
    t.hostIn = s.hostIn ∧ t.returned = s.returned ∧ t.params = s.params) ∧
  ∀ s t : State, step s = .next t → t.params = s.params

/-- The result of a command depends only on the registers it reads: two states that agree on them take the same fault, or
both succeed and write the same values; R4TOD and ADDI32 do not look at `XHI`, and only the four floating-point
conversions look at the machine's parameter settings (R39, R79). -/
def Obligations.ResultDependsOnOperandsOnly : Prop :=
  ∀ (i : Instr) (s u : State), (∀ r ∈ readsD i, s.getD r = u.getD r) →
    (readsXLO i = true → s.xlo = u.xlo) → (readsXHI i = true → s.xhi = u.xhi) →
    (readsParams i = true → s.params = u.params) →
    (∃ f, Raises i s f ∧ Raises i u f) ∨
    ∃ t v, exec i s = .next t ∧ exec i u = .next v ∧ t.err = s.err ∧ v.err = u.err ∧
      (∀ r, writesD i = some r → t.getD r = v.getD r) ∧ (writesX i = true → t.x = v.x)

/-! ### Results, command by command -/

/-- ADD: the exact sum at the larger scale when it fits 96 bits, otherwise rounded half to even to the largest scale at
which it fits; Overflow when it does not fit at scale 0; an exact-cancellation zero has sign 0 (R121, R124). -/
def Obligations.AddResult : Prop :=
  ∀ (rd rs : DReg) (s : State), let a := s.getD rd; let b := s.getD rs; let q := a.value + b.value
    encode (.add rd rs) = encodeRR 0x10 rd rs ∧
    ((a.valid && b.valid) = false → Raises (.add rd rs) s .invalidValue) ∧
    ((a.valid && b.valid) = true → ¬FitsRounded |q| → Raises (.add rd rs) s .overflow) ∧
    ((a.valid && b.valid) = true → FitsRounded |q| → ∃ m sc, LargestFit |q| (max a.scale b.scale) m sc ∧
      exec (.add rd rs) s = .next (s.setD rd (pack ⟨m, sc, if q = 0 then a.sign && b.sign else decide (q < 0)⟩)))

/-- SUB: as ADD with the sign of the second operand inverted (R122, R124). -/
def Obligations.SubResult : Prop :=
  ∀ (rd rs : DReg) (s : State), let a := s.getD rd; let b := s.getD rs; let q := a.value - b.value
    encode (.sub rd rs) = encodeRR 0x11 rd rs ∧
    ((a.valid && b.valid) = false → Raises (.sub rd rs) s .invalidValue) ∧
    ((a.valid && b.valid) = true → ¬FitsRounded |q| → Raises (.sub rd rs) s .overflow) ∧
    ((a.valid && b.valid) = true → FitsRounded |q| → ∃ m sc, LargestFit |q| (max a.scale b.scale) m sc ∧
      exec (.sub rd rs) s = .next (s.setD rd (pack ⟨m, sc, if q = 0 then a.sign && !b.sign else decide (q < 0)⟩)))

/-- MUL: the exact product at scale `sa + sb`, at most 28, when it fits 96 bits, otherwise rounded half to even to the
largest scale at which it fits; sign by XOR, also for a zero (R125). -/
def Obligations.MulResult : Prop :=
  ∀ (rd rs : DReg) (s : State), let a := s.getD rd; let b := s.getD rs; let q := a.value * b.value
    encode (.mul rd rs) = encodeRR 0x12 rd rs ∧
    ((a.valid && b.valid) = false → Raises (.mul rd rs) s .invalidValue) ∧
    ((a.valid && b.valid) = true → ¬FitsRounded |q| → Raises (.mul rd rs) s .overflow) ∧
    ((a.valid && b.valid) = true → FitsRounded |q| → ∃ m sc, LargestFit |q| (min 28 (a.scale + b.scale)) m sc ∧
      exec (.mul rd rs) s = .next (s.setD rd (pack ⟨m, sc, a.sign ^^ b.sign⟩)))

/-- DIV: the quotient rounded half to even at the largest scale, at most 28, at which it fits 96 bits, with its trailing
zeros removed while the scale stays non-negative; DivideByZero before InvalidValue before Overflow (R127). -/
def Obligations.DivResult : Prop :=
  ∀ (rd rs : DReg) (s : State), let a := s.getD rd; let b := s.getD rs; let q := a.value / b.value
    encode (.div rd rs) = encodeRR 0x13 rd rs ∧
    (b.mant = 0 → Raises (.div rd rs) s .divideByZero) ∧
    (b.mant ≠ 0 → (a.valid && b.valid) = false → Raises (.div rd rs) s .invalidValue) ∧
    (b.mant ≠ 0 → (a.valid && b.valid) = true → ¬FitsRounded |q| → Raises (.div rd rs) s .overflow) ∧
    (b.mant ≠ 0 → (a.valid && b.valid) = true → FitsRounded |q| →
      ∃ m sc z, LargestFit |q| 28 m sc ∧ RemovesZeros m sc z ∧
        exec (.div rd rs) s = .next (s.setD rd (pack ⟨m / 10 ^ z, sc - z, a.sign ^^ b.sign⟩)))

/-- MOD: the exact remainder of the truncated quotient, at the larger scale, with the dividend's sign; the dividend
unchanged, all four words, when its magnitude is the smaller; never Overflow (R130). -/
def Obligations.ModResult : Prop :=
  ∀ (rd rs : DReg) (s : State), let a := s.getD rd; let b := s.getD rs; let sc := max a.scale b.scale
    encode (.mod rd rs) = encodeRR 0x14 rd rs ∧
    (b.mant = 0 → Raises (.mod rd rs) s .divideByZero) ∧
    (b.mant ≠ 0 → (a.valid && b.valid) = false → Raises (.mod rd rs) s .invalidValue) ∧
    (b.mant ≠ 0 → (a.valid && b.valid) = true → |a.value| < |b.value| → exec (.mod rd rs) s = .next s) ∧
    (b.mant ≠ 0 → (a.valid && b.valid) = true → |b.value| ≤ |a.value| →
      ∃ m, m ≤ max96 ∧ (m : ℚ) / 10 ^ sc = |a.value| - (⌊|a.value| / |b.value|⌋ : ℚ) * |b.value| ∧
        exec (.mod rd rs) s = .next (s.setD rd (pack ⟨m, sc, a.sign⟩)))

/-- TRUNC: the integer part of the magnitude at scale 0, sign kept; FLOOR: the magnitude of the floor of the value at scale
0, sign kept; neither overflows (R140, R141). -/
def Obligations.TruncFloorResult : Prop :=
  ∀ (rd rs : DReg) (s : State), let b := s.getD rs
    encode (.trunc rd rs) = encodeRR 0x20 rd rs ∧ encode (.floor rd rs) = encodeRR 0x21 rd rs ∧
    (b.valid = false → Raises (.trunc rd rs) s .invalidValue ∧ Raises (.floor rd rs) s .invalidValue) ∧
    (b.valid = true →
      exec (.trunc rd rs) s = .next (s.setD rd (pack ⟨⌊|b.value|⌋₊, 0, b.sign⟩)) ∧
      exec (.floor rd rs) s = .next (s.setD rd (pack ⟨⌊b.value⌋.natAbs, 0, b.sign⟩)) ∧
      ⌊|b.value|⌋₊ ≤ max96 ∧ ⌊b.value⌋.natAbs ≤ max96)

/-- ROUND: the source copied, all four words, when its scale is at most `decimals`; otherwise its magnitude rounded to
`decimals` places, half to even or half away from zero, sign kept (R142). -/
def Obligations.RoundResult : Prop :=
  ∀ (rd rs : DReg) (n : ℕ) (mode : RoundMode) (s : State), n < 32 → let b := s.getD rs
    encode (.round rd rs n mode) =
      BitVec.ofNat 32 (0x22 + rd.index * 2 ^ 8 + rs.index * 2 ^ 10 + n * 2 ^ 12 + mode.bit * 2 ^ 17) ∧
    (b.valid = false → Raises (.round rd rs n mode) s .invalidValue) ∧
    (b.valid = true → b.scale ≤ n → exec (.round rd rs n mode) s = .next (s.setD rd b)) ∧
    (b.valid = true → n < b.scale → ∃ m, m ≤ max96 ∧
      (mode = .even → IsNearestEven (|b.value| * 10 ^ n) m) ∧ (mode = .away → IsNearestAway (|b.value| * 10 ^ n) m) ∧
      exec (.round rd rs n mode) s = .next (s.setD rd (pack ⟨m, n, b.sign⟩)))

/-- CMP: `X` becomes -1, 0 or +1, sign-extended, the sign of the difference of the two values; no decimal register is
written (R170, R171). -/
def Obligations.CmpResult : Prop :=
  ∀ (rd rs : DReg) (s : State), let a := s.getD rd; let b := s.getD rs
    encode (.cmp rd rs) = encodeRR 0x30 rd rs ∧
    ((a.valid && b.valid) = false → Raises (.cmp rd rs) s .invalidValue) ∧
    ((a.valid && b.valid) = true →
      exec (.cmp rd rs) s = .next { s with x := BitVec.ofInt 64 (SignType.sign (a.value - b.value) : ℤ) })

/-- SIGN: `X` becomes 0 for a zero mantissa whatever its sign bit, else -1 or +1 by the sign, sign-extended (R174). -/
def Obligations.SignResult : Prop :=
  ∀ (r : DReg) (s : State), let a := s.getD r
    encode (.sign r) = encodeR 0x33 r ∧
    (a.valid = false → Raises (.sign r) s .invalidValue) ∧
    (a.valid = true → (a.hi = 0 ∧ a.mid = 0 ∧ a.lo = 0) → exec (.sign r) s = .next { s with x := 0 }) ∧
    (a.valid = true → ¬(a.hi = 0 ∧ a.mid = 0 ∧ a.lo = 0) → a.flags.getLsbD 31 = true →
      exec (.sign r) s = .next { s with x := 0xFFFFFFFFFFFFFFFF#64 }) ∧
    (a.valid = true → ¬(a.hi = 0 ∧ a.mid = 0 ∧ a.lo = 0) → a.flags.getLsbD 31 = false →
      exec (.sign r) s = .next { s with x := 1 })

/-- NEG and ABS copy the source bit for bit, whether it is valid or not, but for bit 31 of `FLAGS`, which NEG inverts and
ABS clears; NEG negates the value and ABS takes its magnitude (R172, R173). -/
def Obligations.NegAbsResult : Prop :=
  ∀ (rd rs : DReg) (s : State), let b := s.getD rs
    encode (.neg rd rs) = encodeRR 0x31 rd rs ∧ encode (.abs rd rs) = encodeRR 0x32 rd rs ∧
    (∃ f, exec (.neg rd rs) s = .next (s.setD rd ⟨b.lo, b.mid, b.hi, f⟩) ∧ f.getLsbD 31 = !b.flags.getLsbD 31 ∧
      (∀ k, k < 31 → f.getLsbD k = b.flags.getLsbD k) ∧ DecReg.value ⟨b.lo, b.mid, b.hi, f⟩ = -b.value) ∧
    ∃ f, exec (.abs rd rs) s = .next (s.setD rd ⟨b.lo, b.mid, b.hi, f⟩) ∧ f.getLsbD 31 = false ∧
      (∀ k, k < 31 → f.getLsbD k = b.flags.getLsbD k) ∧ DecReg.value ⟨b.lo, b.mid, b.hi, f⟩ = |b.value|

/-- MAX and MIN: the source is copied bit for bit when its value is the greater, or the smaller; otherwise, on equal values
too, the destination keeps its own words (R175, R176). -/
def Obligations.MaxMinResult : Prop :=
  ∀ (rd rs : DReg) (s : State), let a := s.getD rd; let b := s.getD rs
    encode (.max rd rs) = encodeRR 0x34 rd rs ∧ encode (.min rd rs) = encodeRR 0x35 rd rs ∧
    ((a.valid && b.valid) = false → Raises (.max rd rs) s .invalidValue ∧ Raises (.min rd rs) s .invalidValue) ∧
    ((a.valid && b.valid) = true →
      exec (.max rd rs) s = .next (if a.value < b.value then s.setD rd b else s) ∧
      exec (.min rd rs) s = .next (if b.value < a.value then s.setD rd b else s))

/-- CYTOD: the signed 64-bit integer in `X` at scale 4, its magnitude as mantissa, no trailing zero removed; every pattern
converts (R150). -/
def Obligations.CytodResult : Prop :=
  ∀ (r : DReg) (s : State), encode (.cytod r) = encodeR 0x40 r ∧
    ∃ v, exec (.cytod r) s = .next (s.setD r v) ∧ v.mant = s.x.toInt.natAbs ∧ v.scale = 4 ∧
      v.sign = decide (s.x.toInt < 0) ∧ v.valid = true ∧ v.value = s.x.toInt / 10 ^ 4

/-- DTOCY: the value times 10^4, its magnitude rounded half to even, as a signed 64-bit integer in `X`; Overflow when it is
outside -2^63 .. 2^63 - 1 (R151). -/
def Obligations.DtocyResult : Prop :=
  ∀ (r : DReg) (s : State), let a := s.getD r
    encode (.dtocy r) = encodeR 0x41 r ∧
    (a.valid = false → Raises (.dtocy r) s .invalidValue) ∧
    (a.valid = true → ∃ M : ℕ, IsNearestEven (|a.value| * 10 ^ 4) M ∧ let v : ℤ := if a.sign then -M else M
      ((-2 ^ 63 ≤ v ∧ v < 2 ^ 63) → exec (.dtocy r) s = .next { s with x := BitVec.ofInt 64 v }) ∧
      (¬(-2 ^ 63 ≤ v ∧ v < 2 ^ 63) → Raises (.dtocy r) s .overflow))

/-- R8TOD and R4TOD: infinity, not-a-number and magnitudes of at least 2^96 take Overflow. Every other pattern gives,
with the default `FROM_FLOAT_SCALING`, the decimal of 15 or 7 significant digits that `FloatToDec` describes; with any
setting a decimal that differs from it in the last kept digit at most, near a half-way point alone, and no Overflow (R152,
R153, R154, R191; spec/93_implementation_defined.md U16; the settings are assumption logs 6 and 21). -/
def Obligations.FromFloatResult : Prop :=
  ∀ (r : DReg) (s : State), encode (.r8tod r) = encodeR 0x42 r ∧ encode (.r4tod r) = encodeR 0x43 r ∧
    ((exponent64 s.x = 2047 ∨ 2 ^ 96 ≤ value64 s.x) → Raises (.r8tod r) s .overflow) ∧
    (¬(exponent64 s.x = 2047 ∨ 2 ^ 96 ≤ value64 s.x) →
      (s.params.scaling = .exactRational → ∃ d, IsFromFloat IsNearestEven (value64 s.x) 15 (s.x.getLsbD 63) d ∧
        exec (.r8tod r) s = .next (s.setD r (pack d))) ∧
      ∃ d, IsFromFloat (IsNearLastDigit 15) (value64 s.x) 15 (s.x.getLsbD 63) d ∧ d.InRange ∧
        exec (.r8tod r) s = .next (s.setD r (pack d))) ∧
    ((exponent32 s.xlo = 255 ∨ 2 ^ 96 ≤ value32 s.xlo) → Raises (.r4tod r) s .overflow) ∧
    (¬(exponent32 s.xlo = 255 ∨ 2 ^ 96 ≤ value32 s.xlo) →
      (s.params.scaling = .exactRational → ∃ d, IsFromFloat IsNearestEven (value32 s.xlo) 7 (s.xlo.getLsbD 31) d ∧
        exec (.r4tod r) s = .next (s.setD r (pack d))) ∧
      ∃ d, IsFromFloat (IsNearLastDigit 7) (value32 s.xlo) 7 (s.xlo.getLsbD 31) d ∧ d.InRange ∧
        exec (.r4tod r) s = .next (s.setD r (pack d)))

/-- The rejections of the from-float conversions as tests on the exponent field alone: Overflow from 1119 or 223 on, the
all-zero record up to 927 or 31, and no Overflow between, whatever the parameters (R156, R191; that a replacement for
`FROM_FLOAT_SCALING` gives no Overflow there rests on how it is held to U16, assumption log 6). -/
def Obligations.FloatRejectionThresholds : Prop :=
  ∀ (r : DReg) (s : State),
    (1119 ≤ exponent64 s.x → Raises (.r8tod r) s .overflow) ∧
    (exponent64 s.x ≤ 927 → exec (.r8tod r) s = .next (s.setD r ⟨0, 0, 0, 0⟩)) ∧
    (exponent64 s.x ≤ 1118 → ∃ d, d.InRange ∧ exec (.r8tod r) s = .next (s.setD r (pack d))) ∧
    (223 ≤ exponent32 s.xlo → Raises (.r4tod r) s .overflow) ∧
    (exponent32 s.xlo ≤ 31 → exec (.r4tod r) s = .next (s.setD r ⟨0, 0, 0, 0⟩)) ∧
    (exponent32 s.xlo ≤ 222 → ∃ d, d.InRange ∧ exec (.r4tod r) s = .next (s.setD r (pack d)))

/-- DTOR8: the magnitude by the steps `lo`, `hi`, `m`, `r` of the machine's `F64_OPS`, with the sign bit set from the
register's sign, also for a zero; with the default `F64_OPS` each step is correctly rounded (R157, R159; the settings are
assumption logs 5 and 21). -/
def Obligations.Dtor8Result : Prop :=
  ∀ (r : DReg) (s : State), let a := s.getD r
    encode (.dtor8 r) = encodeR 0x44 r ∧
    (a.valid = false → Raises (.dtor8 r) s .invalidValue) ∧
    (a.valid = true → ∃ p, IsSteps64 (f64Of s.params.f64) a p ∧
      (s.params.f64 = .nearestEven → IsMagnitude64 a p) ∧
      exec (.dtor8 r) s = .next { s with x := if a.sign then p ||| 0x8000000000000000#64 else p })

/-- DTOR4: the binary64 magnitude of DTOR8 narrowed to binary32 by the machine's `F64_OPS`, in `XLO` with the sign bit;
`XHI` becomes 0; with the default `F64_OPS` the narrowing is to the nearest, ties to even (R158, R160; the settings are
assumption logs 5 and 21). -/
def Obligations.Dtor4Result : Prop :=
  ∀ (r : DReg) (s : State), let a := s.getD r
    encode (.dtor4 r) = encodeR 0x45 r ∧
    (a.valid = false → Raises (.dtor4 r) s .invalidValue) ∧
    (a.valid = true → ∃ p n, IsSteps64 (f64Of s.params.f64) a p ∧ n = (f64Of s.params.f64).narrow p ∧
      (s.params.f64 = .nearestEven → IsMagnitude64 a p ∧ IsNearest32 (value64 p) n) ∧
      exec (.dtor4 r) s = .next { s with x := join64 0 (if a.sign then n ||| 0x80000000#32 else n) })

/-- DIVMOD1E9: quotient of the mantissa by 10^9 in the mantissa words, remainder in `X`, `FLAGS` kept, no validity test
(R177). -/
def Obligations.Divmod1e9Result : Prop :=
  ∀ (r : DReg) (s : State), encode (.divmod1e9 r) = encodeR 0x50 r ∧
    ∃ v x, exec (.divmod1e9 r) s = .next { s.setD r v with x := x } ∧ v.flags = (s.getD r).flags ∧
      v.mant * 10 ^ 9 + x.toNat = (s.getD r).mant ∧ x.toNat < 10 ^ 9

/-- MUL10: ten times the mantissa, `FLAGS` kept, no validity test; Overflow with nothing written when the mantissa is above
`POWER_OVFL[1]` = 7922816251426433759354395033 (R178). -/
def Obligations.Mul10Result : Prop :=
  ∀ (r : DReg) (s : State), encode (.mul10 r) = encodeR 0x51 r ∧
    (7922816251426433759354395033 < (s.getD r).mant → Raises (.mul10 r) s .overflow) ∧
    ((s.getD r).mant ≤ 7922816251426433759354395033 → ∃ v, exec (.mul10 r) s = .next (s.setD r v) ∧
      v.flags = (s.getD r).flags ∧ v.mant = 10 * (s.getD r).mant)

/-- ADDI32: the mantissa plus the unsigned `XLO`, `FLAGS` kept, no validity test; Overflow with nothing written when the sum
leaves 96 bits (R179). -/
def Obligations.Addi32Result : Prop :=
  ∀ (r : DReg) (s : State), encode (.addi32 r) = encodeR 0x52 r ∧
    (max96 < (s.getD r).mant + s.x.toNat % 2 ^ 32 → Raises (.addi32 r) s .overflow) ∧
    ((s.getD r).mant + s.x.toNat % 2 ^ 32 ≤ max96 → ∃ v, exec (.addi32 r) s = .next (s.setD r v) ∧
      v.flags = (s.getD r).flags ∧ v.mant = (s.getD r).mant + s.x.toNat % 2 ^ 32)

/-! ### The document's mechanisms equal the closed forms -/

/-- `scaleResult` equals `Compact` for every wide integer of 192 bits and scale of at most 56, Overflow included (R100,
R101). -/
def Obligations.ScaleResultEqualsCompact : Prop :=
  ∀ N sc : ℕ, N < 2 ^ 192 → sc ≤ 56 → scaleResult N sc = compact N sc

/-- The chunked division gives the quotient by `10^k`, and its last chunk and sticky bit decide the rounding as the whole
discarded part does (R104). -/
def Obligations.ChunkedDivisionDecidesRounding : Prop :=
  ∀ N k : ℕ, 1 ≤ k → let c := divPow10 N k
    c.q = N / 10 ^ k ∧ 1 ≤ c.pw ∧ c.pw ≤ 9 ∧
    (10 ^ k < 2 * (N % 10 ^ k) ↔ 10 ^ c.pw < 2 * c.rem ∨ (2 * c.rem = 10 ^ c.pw ∧ c.sticky = true)) ∧
    (2 * (N % 10 ^ k) = 10 ^ k ↔ 2 * c.rem = 10 ^ c.pw ∧ c.sticky = false) ∧
    (N % 10 ^ k = 0 ↔ c.rem = 0 ∧ c.sticky = false)

/-- The document's `round` and `truncate` by chunks equal the single roundings of the rules (R140, R143). -/
def Obligations.ChunkedRoundEqualsClosedForm : Prop :=
  (∀ B k : ℕ, 1 ≤ k → roundChunked B k .even = rhe B (10 ^ k) ∧ roundChunked B k .away = rha B (10 ^ k)) ∧
    ∀ b : Dec, truncateChunked b = truncate b

/-- `decAddSub` equals `AddSub` for all operands of a 96-bit mantissa and a scale of at most 28, Overflow included (R123,
R124). -/
def Obligations.DecAddSubEqualsClosedForm : Prop :=
  ∀ (a b : Dec) (sub : Bool), a.InRange → b.InRange → decAddSub a b sub = addSub a b sub

/-- Every path of `varDecMul` computes `Compact(A * B, sa + sb)` (R125, R126). -/
def Obligations.VarDecMulEqualsClosedForm : Prop :=
  ∀ a b : Dec, a.InRange → b.InRange → varDecMul a b = multiply a b

/-- The digit extraction loop of `varDecDiv` equals the closed form of the quotient for every input with a non-zero
divisor, Overflow included (R127, R128). -/
def Obligations.VarDecDivEqualsClosedForm : Prop :=
  ∀ a b : Dec, a.InRange → b.InRange → b.mant ≠ 0 → varDecDiv a b = divide a b

/-- The scale normalisation removes `min(tz10(q), scale)` digits, all of `scale` when `q = 0`, for a scale of at most 28
(R129). -/
def Obligations.NormaliseRemovesTrailingZeros : Prop :=
  ∀ q sc : ℕ, q ≤ max96 → sc ≤ 28 →
    ∃ z, RemovesZeros q sc z ∧ normalise q sc = (q / 10 ^ z, sc - z)

/-! ### The word-level primitives -/

/-- `mul32`, `divmod64by32`, `mul64x64to128` and `div96by32` are exact (R90, R91, R92, R95). -/
def Obligations.MultiplyDividePrimitivesExact : Prop :=
  (∀ a b : Word, (mul32 a b).toNat = a.toNat * b.toNat) ∧
  (∀ (n : DWord) (d : Word), d ≠ 0 → (hi32 n < d ↔ n.toNat / d.toNat < 2 ^ 32) ∧
    (n.toNat / d.toNat < 2 ^ 32 → ∃ q r, divmod64by32 n d = some (q, r) ∧ q.toNat = n.toNat / d.toNat ∧
      r.toNat = n.toNat % d.toNat)) ∧
  (∀ a b : DWord, (mul64x64to128 a b).1.toNat * 2 ^ 64 + (mul64x64to128 a b).2.toNat = a.toNat * b.toNat) ∧
  ∀ (num : List Word) (d : Word), d ≠ 0 → ∃ qs r, div96by32 num d = some (qs, r) ∧ qs.length = num.length ∧
    wideValue qs = wideValue num / d.toNat ∧ r.toNat = wideValue num % d.toNat

/-- Word-wise addition, subtraction and negation, `increaseScale` and `add32to96` are exact modulo the array, and their
carries tell when the array is left; `increaseScale` by `10^k` overflows 96 bits exactly above `POWER_OVFL[k]` (R35, R98,
R99, R107). -/
def Obligations.CarryPrimitivesExact : Prop :=
  (∀ as bs : List Word, as.length = bs.length →
    wideValue (addWords as bs false).1 + 2 ^ (32 * as.length) * (addWords as bs false).2.toNat =
      wideValue as + wideValue bs ∧
    wideValue (subWords as bs false).1 + wideValue bs =
      wideValue as + 2 ^ (32 * as.length) * (subWords as bs false).2.toNat) ∧
  (∀ as : List Word, wideValue as ≠ 0 → wideValue (negWords as) + wideValue as = 2 ^ (32 * as.length)) ∧
  (∀ (as : List Word) (p : Word), wideValue (increaseScale as p).1 + 2 ^ (32 * as.length) * (increaseScale as p).2.toNat =
    wideValue as * p.toNat) ∧
  (∀ (as : List Word) (k : ℕ), as.length = 3 → 1 ≤ k → k ≤ 9 →
    ((increaseScale as (pow10Word k)).2 = 0 ↔ wideValue as ≤ powerOvfl k)) ∧
  ∀ (as : List Word) (v : Word), wideValue (add32to96 as v).1 = (wideValue as + v.toNat) % 2 ^ (32 * as.length) ∧
    ((add32to96 as v).2 = true ↔ wideValue as + v.toNat < 2 ^ (32 * as.length))

/-- The wide division steps: for a divisor with its top word not zero and the stated precondition the result is exact,
the guessed quotient word of a normalised divisor corrected at most twice (that a divisor whose top bit is clear has the
exact result too is the model's choice, assumption log 13); the divider's composite division is exact for every dividend it is given (R96,
R97, R106). -/
def Obligations.WideDivisionExact : Prop :=
  (∀ num den : ℕ, 2 ^ 32 ≤ den → den < 2 ^ 64 → num / 2 ^ 32 < den → div96by64 num den = some (num / den, num % den)) ∧
  (∀ num den : ℕ, 2 ^ 64 ≤ den → den < 2 ^ 96 → num / 2 ^ 32 < den → div128by96 num den = some (num / den, num % den)) ∧
  ∀ n b : ℕ, 0 < b → b < 2 ^ 96 → (n < 2 ^ 96 ∨ n < b * 10 ^ 9) → divWide n b = some (n / b, n % b)

/-- Rounding to binary64 and to binary32 gives the nearest value of the format, ties to the even fraction: the
default `F64_OPS` (R159, R160; assumption log 5). That it does so for subnormal results too, which R159 leaves
undefined, is the model's choice (assumption log 16). -/
def Obligations.FloatRoundingIsNearestEven : Prop :=
  (∀ num den : ℕ, 0 < den → (num : ℚ) / den ≤ 2 ^ 1000 → IsNearest64 (num / den) (nearest64 num den)) ∧
    ∀ num den : ℕ, 0 < den → (num : ℚ) / den ≤ 2 ^ 100 →
      IsNearest32 (num / den) (BitVec.ofNat 32 (binary32.nearest num den))

/-! ### Laws -/

/-- `AddSub` and the product are commutative bit for bit, and subtraction is addition with the second sign inverted (R124,
R125). -/
def Obligations.AddMulLaws : Prop :=
  ∀ a b : Dec, addSub a b false = addSub b a false ∧ multiply a b = multiply b a ∧
    addSub a b true = addSub a ⟨b.mant, b.scale, !b.neg⟩ false

/-- `truncate(x) + (x - truncate(x))` is `x`, bit for bit when the mantissa is not zero and with sign 0 when it is (R140). -/
def Obligations.TruncateReconstructs : Prop :=
  ∀ x : Dec, x.InRange → ∃ d, addSub x (truncate x) true = some d ∧
    addSub (truncate x) d false = some ⟨x.mant, x.scale, x.neg && decide (x.mant ≠ 0)⟩

/-- DTOCY of the register CYTOD wrote gives back the `X` that CYTOD read, for all 2^64 values and whatever `X` holds in
between (spec/96_test_vectors_more.md T-CHN-4). -/
def Obligations.CurrencyRoundTrip : Prop :=
  ∀ (r : DReg) (s : State), ∃ t, exec (.cytod r) s = .next t ∧
    ∀ x' : DWord, exec (.dtocy r) { t with x := x' } = .next { t with x := s.x }
end

