-- ==== Sys2Proof/Laws/Convert.lean ====
section
/-! SUPPORT. What the parameters of the conversions can do, said once: the power table, a replacement for
`FROM_FLOAT_SCALING`, a replacement for `F64_OPS`. -/

namespace Sys2Proof.Laws

open Sys2Proof.Machine Sys2Proof.Config

/-- An entry of the power table (spec/10_state.md R34). -/
theorem pow10F64_of_le {k : Nat} (h : k ≤ f64TableMax) : pow10F64 k = nearest64 (10 ^ k) 1 := if_pos h

/-- The settings of a machine whose parameters are the defaults (spec/00_scope.md R9). -/
@[simp] theorem f64Of_nearestEven : f64Of .nearestEven = f64Default := rfl

@[simp] theorem scalingOf_exactRational : scalingOf .exactRational = scalingDefault := rfl

/-- A replaced rounding is the default's or that of the binary64 method (spec/93_implementation_defined.md U16). -/
theorem replacedRounding_cases (exact crossed n : Nat) :
    replacedRounding exact crossed n = exact ∨ replacedRounding exact crossed n = crossed := by
  unfold replacedRounding
  split <;> simp

/-- Where no half-way point is crossed a replacement gives the default's integer. -/
@[simp] theorem replacedRounding_self (exact n : Nat) : replacedRounding exact exact n = exact := by
  simp [replacedRounding]

/-- Any setting scales up by the default or by the binary64 method. -/
theorem scalingOf_up_cases (c : ScalingSetting) (num den p : Nat) :
    (scalingOf c).up num den p = scalingDefault.up num den p ∨
      (scalingOf c).up num den p = scalingBinary64.up num den p := by
  cases c with
  | exactRational => exact .inl rfl
  | other id => exact replacedRounding_cases _ _ _

/-- Any setting scales down by the default or by the binary64 method. -/
theorem scalingOf_down_cases (c : ScalingSetting) (num den p : Nat) :
    (scalingOf c).down num den p = scalingDefault.down num den p ∨
      (scalingOf c).down num den p = scalingBinary64.down num den p := by
  cases c with
  | exactRational => exact .inl rfl
  | other id => exact replacedRounding_cases _ _ _

/-- The quotient of a replaced `F64_OPS` has sign bit 0. -/
theorem nonNegative_div_msb (ops : F64Ops) (a b : DWord) : ((nonNegative ops).div a b).getLsbD 63 = false := by
  simp [nonNegative]

/-- The narrowed pattern of a replaced `F64_OPS` has sign bit 0. -/
theorem nonNegative_narrow_msb (ops : F64Ops) (a : DWord) : ((nonNegative ops).narrow a).getLsbD 31 = false := by
  simp [nonNegative]

end Sys2Proof.Laws
end

