-- ==== Sys2Proof/Laws/State.lean ====
section
/-! SUPPORT. One lemma for each field and each update of the state, so that no proof unfolds a record update. -/

namespace Sys2Proof.Laws

open Sys2Proof.Machine

/-! Reading a decimal register after an update. -/

@[simp] theorem getD_setD_self (s : State) (r : DReg) (v : DecReg) : (s.setD r v).getD r = v := by
  cases r <;> rfl

theorem getD_setD_of_ne (s : State) {r q : DReg} (v : DecReg) (h : q ≠ r) : (s.setD r v).getD q = s.getD q := by
  cases r <;> cases q <;> first | rfl | exact absurd rfl h

@[simp] theorem getD_setX (s : State) (v : DWord) (r : DReg) : (s.setX v).getD r = s.getD r := by cases r <;> rfl

@[simp] theorem getD_raiseFault (s : State) (f : Fault) (w : Word) (r : DReg) :
    (s.raiseFault f w).getD r = s.getD r := by cases r <;> rfl

@[simp] theorem getD_clearFault (s : State) (r : DReg) : s.clearFault.getD r = s.getD r := by cases r <;> rfl

@[simp] theorem getD_hostIn (s : State) (l : List HostEvent) (r : DReg) :
    ({ s with hostIn := l } : State).getD r = s.getD r := by cases r <;> rfl

@[simp] theorem getD_returned (s : State) (l : List Word) (r : DReg) :
    ({ s with returned := l } : State).getD r = s.getD r := by cases r <;> rfl

@[simp] theorem setD_getD_self (s : State) (r : DReg) : s.setD r (s.getD r) = s := by cases r <;> rfl

@[simp] theorem getD_params (s : State) (p : Config.Params) (r : DReg) :
    ({ s with params := p } : State).getD r = s.getD r := by cases r <;> rfl

/-! `setD`. -/

@[simp] theorem setD_x (s : State) (r : DReg) (v : DecReg) : (s.setD r v).x = s.x := by cases r <;> rfl
@[simp] theorem setD_err (s : State) (r : DReg) (v : DecReg) : (s.setD r v).err = s.err := by cases r <;> rfl
@[simp] theorem setD_ecmd (s : State) (r : DReg) (v : DecReg) : (s.setD r v).ecmd = s.ecmd := by cases r <;> rfl
@[simp] theorem setD_hostIn (s : State) (r : DReg) (v : DecReg) : (s.setD r v).hostIn = s.hostIn := by
  cases r <;> rfl
@[simp] theorem setD_returned (s : State) (r : DReg) (v : DecReg) : (s.setD r v).returned = s.returned := by
  cases r <;> rfl

@[simp] theorem setD_params (s : State) (r : DReg) (v : DecReg) : (s.setD r v).params = s.params := by
  cases r <;> rfl

/-! `setX`. -/

@[simp] theorem setX_x (s : State) (v : DWord) : (s.setX v).x = v := rfl
@[simp] theorem setX_err (s : State) (v : DWord) : (s.setX v).err = s.err := rfl
@[simp] theorem setX_ecmd (s : State) (v : DWord) : (s.setX v).ecmd = s.ecmd := rfl
@[simp] theorem setX_hostIn (s : State) (v : DWord) : (s.setX v).hostIn = s.hostIn := rfl
@[simp] theorem setX_returned (s : State) (v : DWord) : (s.setX v).returned = s.returned := rfl

@[simp] theorem setX_params (s : State) (v : DWord) : (s.setX v).params = s.params := rfl

/-! The halves of a 64-bit value. -/

theorem toNat_lo32 (x : DWord) : (lo32 x).toNat = x.toNat % 2 ^ 32 := by
  simp [lo32, BitVec.extractLsb'_toNat]

theorem toNat_hi32 (x : DWord) : (hi32 x).toNat = x.toNat / 2 ^ 32 := by
  have := x.isLt
  simp only [hi32, BitVec.extractLsb'_toNat, Nat.shiftRight_eq_div_pow]
  omega

theorem toNat_join64 (hi lo : Word) : (join64 hi lo).toNat = hi.toNat * 2 ^ 32 + lo.toNat := by
  have h1 := hi.isLt
  have h2 := lo.isLt
  simp only [join64, BitVec.toNat_ofNat]
  omega

@[simp] theorem lo32_join64 (hi lo : Word) : lo32 (join64 hi lo) = lo := by
  have h := lo.isLt
  apply BitVec.eq_of_toNat_eq
  rw [toNat_lo32, toNat_join64]
  omega

@[simp] theorem hi32_join64 (hi lo : Word) : hi32 (join64 hi lo) = hi := by
  have h := lo.isLt
  apply BitVec.eq_of_toNat_eq
  rw [toNat_hi32, toNat_join64]
  omega

@[simp] theorem join64_hi32_lo32 (x : DWord) : join64 (hi32 x) (lo32 x) = x := by
  apply BitVec.eq_of_toNat_eq
  rw [toNat_join64, toNat_hi32, toNat_lo32]
  omega

@[simp] theorem xlo_setXLO (s : State) (v : Word) : (s.setXLO v).xlo = v := lo32_join64 _ _
@[simp] theorem xhi_setXLO (s : State) (v : Word) : (s.setXLO v).xhi = s.xhi := hi32_join64 _ _
@[simp] theorem xlo_setXHI (s : State) (v : Word) : (s.setXHI v).xlo = s.xlo := lo32_join64 _ _
@[simp] theorem xhi_setXHI (s : State) (v : Word) : (s.setXHI v).xhi = v := hi32_join64 _ _

/-! `raiseFault` and `clearFault`. -/

@[simp] theorem raiseFault_err (s : State) (f : Fault) (w : Word) : (s.raiseFault f w).err = f.code := rfl
@[simp] theorem raiseFault_ecmd (s : State) (f : Fault) (w : Word) : (s.raiseFault f w).ecmd = w := rfl
@[simp] theorem raiseFault_x (s : State) (f : Fault) (w : Word) : (s.raiseFault f w).x = s.x := rfl
@[simp] theorem raiseFault_hostIn (s : State) (f : Fault) (w : Word) : (s.raiseFault f w).hostIn = s.hostIn := rfl
@[simp] theorem raiseFault_returned (s : State) (f : Fault) (w : Word) :
    (s.raiseFault f w).returned = s.returned := rfl
@[simp] theorem raiseFault_params (s : State) (f : Fault) (w : Word) : (s.raiseFault f w).params = s.params := rfl
@[simp] theorem clearFault_err (s : State) : s.clearFault.err = 0 := rfl
@[simp] theorem clearFault_ecmd (s : State) : s.clearFault.ecmd = 0 := rfl
@[simp] theorem clearFault_x (s : State) : s.clearFault.x = s.x := rfl
@[simp] theorem clearFault_hostIn (s : State) : s.clearFault.hostIn = s.hostIn := rfl
@[simp] theorem clearFault_returned (s : State) : s.clearFault.returned = s.returned := rfl
@[simp] theorem clearFault_params (s : State) : s.clearFault.params = s.params := rfl

/-! A reset event. -/

@[simp] theorem resetTo_err (s : State) (w : ResetWords) : (s.resetTo w).err = 0 := rfl
@[simp] theorem resetTo_ecmd (s : State) (w : ResetWords) : (s.resetTo w).ecmd = 0 := rfl
@[simp] theorem resetTo_x (s : State) (w : ResetWords) : (s.resetTo w).x = w.x := rfl
@[simp] theorem resetTo_hostIn (s : State) (w : ResetWords) : (s.resetTo w).hostIn = s.hostIn := rfl
@[simp] theorem resetTo_returned (s : State) (w : ResetWords) : (s.resetTo w).returned = s.returned := rfl
@[simp] theorem resetTo_params (s : State) (w : ResetWords) : (s.resetTo w).params = s.params := rfl

/-- A fault's code is never 0, so a faulted engine is never mistaken for a clear one (R190). -/
theorem code_ne_zero (f : Fault) : f.code ≠ 0 := by cases f <;> decide

end Sys2Proof.Laws
end

