-- ==== Sys2Proof/Laws/Ops.lean ====
section
/-! SUPPORT. What each shared operation can do, said once: the frames of the commands, the downward search, the two
roundings, `compact`, and the fields of a packed register. -/

namespace Sys2Proof.Laws

open Sys2Proof.Machine Sys2Proof.Config

/-! ### The frames of the commands (spec/41_arith.md R120) -/

/-- A frame that can only overflow answers its result, or Overflow when there is none. -/
theorem orOverflow_cases (w : Word) (s : State) (r : Option State) :
    (∃ t, r = some t ∧ orOverflow w s r = .next t) ∨
      (r = none ∧ orOverflow w s r = .next (s.raiseFault .overflow w)) := by
  cases r with
  | none => exact .inr ⟨rfl, rfl⟩
  | some t => exact .inl ⟨t, rfl, rfl⟩

/-- The frame of a value command tests validity, then answers its result or Overflow. -/
theorem valueCommand_cases (w : Word) (s : State) (l : List DecReg) (r : Option State) :
    (l.all DecReg.valid = false ∧ valueCommand w s l r = .next (s.raiseFault .invalidValue w)) ∨
      (l.all DecReg.valid = true ∧ ∃ t, r = some t ∧ valueCommand w s l r = .next t) ∨
      (l.all DecReg.valid = true ∧ r = none ∧ valueCommand w s l r = .next (s.raiseFault .overflow w)) := by
  unfold valueCommand
  cases h : l.all DecReg.valid with
  | false => exact .inl ⟨rfl, rfl⟩
  | true =>
    obtain ⟨t, ht, e⟩ | ⟨hn, e⟩ := orOverflow_cases w s r
    · exact .inr (.inl ⟨rfl, t, ht, e⟩)
    · exact .inr (.inr ⟨rfl, hn, e⟩)

/-- The frame of DIV and MOD tests the divisor's mantissa first. -/
theorem dividingCommand_cases (w : Word) (s : State) (a d : DecReg) (r : Option State) :
    (d.mant = 0 ∧ dividingCommand w s a d r = .next (s.raiseFault .divideByZero w)) ∨
      (d.mant ≠ 0 ∧ dividingCommand w s a d r = valueCommand w s [a, d] r) := by
  unfold dividingCommand
  split
  · exact .inl ⟨‹_›, rfl⟩
  · exact .inr ⟨‹_›, rfl⟩

/-! ### The downward search -/

/-- `findDown` answers the largest index that passes. -/
theorem findDown_eq_some {p : Nat → Bool} {n k : Nat} :
    findDown p n = some k ↔ k ≤ n ∧ p k = true ∧ ∀ j, k < j → j ≤ n → p j = false := by
  induction n with
  | zero =>
    unfold findDown
    constructor
    · intro h
      split at h
      · cases h
        exact ⟨le_rfl, ‹_›, fun j h1 h2 => absurd h1 (by omega)⟩
      · cases h
    · rintro ⟨h1, h2, -⟩
      obtain rfl : k = 0 := by omega
      simp [h2]
  | succ n ih =>
    unfold findDown
    constructor
    · intro h
      split at h
      · cases h
        exact ⟨le_rfl, ‹_›, fun j h1 h2 => absurd h1 (by omega)⟩
      · obtain ⟨h1, h2, h3⟩ := ih.1 h
        refine ⟨by omega, h2, fun j hj hn => ?_⟩
        rcases Nat.lt_or_ge n j with hlt | hge
        · obtain rfl : j = n + 1 := by omega
          simpa using ‹¬p (n + 1) = true›
        · exact h3 j hj hge
    · rintro ⟨h1, h2, h3⟩
      split
      · rcases Nat.lt_or_ge k (n + 1) with hlt | hge
        · have := h3 (n + 1) hlt le_rfl
          simp_all
        · obtain rfl : k = n + 1 := by omega
          rfl
      · refine ih.2 ⟨?_, h2, fun j hj hn => h3 j hj (by omega)⟩
        rcases Nat.lt_or_ge n k with hlt | hge
        · obtain rfl : k = n + 1 := by omega
          simp_all
        · exact hge

/-- `findDown` answers nothing exactly when no index passes. -/
theorem findDown_eq_none {p : Nat → Bool} {n : Nat} : findDown p n = none ↔ ∀ j, j ≤ n → p j = false := by
  induction n with
  | zero =>
    unfold findDown
    constructor
    · intro h j hj
      obtain rfl : j = 0 := by omega
      simpa using h
    · intro h
      simp [h 0 le_rfl]
  | succ n ih =>
    unfold findDown
    constructor
    · intro h j hj
      split at h
      · cases h
      · rcases Nat.lt_or_ge n j with hlt | hge
        · obtain rfl : j = n + 1 := by omega
          simpa using ‹¬p (n + 1) = true›
        · exact ih.1 h j hge
    · intro h
      simp [h (n + 1) le_rfl, ih.2 fun j hj => h j (by omega)]

/-! ### The roundings (spec/00_scope.md R11) -/

/-- `rhe n d` is within half of `n / d`, and even on a tie. -/
theorem rhe_spec (n : Nat) {d : Nat} (hd : 0 < d) :
    2 * n ≤ (2 * rhe n d + 1) * d ∧ (2 * rhe n d) * d ≤ 2 * n + d ∧
      (2 * n = (2 * rhe n d + 1) * d → rhe n d % 2 = 0) ∧ (2 * n + d = (2 * rhe n d) * d → rhe n d % 2 = 0) := by
  have hn := Nat.div_add_mod n d
  have hr := Nat.mod_lt n hd
  unfold rhe
  simp only
  set q := n / d
  set r := n % d
  have e1 : (2 * q + 1) * d = 2 * (d * q) + d := by ring
  have e2 : (2 * (q + 1) + 1) * d = 2 * (d * q) + 3 * d := by ring
  have e3 : 2 * q * d = 2 * (d * q) := by ring
  have e4 : 2 * (q + 1) * d = 2 * (d * q) + 2 * d := by ring
  split
  · rw [e2, e4]
    refine ⟨by omega, by omega, by omega, ?_⟩
    intro h
    omega
  · rw [e1, e3]
    refine ⟨by omega, by omega, ?_, by omega⟩
    intro h
    omega

/-- `rha n d` is within half of `n / d`, and above it on a tie. -/
theorem rha_spec (n : Nat) {d : Nat} (hd : 0 < d) :
    2 * n < (2 * rha n d + 1) * d ∧ (2 * rha n d) * d ≤ 2 * n + d := by
  have hn := Nat.div_add_mod n d
  have hr := Nat.mod_lt n hd
  unfold rha
  simp only
  set q := n / d
  set r := n % d
  have e1 : (2 * q + 1) * d = 2 * (d * q) + d := by ring
  have e2 : (2 * (q + 1) + 1) * d = 2 * (d * q) + 3 * d := by ring
  have e3 : 2 * q * d = 2 * (d * q) := by ring
  have e4 : 2 * (q + 1) * d = 2 * (d * q) + 2 * d := by ring
  split
  · rw [e2, e4]
    omega
  · rw [e1, e3]
    omega

/-- Rounding by 1 changes nothing. -/
@[simp] theorem rhe_one (n : Nat) : rhe n 1 = n := by
  simp [rhe, Nat.mod_one]

/-! ### Compaction (spec/40_primitives.md R101) -/

/-- `compact` answers the largest scale, at most `scale` and 28, at which the rounded value fits. -/
theorem compact_eq_some {N scale m t : Nat} :
    compact N scale = some (m, t) ↔ m = rhe N (10 ^ (scale - t)) ∧ t ≤ min scale scaleMax ∧ m ≤ max96 ∧
      ∀ j, t < j → j ≤ min scale scaleMax → max96 < rhe N (10 ^ (scale - j)) := by
  unfold compact
  simp only [Option.map_eq_some_iff, findDown_eq_some, Prod.mk.injEq, decide_eq_true_eq, decide_eq_false_iff_not,
    Nat.not_le]
  constructor
  · rintro ⟨k, ⟨h1, h2, h3⟩, rfl, rfl⟩
    exact ⟨rfl, h1, h2, h3⟩
  · rintro ⟨rfl, h1, h2, h3⟩
    exact ⟨t, ⟨h1, h2, h3⟩, rfl, rfl⟩

/-- `compact` overflows exactly when the rounded value fits at no scale. -/
theorem compact_eq_none {N scale : Nat} :
    compact N scale = none ↔ ∀ j, j ≤ min scale scaleMax → max96 < rhe N (10 ^ (scale - j)) := by
  simp [compact, findDown_eq_none]

/-! ### Packed registers (spec/00_scope.md R12) -/

/-- The mantissa of a register whose mantissa words were replaced. -/
theorem mant_withMant (r : DecReg) (m : Nat) : (r.withMant m).mant = m % 2 ^ 96 := by
  simp only [DecReg.mant, DecReg.withMant, BitVec.toNat_ofNat]
  omega

@[simp] theorem flags_withMant (r : DecReg) (m : Nat) : (r.withMant m).flags = r.flags := rfl

/-- Every mantissa is a 96-bit number. -/
theorem mant_lt (r : DecReg) : r.mant < 2 ^ 96 := by
  have h1 := r.hi.isLt
  have h2 := r.mid.isLt
  have h3 := r.lo.isLt
  unfold DecReg.mant
  omega

/-- The mantissa of a packed register. -/
theorem mant_pack (d : Dec) : (pack d).mant = d.mant % 2 ^ 96 := mant_withMant _ _

theorem flags_pack (d : Dec) : (pack d).flags = packFlags d.neg d.scale := rfl

/-- The packed `FLAGS` word as a number. -/
theorem toNat_packFlags (n : Bool) {s : Nat} (h : s ≤ scaleMax) :
    (packFlags n s).toNat = n.toNat * 2147483648 + s * 65536 := by
  have hn := Bool.toNat_le n
  simp only [scaleMax] at h
  simp only [packFlags, BitVec.toNat_ofNat, Nat.reducePow]
  omega

/-- The fields of a register whose `FLAGS` word is the number of a sign and a scale (spec/10_state.md R22, R24). -/
theorem fields_of_flags {r : DecReg} {n : Bool} {s : Nat} (h : s ≤ 28)
    (hf : r.flags.toNat = n.toNat * 2147483648 + s * 65536) : r.scale = s ∧ r.sign = n ∧ r.valid = true := by
  have hn := Bool.toNat_le n
  have hs : r.scale = s := by
    simp only [DecReg.scale, BitVec.extractLsb'_toNat, Nat.shiftRight_eq_div_pow, hf, Nat.reducePow]
    omega
  have h1 : r.flags.extractLsb' 24 7 = 0#7 := by
    apply BitVec.eq_of_toNat_eq
    simp only [BitVec.extractLsb'_toNat, Nat.shiftRight_eq_div_pow, hf, BitVec.toNat_ofNat, Nat.reducePow]
    omega
  have h2 : r.flags.extractLsb' 0 16 = 0#16 := by
    apply BitVec.eq_of_toNat_eq
    simp only [BitVec.extractLsb'_toNat, Nat.shiftRight_eq_div_pow, hf, BitVec.toNat_ofNat, Nat.reducePow]
    omega
  refine ⟨hs, ?_, by simp [DecReg.valid, h1, h2, hs, scaleMax, h]⟩
  simp only [DecReg.sign, BitVec.getLsbD, Nat.testBit_eq_decide_div_mod_eq, hf, Nat.reducePow]
  cases n <;> simp only [Bool.toNat_false, Bool.toNat_true, decide_eq_false_iff_not, decide_eq_true_eq] <;> omega

/-- The scale of a packed register. -/
theorem scale_pack {d : Dec} (h : d.scale ≤ scaleMax) : (pack d).scale = d.scale :=
  (fields_of_flags h ((congrArg _ (flags_pack d)).trans (toNat_packFlags d.neg h))).1

/-- The sign of a packed register. -/
theorem sign_pack {d : Dec} (h : d.scale ≤ scaleMax) : (pack d).sign = d.neg :=
  (fields_of_flags h ((congrArg _ (flags_pack d)).trans (toNat_packFlags d.neg h))).2.1

/-- A packed register is valid (spec/10_state.md R25). -/
theorem valid_pack {d : Dec} (h : d.scale ≤ scaleMax) : (pack d).valid = true :=
  (fields_of_flags h ((congrArg _ (flags_pack d)).trans (toNat_packFlags d.neg h))).2.2

/-- Reading a packed register gives back what was packed. -/
theorem dec_pack {d : Dec} (hm : d.mant ≤ max96) (hs : d.scale ≤ scaleMax) : (pack d).dec = d := by
  have h : d.mant % 2 ^ 96 = d.mant := by
    apply Nat.mod_eq_of_lt
    simp only [max96] at hm
    omega
  simp only [DecReg.dec, mant_pack, scale_pack hs, sign_pack hs, h]

/-- A valid register has a 96-bit mantissa and a scale of at most 28. -/
theorem inRange_of_valid {r : DecReg} (h : r.valid = true) : r.dec.mant ≤ max96 ∧ r.dec.scale ≤ scaleMax := by
  simp only [DecReg.valid, Bool.and_eq_true, decide_eq_true_eq] at h
  have := mant_lt r
  refine ⟨?_, h.2⟩
  simp only [DecReg.dec, max96]
  omega

end Sys2Proof.Laws
end

