-- ==== Sys2Proof/Laws/PerInstr.lean ====
section
/-! SUPPORT. Statements about every command, made per constructor. `RowInstance`: the word of a command is an instance of a
row of the opcode map (spec/30_encoding.md R72, R73). -/

namespace Sys2Proof.Laws

/-- The word of the command is an instance of a row of the opcode map: every field its format does not use is 0 (R72). -/
def RowInstance.Statement (i : Instr) : Prop := ∃ row ∈ opcodeTable, row.hits (encode i) = true

theorem RowInstance.add (rd rs : DReg) : RowInstance.Statement (.add rd rs) :=
  ⟨.rr 0x10#32 .add, by simp only [opcodeTable, List.mem_cons, true_or], by cases rd <;> cases rs <;> rfl⟩

theorem RowInstance.sub (rd rs : DReg) : RowInstance.Statement (.sub rd rs) :=
  ⟨.rr 0x11#32 .sub, by simp only [opcodeTable, List.mem_cons, true_or, or_true], by cases rd <;> cases rs <;> rfl⟩

theorem RowInstance.mul (rd rs : DReg) : RowInstance.Statement (.mul rd rs) :=
  ⟨.rr 0x12#32 .mul, by simp only [opcodeTable, List.mem_cons, true_or, or_true], by cases rd <;> cases rs <;> rfl⟩

theorem RowInstance.div (rd rs : DReg) : RowInstance.Statement (.div rd rs) :=
  ⟨.rr 0x13#32 .div, by simp only [opcodeTable, List.mem_cons, true_or, or_true], by cases rd <;> cases rs <;> rfl⟩

theorem RowInstance.mod (rd rs : DReg) : RowInstance.Statement (.mod rd rs) :=
  ⟨.rr 0x14#32 .mod, by simp only [opcodeTable, List.mem_cons, true_or, or_true], by cases rd <;> cases rs <;> rfl⟩

theorem RowInstance.trunc (rd rs : DReg) : RowInstance.Statement (.trunc rd rs) :=
  ⟨.rr 0x20#32 .trunc, by simp only [opcodeTable, List.mem_cons, true_or, or_true], by cases rd <;> cases rs <;> rfl⟩

theorem RowInstance.floor (rd rs : DReg) : RowInstance.Statement (.floor rd rs) :=
  ⟨.rr 0x21#32 .floor, by simp only [opcodeTable, List.mem_cons, true_or, or_true], by cases rd <;> cases rs <;> rfl⟩

theorem RowInstance.cmp (rd rs : DReg) : RowInstance.Statement (.cmp rd rs) :=
  ⟨.rr 0x30#32 .cmp, by simp only [opcodeTable, List.mem_cons, true_or, or_true], by cases rd <;> cases rs <;> rfl⟩

theorem RowInstance.neg (rd rs : DReg) : RowInstance.Statement (.neg rd rs) :=
  ⟨.rr 0x31#32 .neg, by simp only [opcodeTable, List.mem_cons, true_or, or_true], by cases rd <;> cases rs <;> rfl⟩

theorem RowInstance.abs (rd rs : DReg) : RowInstance.Statement (.abs rd rs) :=
  ⟨.rr 0x32#32 .abs, by simp only [opcodeTable, List.mem_cons, true_or, or_true], by cases rd <;> cases rs <;> rfl⟩

theorem RowInstance.sign (r : DReg) : RowInstance.Statement (.sign r) :=
  ⟨.r 0x33#32 .sign, by simp only [opcodeTable, List.mem_cons, true_or, or_true], by cases r <;> rfl⟩

theorem RowInstance.max (rd rs : DReg) : RowInstance.Statement (.max rd rs) :=
  ⟨.rr 0x34#32 .max, by simp only [opcodeTable, List.mem_cons, true_or, or_true], by cases rd <;> cases rs <;> rfl⟩

theorem RowInstance.min (rd rs : DReg) : RowInstance.Statement (.min rd rs) :=
  ⟨.rr 0x35#32 .min, by simp only [opcodeTable, List.mem_cons, true_or, or_true], by cases rd <;> cases rs <;> rfl⟩

theorem RowInstance.cytod (r : DReg) : RowInstance.Statement (.cytod r) :=
  ⟨.r 0x40#32 .cytod, by simp only [opcodeTable, List.mem_cons, true_or, or_true], by cases r <;> rfl⟩

theorem RowInstance.dtocy (r : DReg) : RowInstance.Statement (.dtocy r) :=
  ⟨.r 0x41#32 .dtocy, by simp only [opcodeTable, List.mem_cons, true_or, or_true], by cases r <;> rfl⟩

theorem RowInstance.r8tod (r : DReg) : RowInstance.Statement (.r8tod r) :=
  ⟨.r 0x42#32 .r8tod, by simp only [opcodeTable, List.mem_cons, true_or, or_true], by cases r <;> rfl⟩

theorem RowInstance.r4tod (r : DReg) : RowInstance.Statement (.r4tod r) :=
  ⟨.r 0x43#32 .r4tod, by simp only [opcodeTable, List.mem_cons, true_or, or_true], by cases r <;> rfl⟩

theorem RowInstance.dtor8 (r : DReg) : RowInstance.Statement (.dtor8 r) :=
  ⟨.r 0x44#32 .dtor8, by simp only [opcodeTable, List.mem_cons, true_or, or_true], by cases r <;> rfl⟩

theorem RowInstance.dtor4 (r : DReg) : RowInstance.Statement (.dtor4 r) :=
  ⟨.r 0x45#32 .dtor4, by simp only [opcodeTable, List.mem_cons, true_or, or_true], by cases r <;> rfl⟩

theorem RowInstance.divmod1e9 (r : DReg) : RowInstance.Statement (.divmod1e9 r) :=
  ⟨.r 0x50#32 .divmod1e9, by simp only [opcodeTable, List.mem_cons, true_or, or_true], by cases r <;> rfl⟩

theorem RowInstance.mul10 (r : DReg) : RowInstance.Statement (.mul10 r) :=
  ⟨.r 0x51#32 .mul10, by simp only [opcodeTable, List.mem_cons, true_or, or_true], by cases r <;> rfl⟩

theorem RowInstance.addi32 (r : DReg) : RowInstance.Statement (.addi32 r) :=
  ⟨.r 0x52#32 .addi32, by simp only [opcodeTable, List.mem_cons, true_or, or_true], by cases r <;> rfl⟩

/-- All 32 values of `IMM5` and both modes. -/
theorem RowInstance.round (rd rs : DReg) (decimals : Nat) (mode : RoundMode) :
    RowInstance.Statement (.round rd rs decimals mode) := by
  have h : ∀ k : Fin 32, ∀ b : Fin 2, (BitVec.ofNat 32 (0x22 + rd.index * 2 ^ 8 + rs.index * 2 ^ 10 + k.val * 2 ^ 12 +
      b.val * 2 ^ 17) &&& Format.rri.mask == 0x22#32) = true := by
    cases rd <;> cases rs <;> decide
  refine ⟨⟨0x22#32, .rri, fun w => .round (fieldRD w) (fieldRS w) (fieldImm5 w) (fieldMode w)⟩, ?_, ?_⟩
  · simp only [opcodeTable, List.mem_cons, true_or, or_true]
  · cases mode
    · exact h ⟨decimals % 32, Nat.mod_lt _ (by decide)⟩ 0
    · exact h ⟨decimals % 32, Nat.mod_lt _ (by decide)⟩ 1

end Sys2Proof.Laws
end

