-- ==== Sys2Proof/Laws/Rational.lean ====
section
/-! SUPPORT. Small lemmas about the rational terms of Sys2Proof/Safety.lean. -/

namespace Sys2Proof.Laws

open Sys2Proof.Machine Sys2Proof.Config

/-- The value of a packed register is the value that was packed. -/
theorem value_pack {d : Dec} (hm : d.mant ≤ max96) (hs : d.scale ≤ scaleMax) : (pack d).value = d.value := by
  rw [DecReg.value, dec_pack hm hs]

/-- The magnitude of a value is mantissa over power of ten (spec/00_scope.md R13). -/
theorem abs_value (d : Dec) : |d.value| = d.mant / 10 ^ d.scale := by
  have h : (0 : ℚ) ≤ d.mant / 10 ^ d.scale := by positivity
  unfold Dec.value
  cases d.neg <;> simp [abs_of_nonneg h]

/-- A natural number is the nearest integer to itself. -/
theorem isNearestEven_natCast (m : ℕ) : IsNearestEven m m := by
  simp [IsNearestEven]

/-- A natural number of 96 bits fits. -/
theorem fitsRounded_natCast {m : ℕ} (h : m ≤ max96) : FitsRounded m := ⟨m, isNearestEven_natCast m, h⟩

/-- A magnitude above `MAX96 + 1/2` does not fit. -/
theorem not_fitsRounded {q : ℚ} (h : (max96 : ℚ) + 1 / 2 < q) : ¬FitsRounded q := by
  rintro ⟨m, ⟨h1, -⟩, h2⟩
  have h3 : (m : ℚ) ≤ max96 := by exact_mod_cast h2
  have := (abs_le.1 h1).2
  linarith

end Sys2Proof.Laws
end

