-- ==== Sys2Proof/Tests/Slice0.lean ====
section
/-! SUPPORT. The model's own tests. Expected words are the spec's: spec/30_encoding.md R77 and the vectors `T-...` of
spec/95_test_vectors.md and spec/96_test_vectors_more.md, named in the comments. After them, one witness for the
hypotheses of each statement. -/

namespace Sys2Proof.Tests

open Sys2Proof.Machine Sys2Proof.Config Sys2Proof.Laws

/-! ### Well-formedness -/

/-- `IMM5` has five bits: 32 is refused. -/
theorem test_round_32_ill_formed : (Instr.round .d0 .d1 32 .even).wellFormed = false := by decide

/-- 31 is legal (R75). -/
theorem test_round_31_well_formed : (Instr.round .d0 .d1 31 .away).wellFormed = true := by decide

/-! ### Decoding: words written out bit by bit from R71 to R73 -/

-- bits 31:18 zero, 17 MODE, 16:12 IMM5, 11:10 RS, 9:8 RD, 7:0 OPC
theorem test_decode_add : decode 0b00000000000000000000_10_01_00010000#32 = some (.add .d1 .d2) := by decide
theorem test_decode_sub : decode 0b00000000000000000000_01_10_00010001#32 = some (.sub .d2 .d1) := by decide
theorem test_decode_mul : decode 0b00000000000000000000_11_00_00010010#32 = some (.mul .d0 .d3) := by decide
theorem test_decode_div : decode 0b00000000000000000000_10_00_00010011#32 = some (.div .d0 .d2) := by decide
theorem test_decode_mod : decode 0b00000000000000000000_11_00_00010100#32 = some (.mod .d0 .d3) := by decide
theorem test_decode_trunc : decode 0b00000000000000000000_00_01_00100000#32 = some (.trunc .d1 .d0) := by decide
theorem test_decode_floor : decode 0b00000000000000000000_00_11_00100001#32 = some (.floor .d3 .d0) := by decide
theorem test_decode_round :
    decode 0b00000000000000_1_00010_01_00_00100010#32 = some (.round .d0 .d1 2 .away) := by decide
theorem test_decode_round_31 :
    decode 0b00000000000000_0_11111_01_00_00100010#32 = some (.round .d0 .d1 31 .even) := by decide
theorem test_decode_cmp : decode 0b00000000000000000000_10_01_00110000#32 = some (.cmp .d1 .d2) := by decide
theorem test_decode_neg : decode 0b00000000000000000000_01_00_00110001#32 = some (.neg .d0 .d1) := by decide
theorem test_decode_abs : decode 0b00000000000000000000_00_01_00110010#32 = some (.abs .d1 .d0) := by decide
theorem test_decode_sign : decode 0b0000000000000000000000_10_00110011#32 = some (.sign .d2) := by decide
theorem test_decode_max : decode 0b00000000000000000000_01_00_00110100#32 = some (.max .d0 .d1) := by decide
theorem test_decode_min : decode 0b00000000000000000000_00_11_00110101#32 = some (.min .d3 .d0) := by decide
theorem test_decode_cytod : decode 0b0000000000000000000000_10_01000000#32 = some (.cytod .d2) := by decide
theorem test_decode_dtocy : decode 0b0000000000000000000000_11_01000001#32 = some (.dtocy .d3) := by decide
theorem test_decode_r8tod : decode 0b0000000000000000000000_10_01000010#32 = some (.r8tod .d2) := by decide
theorem test_decode_r4tod : decode 0b0000000000000000000000_10_01000011#32 = some (.r4tod .d2) := by decide
theorem test_decode_dtor8 : decode 0b0000000000000000000000_11_01000100#32 = some (.dtor8 .d3) := by decide
theorem test_decode_dtor4 : decode 0b0000000000000000000000_01_01000101#32 = some (.dtor4 .d1) := by decide
theorem test_decode_divmod1e9 : decode 0b0000000000000000000000_10_01010000#32 = some (.divmod1e9 .d2) := by decide
theorem test_decode_mul10 : decode 0b0000000000000000000000_10_01010001#32 = some (.mul10 .d2) := by decide
theorem test_decode_addi32 : decode 0b0000000000000000000000_11_01010010#32 = some (.addi32 .d3) := by decide

/-- T-FLT-3: an opcode that is not assigned. -/
theorem test_decode_unassigned : decode 0x00000015#32 = none := by decide

/-- T-FLT-9: `ADD` with bit 31 set. -/
theorem test_decode_zero_field : decode 0x80000410#32 = none := by decide

/-- The table word's bits are the command's. -/
theorem test_decodeTableWord : decodeTableWord 32 0x00000344 = some (.dtor8 .d3) := by decide

/-! ### One step on a small state -/

/-- `D0`, `D1`, `X` as given, the rest as after reset. -/
def small (a b : DecReg) (x : DWord) : State := { State.reset with d0 := a, d1 := b, x := x }

/-- The literal `mant / 10^scale` with its sign, as `LDD` writes it (R78). -/
def lit (neg : Bool) (mant scale : Nat) : DecReg := pack ⟨mant, scale, neg⟩

/-- One step that runs the command word `w`: `D0`, `X`, `ERR` and `ECMD` afterwards. -/
def run (a b : DecReg) (x : DWord) (w : Nat) : Option (DecReg × DWord × BitVec 3 × Word) :=
  match step ((small a b x).withFetchWord 32 w) with
  | .next t => some (t.d0, t.x, t.err, t.ecmd)
  | .fault _ => none
  | .refused _ => none

/-- The words a literal stands for (R78: `-1.50m` is mantissa 150, scale 2, sign 1). -/
theorem test_lit : lit true 150 2 = ⟨0x96#32, 0#32, 0#32, 0x80020000#32⟩ := by decide

/-- T-ADD-11: the carry with scale 1 drops a digit, tie to even. -/
theorem test_add_carry : run (lit false max96 1) (lit false max96 1) 0 0x410 =
    some (⟨0x33333333#32, 0x33333333#32, 0x33333333#32, 0#32⟩, 0, 0, 0) := by decide +kernel

/-- T-ADD-8: a tie at scale 0 rounds to 2^96 and does not fit. -/
theorem test_add_overflow : run (lit false max96 0) (lit false 5 1) 0 0x410 =
    some (lit false max96 0, 0, 1, 0x410#32) := by decide +kernel

/-- T-ADD-3: a borrow flips the sign. -/
theorem test_sub_borrow : run (lit false 1 0) (lit false 15 1) 0 0x411 =
    some (⟨5#32, 0#32, 0#32, 0x80010000#32⟩, 0, 0, 0) := by decide +kernel

/-- T-ADD-6: exact cancellation gives sign 0. -/
theorem test_sub_cancel : run (lit true 10 1) (lit true 100 2) 0 0x411 =
    some (⟨0#32, 0#32, 0#32, 0x00020000#32⟩, 0, 0, 0) := by decide +kernel

/-- T-MUL-17: large by large, scale 36. -/
theorem test_mul_compact : run (lit false max96 18) (lit false max96 18) 0 0x412 =
    some (⟨0x096EE456#32, 0x359A3B3E#32, 0xCAD2F7F5#32, 0x00070000#32⟩, 0, 0, 0) := by decide +kernel

/-- T-MUL-12: 35 at scale 29, tie to even. -/
theorem test_mul_tie : run (lit false 5 1) (lit false 7 28) 0 0x412 =
    some (⟨4#32, 0#32, 0#32, 0x001C0000#32⟩, 0, 0, 0) := by decide +kernel

/-- T-DIV-1: one third to 28 places. -/
theorem test_div_third : run (lit false 1 0) (lit false 3 0) 0 0x413 =
    some (⟨0x05555555#32, 0x14B700CB#32, 0x0AC544CA#32, 0x001C0000#32⟩, 0, 0, 0) := by decide +kernel

/-- T-FLT-10: an invalid dividend and a zero divisor report DivideByZero. -/
theorem test_div_priority : run ⟨1, 0, 0, 0x00FF0000#32⟩ ⟨0, 0, 0, 0⟩ 0 0x413 =
    some (⟨1, 0, 0, 0x00FF0000#32⟩, 0, 2, 0x413#32) := by decide +kernel

/-- T-MOD-11: the widened dividend has 57 digits. -/
theorem test_mod_wide : run (lit false max96 0) (lit false 11 28) 0 0x414 =
    some (⟨8#32, 0#32, 0#32, 0x001C0000#32⟩, 0, 0, 0) := by decide +kernel

/-- T-MOD-6: the smaller dividend is unchanged, scale included. -/
theorem test_mod_unchanged : run (lit false 20 1) (lit false 555 2) 0 0x414 = some (lit false 20 1, 0, 0, 0) := by
  decide +kernel

/-- T-TRF-3: truncation keeps the sign of a zero. -/
theorem test_trunc : run .zero (lit true 999 3) 0 0x420 = some (⟨0#32, 0#32, 0#32, 0x80000000#32⟩, 0, 0, 0) := by
  decide +kernel

/-- T-TRF-9: the floor of a negative value. -/
theorem test_floor : run .zero (lit true 123456 3) 0 0x421 =
    some (⟨0x7C#32, 0#32, 0#32, 0x80000000#32⟩, 0, 0, 0) := by decide +kernel

/-- T-RND-9: tie to even. -/
theorem test_round_even : run .zero (lit false 12250 4) 0 0x02422 =
    some (⟨0x7A#32, 0#32, 0#32, 0x00020000#32⟩, 0, 0, 0) := by decide +kernel

/-- T-RND-10: tie away from zero. -/
theorem test_round_away : run .zero (lit false 12250 4) 0 0x22422 =
    some (⟨0x7B#32, 0#32, 0#32, 0x00020000#32⟩, 0, 0, 0) := by decide +kernel

/-- T-CMP-7: both negative, the order reverses. -/
theorem test_cmp : run (lit true 1 0) (lit true 2 0) 0 0x430 = some (lit true 1 0, 1, 0, 0) := by decide +kernel

/-- T-SGN-3: an invalid source is copied raw. -/
theorem test_neg : run .zero ⟨0x12345678#32, 0x9ABCDEF0#32, 0x0FEDCBA9#32, 0x7FFFFFFF#32⟩ 0 0x431 =
    some (⟨0x12345678#32, 0x9ABCDEF0#32, 0x0FEDCBA9#32, 0xFFFFFFFF#32⟩, 0, 0, 0) := by decide +kernel

/-- T-SGN-6: only bit 31 is cleared. -/
theorem test_abs : run .zero ⟨1, 2, 3, 0xFFFFFFFF#32⟩ 0 0x432 = some (⟨1, 2, 3, 0x7FFFFFFF#32⟩, 0, 0, 0) := by
  decide +kernel

/-- T-SGN-7. -/
theorem test_sign : run (lit true 1 3) .zero 0 0x033 = some (lit true 1 3, 0xFFFFFFFFFFFFFFFF#64, 0, 0) := by
  decide +kernel

/-- T-SGN-9: a zero with sign 1 gives 0. -/
theorem test_sign_zero : run (lit true 0 1) .zero 5 0x033 = some (lit true 0 1, 0, 0, 0) := by decide +kernel

/-- T-MM-5: a tie of zeros keeps the destination's own sign and scale. -/
theorem test_max_tie : run (lit true 0 1) (lit false 0 2) 0 0x434 =
    some (⟨0#32, 0#32, 0#32, 0x80010000#32⟩, 0, 0, 0) := by decide +kernel

/-- T-MM-6. -/
theorem test_min : run (lit false 5 0) (lit false 4999 3) 0 0x435 =
    some (⟨0x1387#32, 0#32, 0#32, 0x00030000#32⟩, 0, 0, 0) := by decide +kernel

/-- T-CY-4: the most negative currency. -/
theorem test_cytod : run .zero .zero 0x8000000000000000#64 0x040 =
    some (⟨0#32, 0x80000000#32, 0#32, 0x80040000#32⟩, 0x8000000000000000#64, 0, 0) := by decide +kernel

/-- T-CY-13: a tie whose even neighbour is 2^63 fits the negative range. -/
theorem test_dtocy : run (lit true 92233720368547758085 5) .zero 0 0x041 =
    some (lit true 92233720368547758085 5, 0x8000000000000000#64, 0, 0) := by decide +kernel

/-- T-CY-10: the same tie is too large for the positive range. -/
theorem test_dtocy_overflow : run (lit false 92233720368547758075 5) .zero 7 0x041 =
    some (lit false 92233720368547758075 5, 7, 1, 0x041#32) := by decide +kernel

/-- T-CVT-1: the double nearest 0.1. -/
theorem test_r8tod : run .zero .zero 0x3FB999999999999A#64 0x042 =
    some (⟨1#32, 0#32, 0#32, 0x00010000#32⟩, 0x3FB999999999999A#64, 0, 0) := by decide +kernel

/-- T-CVT-10: the largest accepted double. -/
theorem test_r8tod_largest : run .zero .zero 0x45EFFFFFFFFFFFFF#64 0x042 =
    some (⟨0x122AC000#32, 0xFFFFDDCF#32, 0xFFFFFFFF#32, 0#32⟩, 0x45EFFFFFFFFFFFFF#64, 0, 0) := by decide +kernel

/-- T-CVT-26: seven digits of 16777216; `XHI` is not read. -/
theorem test_r4tod : run .zero .zero 0xDEADBEEF4B800000#64 0x043 =
    some (⟨0x01000004#32, 0#32, 0#32, 0#32⟩, 0xDEADBEEF4B800000#64, 0, 0) := by decide +kernel

/-- T-CVT-42: the inexact table entry shows in the last place. -/
theorem test_dtor8 : run (lit false 1 28) .zero 0 0x044 = some (lit false 1 28, 0x3A1FB0F6BE50601A#64, 0, 0) := by
  decide +kernel

/-- T-CVT-43: the pattern of -0.0. -/
theorem test_dtor8_negative_zero : run (lit true 0 0) .zero 0 0x044 =
    some (lit true 0 0, 0x8000000000000000#64, 0, 0) := by decide +kernel

/-- T-CVT-59: a tie in the narrowing goes to even; `XHI` is cleared. -/
theorem test_dtor4 : run (lit false 16777217 0) .zero 0xFFFFFFFFFFFFFFFF#64 0x045 =
    some (lit false 16777217 0, 0x000000004B800000#64, 0, 0) := by decide +kernel

/-- T-DIG-5: raw, `FLAGS` kept. -/
theorem test_divmod1e9 : run ⟨0xFFFFFFFF#32, 0xFFFFFFFF#32, 0xFFFFFFFF#32, 0xFFFFFFFF#32⟩ .zero 0 0x050 =
    some (⟨0xB5A52CB9#32, 0x4B82FA09#32, 0x00000004#32, 0xFFFFFFFF#32⟩, 0x206C05FF#64, 0, 0) := by decide +kernel

/-- T-DIG-8: one more than `MAX96 div 10`. -/
theorem test_mul10_overflow : run ⟨0x9999999A#32, 0x99999999#32, 0x19999999#32, 0#32⟩ .zero 0 0x051 =
    some (⟨0x9999999A#32, 0x99999999#32, 0x19999999#32, 0#32⟩, 0, 1, 0x051#32) := by decide +kernel

/-- T-DIG-11: a carry through two words. -/
theorem test_addi32 : run ⟨0xFFFFFFFF#32, 0xFFFFFFFF#32, 0#32, 0x80020000#32⟩ .zero 1 0x052 =
    some (⟨0#32, 0#32, 1#32, 0x80020000#32⟩, 1, 0, 0) := by decide +kernel

/-! ### The step around the commands -/

/-- T-FLT-1: the all-zero word is illegal. -/
theorem test_illegal_word : run .zero .zero 0 0 = some (.zero, 0, 4, 0) := by decide +kernel

/-- T-FST-1: a faulted engine drops a command. -/
theorem test_faulted_drops : step { State.reset with err := 2, ecmd := 0x413#32, hostIn := [hostWrite 18 0x410#32] } =
    .next { State.reset with err := 2, ecmd := 0x413#32 } := by rfl

/-- T-FST-3: reading `STATUS` returns the code. -/
theorem test_read_status : step { State.reset with err := 2, ecmd := 0x413#32, hostIn := [hostRead 19] } =
    .next { State.reset with err := 2, ecmd := 0x413#32, returned := [2#32] } := by rfl

/-- T-FST-5: a write of `STATUS` clears. -/
theorem test_clear : step { State.reset with err := 2, ecmd := 0x413#32, hostIn := [hostWrite 19 0xFFFFFFFF#32] } =
    .next State.reset := by rfl

/-- R52: a misaligned access has no step. -/
theorem test_misaligned : step { State.reset with hostIn := [.read 2 4] } = .refused .notAWholeWindowWord := by rfl

/-- R51: index 7 is `D1.FLAGS`. -/
theorem test_write_window : step { State.reset with hostIn := [.write 0x1C 4 5#32] } =
    .next { State.reset with d1 := ⟨0, 0, 0, 5#32⟩ } := by rfl

/-- R156, R191: the largest binary64 below 2^96 converts by the binary64 method too, to the same decimal. -/
theorem test_r8tod_largest_binary64 : binary64ToDec scalingBinary64 0x45EFFFFFFFFFFFFF#64 =
    some ⟨79228162514264300000000000000, 0, false⟩ := by decide +kernel

/-- R53: the default lanes put bits 7:0 at byte offset 0, and lanes set the other way put bits 31:24 there. -/
theorem test_busByte : busByte { State.reset with ecmd := 0x11223344#32 } 20 0 = 0x44#8 ∧
    busByte { State.reset with ecmd := 0x11223344#32, params := ⟨.nearestEven, .exactRational, ⟨3, 2, 1, 0⟩⟩ } 20 0 =
      0x11#8 := by decide

/-! ### The constant tables and two primitives -/

/-- `POW10_F64` at 22, 23 and 28 (R34). -/
theorem test_pow10F64 : pow10F64 22 = 0x4480F0CF064DD592#64 ∧ pow10F64 23 = 0x44B52D02C7E14AF6#64 ∧
    pow10F64 28 = 0x45C027E72F1F1281#64 := by decide +kernel

/-- `POWER_OVFL[9]` (R35) and `POW10_32[9]` (R33). -/
theorem test_tables : powerOvfl 9 = 79228162514264337593 ∧ pow10Word 9 = 0x3B9ACA00#32 := by decide +kernel

/-- T-PRM-14: the correction path. -/
theorem test_div96by64 : div96by64 0xFFFFFFFEFFFFFFFF12345678 0xFFFFFFFF00000000 =
    some (0xFFFFFFFF, 0xFFFFFFFE12345678) := by decide +kernel

/-- T-PRM-32. -/
theorem test_compact : compact (max96 * max96) 56 = some (62771017353866807638357894230, 27) := by decide +kernel

/-! ### Witnesses: the hypotheses of each statement can be met -/

theorem witness_DecodeOfEncodeGivesCommand : (Instr.round .d3 .d2 31 .away).wellFormed = true := by decide

theorem witness_EncodeOfDecodeGivesWord : decode 0x00022422#32 = some (.round .d0 .d1 2 .away) := by decide

theorem witness_AtMostOneRowMatches : ∃ r, opcodeTable[22]? = some r ∧ r.hits 0x00000352#32 = true :=
  ⟨.r 0x52#32 .addi32, rfl, by decide⟩

/-- The next state of an answer, if it is one. -/
def nextOf (o : Host.Outcome State Fault Refusal) : Option State :=
  match o with
  | .next t => some t
  | .fault _ => none
  | .refused _ => none

theorem eq_next_of_nextOf {o : Host.Outcome State Fault Refusal} {t : State} (h : nextOf o = some t) : o = .next t := by
  cases o <;> simp_all [nextOf]

/-- The state in which the host has issued `l`. -/
def issued (l : List HostEvent) : State := { State.reset with hostIn := l }

theorem witness_StepRunsDecodedCommand : (issued [hostWrite 18 0x00000910#32]).hostIn = hostWrite 18 0x00000910#32 :: [] ∧
    (issued [hostWrite 18 0x00000910#32]).err = 0 ∧ decode 0x00000910#32 = some (.add .d1 .d2) := by decide

theorem witness_IllegalWordTakesFault : (issued [hostWrite 18 0#32]).hostIn = hostWrite 18 0#32 :: [] ∧
    (issued [hostWrite 18 0#32]).err = 0 ∧ decode 0#32 = none := by decide

/-- `ERR = 4`, with a write to `CMD`, and with a write to index 0 and to index 17. -/
theorem witness_FaultedEngineDropsCommands : ∀ idx ∈ [18, 0, 17],
    ({ issued [hostWrite idx 1#32] with err := 4 } : State).err ≠ 0 ∧
      ({ issued [hostWrite idx 1#32] with err := 4 } : State).hostIn = hostWrite idx 1#32 :: [] := by decide

/-- A write of `STATUS` to a clear engine, followed by a command. -/
theorem witness_StatusWriteClearsFault :
    (issued [hostWrite 19 7#32, hostCommand (.mul10 .d0)]).hostIn = hostWrite 19 7#32 :: [hostCommand (.mul10 .d0)] ∧
      (issued [hostWrite 19 7#32, hostCommand (.mul10 .d0)]).err = 0 ∧
      (issued [hostWrite 19 7#32, hostCommand (.mul10 .d0)]).ecmd = 0 ∧ (Instr.mul10 .d0).wellFormed = true := by decide

theorem witness_HostReadReturnsRegister : ∀ idx ∈ [0, 15, 16, 20, 21, 31],
    idx < 32 ∧ (issued [hostRead idx]).hostIn = hostRead idx :: [] := by decide

theorem witness_HostWriteStoresWord : ∀ idx ∈ [0, 17, 20, 31],
    idx < 32 ∧ (issued [hostWrite idx 9#32]).hostIn = hostWrite idx 9#32 :: [] := by decide

theorem witness_ReservedIndicesAreInert : ∀ idx ∈ [21, 31], 21 ≤ idx ∧ idx < 32 ∧
    (issued [hostWrite idx 9#32]).hostIn = hostWrite idx 9#32 :: [] ∧
    (issued [hostRead idx]).hostIn = hostRead idx :: [] := by decide

/-- Just inside and just outside the window. -/
theorem witness_OnlyWholeWordAccessesHaveStep :
    (issued [.read 124 4]).hostIn = .read 124 4 :: [] ∧ (HostEvent.read 124 4).hasStep ∧
      (issued [.read 128 4]).hostIn = .read 128 4 :: [] ∧ ¬(HostEvent.read 128 4).hasStep := by
  refine ⟨rfl, ?_, rfl, ?_⟩ <;> simp [HostEvent.hasStep]

theorem witness_EngineNeverHalts : ∀ e rest, (issued [.write 72 4 0x10#32]).hostIn = e :: rest → e.hasStep := by
  intro e rest h
  cases h
  simp [HostEvent.hasStep]

theorem witness_ResetEventClearsFault : (issued [.reset ⟨.zero, .zero, .zero, .zero, 5⟩]).hostIn =
    .reset ⟨.zero, .zero, .zero, .zero, 5⟩ :: [] := rfl

theorem witness_ResetLeavesEngineReady : (Instr.cytod .d0).wellFormed = true := rfl

theorem witness_IdleEngineKeepsState : State.reset.hostIn = [] := rfl

/-- A state that agrees and a step from it that takes a fault. -/
theorem witness_StepKeepsFaultRecord : FaultRecordOk (issued [hostCommand (.div .d0 .d1)]) ∧
    step (issued [hostCommand (.div .d0 .d1)]) = .next { State.reset with err := 2, ecmd := 0x413#32 } :=
  ⟨.inl ⟨rfl, rfl⟩, eq_next_of_nextOf (by decide +kernel)⟩

theorem witness_CommandsKeepRegistersValid : AllValid (issued [hostCommand (.neg .d0 .d1)]) ∧
    (∀ e rest, (issued [hostCommand (.neg .d0 .d1)]).hostIn = e :: rest → e.keepsDecimals = true) ∧
    step (issued [hostCommand (.neg .d0 .d1)]) = .next { State.reset with d0 := ⟨0, 0, 0, 0x80000000#32⟩ } := by
  refine ⟨fun r => by cases r <;> decide, fun e rest h => ?_, eq_next_of_nextOf (by decide +kernel)⟩
  cases h
  decide

/-- The four clauses: a value command, NEG, MAX on equal operands, MUL10. -/
theorem witness_WrittenRegistersAreValid :
    (isValueCommand (.trunc .d0 .d1) = true ∧ exec (.trunc .d0 .d1) State.reset = .next State.reset ∧
      State.reset.err = 0 ∧ writesD (.trunc .d0 .d1) = some .d0) ∧
    exec (.neg .d0 .d1) State.reset = .next { State.reset with d0 := ⟨0, 0, 0, 0x80000000#32⟩ } ∧
    exec (.max .d0 .d1) State.reset = .next State.reset ∧ exec (.mul10 .d0) State.reset = .next State.reset := by
  refine ⟨⟨rfl, eq_next_of_nextOf ?_, rfl, rfl⟩, eq_next_of_nextOf ?_, eq_next_of_nextOf ?_, eq_next_of_nextOf ?_⟩ <;>
    decide +kernel

theorem witness_ZeroDivisorTakesFault : (State.reset.getD .d1).hi = 0 ∧ (State.reset.getD .d1).mid = 0 ∧
    (State.reset.getD .d1).lo = 0 := by decide

/-- A destination with scale 29, the first scale that is not valid, and a divisor that is not zero. -/
theorem witness_InvalidOperandTakesFault :
    isValueCommand (.div .d0 .d1) = true ∧ DReg.d0 ∈ readsD (.div .d0 .d1) ∧
      ((small ⟨1, 0, 0, 0x001D0000#32⟩ (lit false 2 0) 0).getD .d0).valid = false ∧
      ∀ rd rs, (Instr.div .d0 .d1 = .div rd rs ∨ Instr.div .d0 .d1 = .mod rd rs) →
        ((small ⟨1, 0, 0, 0x001D0000#32⟩ (lit false 2 0) 0).getD rs).mant ≠ 0 := by
  refine ⟨rfl, by decide, by decide, fun rd rs h => ?_⟩
  rcases h with h | h <;> cases h
  decide

theorem witness_CommandFrame : ∃ t, exec (.trunc .d0 .d1) State.reset = .next t ∧
    writesD (.trunc .d0 .d1) ≠ some .d1 ∧ writesX (.trunc .d0 .d1) = false := ⟨_, rfl, by decide, rfl⟩

/-- Two states that agree on what R4TOD reads and differ in `XHI` and in every decimal register. -/
theorem witness_ResultDependsOnOperandsOnly :
    (∀ r ∈ readsD (.r4tod .d0), (small .zero .zero 5#64).getD r = (small (lit true 1 0) (lit true 2 0) 0x100000005#64).getD r) ∧
      (small .zero .zero 5#64).xlo = (small (lit true 1 0) (lit true 2 0) 0x100000005#64).xlo ∧
      readsXHI (.r4tod .d0) = false ∧
      (small .zero .zero 5#64).params = (small (lit true 1 0) (lit true 2 0) 0x100000005#64).params := by decide

/-- The value of a literal. -/
theorem value_lit (neg : Bool) {m s : Nat} (hm : m ≤ max96) (hs : s ≤ 28) :
    (lit neg m s).value = (if neg then -1 else 1) * ((m : ℚ) / 10 ^ s) := value_pack hm hs

/-- `MAX96` as a literal. -/
theorem value_max96 : (lit false max96 0).value = (max96 : ℚ) := by
  rw [value_lit _ le_rfl (by decide)]; simp

/-- One as a literal. -/
theorem value_one : (lit false 1 0).value = 1 := by
  rw [value_lit _ (by decide) (by decide)]; simp

theorem fits_max96 : FitsRounded |(max96 : ℚ)| := by
  rw [abs_of_nonneg (by positivity)]
  exact fitsRounded_natCast le_rfl

theorem not_fits_double : ¬FitsRounded |(max96 : ℚ) + max96| := by
  rw [abs_of_nonneg (by positivity)]
  apply not_fitsRounded
  simp only [max96]
  norm_num

/-- An invalid operand; operands whose sum does not fit; operands whose sum is `MAX96` itself. -/
theorem witness_AddResult :
    ((lit false 1 0).valid && (⟨0, 0, 0, 1⟩ : DecReg).valid) = false ∧
    (((lit false max96 0).valid && (lit false max96 0).valid) = true ∧
      ¬FitsRounded |(lit false max96 0).value + (lit false max96 0).value|) ∧
    ((lit false max96 0).valid && (lit false 0 0).valid) = true ∧
      FitsRounded |(lit false max96 0).value + (lit false 0 0).value| := by
  refine ⟨by decide, ⟨by decide, ?_⟩, by decide, ?_⟩
  · rw [value_max96]; exact not_fits_double
  · rw [value_max96, value_lit _ (by decide) (by decide)]
    simpa using fits_max96

/-- As for ADD: a negative second operand makes the difference too large. -/
theorem witness_SubResult :
    ((lit false 1 0).valid && (⟨0, 0, 0, 1⟩ : DecReg).valid) = false ∧
    (((lit false max96 0).valid && (lit true max96 0).valid) = true ∧
      ¬FitsRounded |(lit false max96 0).value - (lit true max96 0).value|) ∧
    ((lit false max96 0).valid && (lit false 0 0).valid) = true ∧
      FitsRounded |(lit false max96 0).value - (lit false 0 0).value| := by
  refine ⟨by decide, ⟨by decide, ?_⟩, by decide, ?_⟩
  · rw [value_max96, value_lit _ (by decide) (by decide)]
    simpa using not_fits_double
  · rw [value_max96, value_lit _ (by decide) (by decide)]
    simpa using fits_max96

/-- The document's examples: `MaxValue * 2` and `MaxValue * 1`. -/
theorem witness_MulResult :
    ((lit false 1 0).valid && (⟨0, 0, 0, 1⟩ : DecReg).valid) = false ∧
    (((lit false max96 0).valid && (lit false 2 0).valid) = true ∧
      ¬FitsRounded |(lit false max96 0).value * (lit false 2 0).value|) ∧
    ((lit false max96 0).valid && (lit false 1 0).valid) = true ∧
      FitsRounded |(lit false max96 0).value * (lit false 1 0).value| := by
  refine ⟨by decide, ⟨by decide, ?_⟩, by decide, ?_⟩
  · rw [value_max96, value_lit _ (by decide) (by decide), abs_of_nonneg (by norm_num [max96])]
    apply not_fitsRounded
    simp only [max96]
    norm_num
  · rw [value_max96, value_one, mul_one]
    exact fits_max96

/-- A zero divisor; an invalid dividend; `MaxValue / 0.1`; `MaxValue / 1`. -/
theorem witness_DivResult :
    (lit true 0 3).mant = 0 ∧ ((lit false 1 0).mant ≠ 0 ∧ ((⟨1, 0, 0, 1⟩ : DecReg).valid && (lit false 1 0).valid) = false) ∧
    ((lit false 1 1).mant ≠ 0 ∧ ((lit false max96 0).valid && (lit false 1 1).valid) = true ∧
      ¬FitsRounded |(lit false max96 0).value / (lit false 1 1).value|) ∧
    (lit false 1 0).mant ≠ 0 ∧ ((lit false max96 0).valid && (lit false 1 0).valid) = true ∧
      FitsRounded |(lit false max96 0).value / (lit false 1 0).value| := by
  refine ⟨by decide, ⟨by decide, by decide⟩, ⟨by decide, by decide, ?_⟩, by decide, by decide, ?_⟩
  · rw [value_max96, value_lit _ (by decide) (by decide), abs_of_nonneg (by norm_num [max96])]
    apply not_fitsRounded
    simp only [max96]
    norm_num
  · rw [value_max96, value_one, div_one]
    exact fits_max96

/-- A zero divisor; an invalid dividend; a smaller dividend; equal magnitudes, where the two last clauses meet. -/
theorem witness_ModResult :
    (lit true 0 3).mant = 0 ∧ ((lit false 1 0).mant ≠ 0 ∧ ((⟨1, 0, 0, 1⟩ : DecReg).valid && (lit false 1 0).valid) = false) ∧
    ((lit false max96 0).mant ≠ 0 ∧ ((lit false 1 0).valid && (lit false max96 0).valid) = true ∧
      |(lit false 1 0).value| < |(lit false max96 0).value|) ∧
    (lit false 1 0).mant ≠ 0 ∧ ((lit true 1 0).valid && (lit false 1 0).valid) = true ∧
      |(lit false 1 0).value| ≤ |(lit true 1 0).value| := by
  refine ⟨by decide, ⟨by decide, by decide⟩, ⟨by decide, by decide, ?_⟩, by decide, by decide, ?_⟩
  · rw [value_max96, value_one]
    simp only [max96]
    norm_num
  · rw [value_one, value_lit _ (by decide) (by decide)]
    norm_num

/-- Valid at scale 28, invalid at scale 29. -/
theorem witness_TruncFloorResult : (lit true max96 28).valid = true ∧ (⟨0, 0, 0, 0x001D0000#32⟩ : DecReg).valid = false := by
  decide

/-- `decimals` 0 and 31; the scale equal to `decimals`, and one above it. -/
theorem witness_RoundResult : 31 < 32 ∧ (lit false 123 2).valid = true ∧ (lit false 123 2).scale ≤ 2 ∧
    1 < (lit false 123 2).scale ∧ (⟨0, 0, 0, 0x001D0000#32⟩ : DecReg).valid = false := by decide

theorem witness_CmpResult : ((lit true 0 28).valid && (lit false 0 0).valid) = true ∧
    ((lit true 0 28).valid && (⟨0, 0, 0, 0x40000000#32⟩ : DecReg).valid) = false := by decide

/-- A zero with sign 1; a negative and a positive value; an invalid register. -/
theorem witness_SignResult : ((lit true 0 1).valid = true ∧ (lit true 0 1).hi = 0 ∧ (lit true 0 1).mid = 0 ∧ (lit true 0 1).lo = 0) ∧
    ((lit true 1 3).valid = true ∧ ¬((lit true 1 3).hi = 0 ∧ (lit true 1 3).mid = 0 ∧ (lit true 1 3).lo = 0) ∧
      (lit true 1 3).flags.getLsbD 31 = true) ∧
    ((lit false 1 3).valid = true ∧ ¬((lit false 1 3).hi = 0 ∧ (lit false 1 3).mid = 0 ∧ (lit false 1 3).lo = 0) ∧
      (lit false 1 3).flags.getLsbD 31 = false) ∧ (⟨0, 0, 0, 1⟩ : DecReg).valid = false := by decide

theorem witness_MaxMinResult : ((lit false 10 1).valid && (lit false 100 2).valid) = true ∧
    ((lit false 10 1).valid && (⟨0, 0, 0, 0x00200000#32⟩ : DecReg).valid) = false := by decide

/-- T-CY-12 and T-CY-20: the most negative currency is in range, `MAX96` is not. -/
theorem witness_DtocyResult : (⟨0, 0, 0, 1⟩ : DecReg).valid = false ∧
    ((lit true 9223372036854775808 4).valid = true ∧
      IsNearestEven (|(lit true 9223372036854775808 4).value| * 10 ^ 4) 9223372036854775808 ∧
      -2 ^ 63 ≤ -(9223372036854775808 : ℤ) ∧ -(9223372036854775808 : ℤ) < 2 ^ 63) ∧
    (lit false 9223372036854775808 4).valid = true ∧
      IsNearestEven (|(lit false 9223372036854775808 4).value| * 10 ^ 4) 9223372036854775808 ∧
      ¬(-2 ^ 63 ≤ (9223372036854775808 : ℤ) ∧ (9223372036854775808 : ℤ) < 2 ^ 63) := by
  refine ⟨by decide, ⟨by decide, ?_, by norm_num, by norm_num⟩, by decide, ?_, by norm_num⟩
  · rw [value_lit _ (by decide) (by decide)]
    norm_num [IsNearestEven, abs_div]
  · rw [value_lit _ (by decide) (by decide)]
    norm_num [IsNearestEven, abs_div]

theorem value64_one : value64 0x3FF0000000000000#64 = 1 := by
  have h1 : exponent64 0x3FF0000000000000#64 = 1023 := by decide
  have h2 : fraction64 0x3FF0000000000000#64 = 0 := by decide
  norm_num [value64, FloatFormat.value, h1, h2, binary64, FloatFormat.bias]

theorem value32_one : value32 0x3F800000#32 = 1 := by
  have h1 : exponent32 0x3F800000#32 = 127 := by decide
  have h2 : fraction32 0x3F800000#32 = 0 := by decide
  norm_num [value32, FloatFormat.value, h1, h2, binary32, FloatFormat.bias]

/-- A machine whose floating-point parameters are not the defaults. -/
def withOther : State := State.afterReset ⟨.other 0, .other 0, ⟨3, 2, 1, 0⟩⟩ ⟨.zero, .zero, .zero, .zero, 0⟩

/-- Infinity is rejected, one is converted, in both formats; both settings of `FROM_FLOAT_SCALING`. -/
theorem witness_FromFloatResult : exponent64 0x7FF0000000000000#64 = 2047 ∧
    ¬(exponent64 0x3FF0000000000000#64 = 2047 ∨ 2 ^ 96 ≤ value64 0x3FF0000000000000#64) ∧
    exponent32 0x7F800000#32 = 255 ∧ ¬(exponent32 0x3F800000#32 = 255 ∨ 2 ^ 96 ≤ value32 0x3F800000#32) ∧
    State.reset.params.scaling = .exactRational ∧ withOther.params.scaling = .other 0 := by
  refine ⟨by decide, ?_, by decide, ?_, rfl, rfl⟩
  · have h : exponent64 0x3FF0000000000000#64 = 1023 := by decide
    rw [value64_one, h]
    norm_num
  · have h : exponent32 0x3F800000#32 = 127 := by decide
    rw [value32_one, h]
    norm_num

/-- The exponents at the thresholds: 1119, 1118, 927 and 223, 222, 31 (T-CVT-9, 10, 18, 30, 31, 37). -/
theorem witness_FloatRejectionThresholds : exponent64 0x45F0000000000000#64 = 1119 ∧
    exponent64 0x45EFFFFFFFFFFFFF#64 = 1118 ∧ exponent64 0x39F0000000000000#64 = 927 ∧
    exponent32 0x6F800000#32 = 223 ∧ exponent32 0x6F7FFFFF#32 = 222 ∧ exponent32 0x0F800000#32 = 31 := by decide

/-- A valid and an invalid register, and both settings of `F64_OPS`. -/
theorem witness_Dtor8Result : (lit true max96 28).valid = true ∧ (⟨0, 0, 0, 0x00000001#32⟩ : DecReg).valid = false ∧
    State.reset.params.f64 = .nearestEven ∧ withOther.params.f64 = .other 0 := by decide

theorem witness_Dtor4Result : (lit true max96 28).valid = true ∧ (⟨0, 0, 0, 0x01000000#32⟩ : DecReg).valid = false ∧
    State.reset.params.f64 = .nearestEven ∧ withOther.params.f64 = .other 0 := by decide

/-- T-DIG-7 and T-DIG-8: the largest mantissa that fits and the next. -/
theorem witness_Mul10Result : (lit false 7922816251426433759354395033 0).mant ≤ 7922816251426433759354395033 ∧
    7922816251426433759354395033 < (lit false 7922816251426433759354395034 0).mant := by decide

/-- T-DIG-14 and T-DIG-12: `MAX96` plus 0 and plus 1. -/
theorem witness_Addi32Result : (lit false max96 0).mant + (0x100000000#64).toNat % 2 ^ 32 ≤ max96 ∧
    max96 < (lit false max96 0).mant + (1#64).toNat % 2 ^ 32 := by decide

theorem witness_ScaleResultEqualsCompact : 2 ^ 192 - 1 < 2 ^ 192 ∧ 56 ≤ 56 := by decide

theorem witness_ChunkedDivisionDecidesRounding : 1 ≤ 1 := le_rfl

theorem witness_ChunkedRoundEqualsClosedForm : 1 ≤ 28 := by decide

/-- The largest operand and the smallest scale. -/
theorem witness_DecAddSubEqualsClosedForm : (⟨max96, 28, true⟩ : Dec).InRange ∧ (⟨1, 0, false⟩ : Dec).InRange :=
  ⟨⟨le_rfl, le_rfl⟩, by decide, by decide⟩

theorem witness_VarDecMulEqualsClosedForm : (⟨max96, 28, true⟩ : Dec).InRange ∧ (⟨0, 28, true⟩ : Dec).InRange :=
  ⟨⟨le_rfl, le_rfl⟩, by decide, by decide⟩

/-- The largest dividend and a divisor that is not zero. -/
theorem witness_VarDecDivEqualsClosedForm : (⟨max96, 28, true⟩ : Dec).InRange ∧ (⟨1, 0, false⟩ : Dec).InRange ∧
    (⟨1, 0, false⟩ : Dec).mant ≠ 0 :=
  ⟨⟨le_rfl, le_rfl⟩, ⟨by decide, by decide⟩, by decide⟩

theorem witness_NormaliseRemovesTrailingZeros : max96 ≤ max96 ∧ 28 ≤ 28 := ⟨le_rfl, le_rfl⟩

/-- A divisor of one, and a dividend at the edge of the precondition of `divmod64by32` (T-PRM-4). -/
theorem witness_MultiplyDividePrimitivesExact : (0xFFFFFFFF#32 : Word) ≠ 0 ∧
    (0xFFFFFFFE00000001#64).toNat / (0xFFFFFFFF#32).toNat < 2 ^ 32 := by decide

theorem witness_CarryPrimitivesExact : (wideOf 3 max96).length = (wideOf 3 1).length ∧ wideValue (wideOf 3 1) ≠ 0 ∧
    (wideOf 3 max96).length = 3 ∧ 1 ≤ 9 := by decide

/-- The smallest divisor; T-PRM-14 and T-PRM-16; a dividend of `MAX96` and one beyond it. -/
theorem witness_WideDivisionExact :
    (2 ^ 32 ≤ 2 ^ 32 ∧ 2 ^ 32 < 2 ^ 64 ∧ (2 ^ 64 - 1) / 2 ^ 32 < 2 ^ 32) ∧
    (2 ^ 32 ≤ 0xFFFFFFFF00000000 ∧ 0xFFFFFFFF00000000 < 2 ^ 64 ∧ 0xFFFFFFFEFFFFFFFF12345678 / 2 ^ 32 < 0xFFFFFFFF00000000) ∧
    (2 ^ 64 ≤ max96 ∧ max96 < 2 ^ 96 ∧ 0xFFFFFFFFFFFFFFFFFFFFFFFE00000000 / 2 ^ 32 < max96) ∧
    max96 < 2 ^ 96 ∧ 2 ^ 96 < max96 * 10 ^ 9 := by decide

theorem witness_FloatRoundingIsNearestEven : 0 < 3 ∧ ((1 : ℕ) : ℚ) / (3 : ℕ) ≤ 2 ^ 100 ∧
    ((7 : ℕ) : ℚ) / (3 : ℕ) ≤ 2 ^ 1000 := by
  refine ⟨by decide, by norm_num, le_trans (b := (2 : ℚ) ^ 2) (by norm_num) (pow_le_pow_right₀ (by norm_num) (by norm_num))⟩

theorem witness_TruncateReconstructs : (⟨123456, 3, true⟩ : Dec).InRange := ⟨by decide, by decide⟩

end Sys2Proof.Tests
end

