-- ==== Sys2Proof/Proofs/Window.lean ====
section
/-! PROOFS. The register window (spec/20_memory.md R51 to R56): what each index reads and which writes are ignored, which
accesses are whole words, what a step does with a host event, and that every access the window has gets a next state. -/

namespace Sys2Proof.Proofs

open Sys2Proof.Machine Sys2Proof.Config Sys2Proof.Laws

/-! ### What each index reads (R51) -/

/-- Word `j` of `D[r]` stands at index `4 * r + j`. -/
theorem windowReg_four_mul_index_add (r : DReg) {j : ℕ} (hj : j < 4) : windowReg (4 * r.index + j) = r := by
  have hdiv : (4 * r.index + j) / 4 = r.index := by omega
  rw [windowReg, hdiv]
  cases r <;> rfl

theorem regRead_four_mul_index_add (s : State) (r : DReg) {j : ℕ} (hj : j < 4) :
    regRead (4 * r.index + j) s = (s.getD r).word j := by
  have hidx : 4 * r.index + j < 16 := by cases r <;> simp only [DReg.index] <;> omega
  have hmod : (4 * r.index + j) % 4 = j := by omega
  rw [regRead, if_pos hidx, windowReg_four_mul_index_add r hj, hmod]

@[simp] theorem regRead_xlo (s : State) : regRead 16 s = s.xlo := rfl
@[simp] theorem regRead_xhi (s : State) : regRead 17 s = s.xhi := rfl
@[simp] theorem regRead_cmd (s : State) : regRead 18 s = 0 := rfl
@[simp] theorem regRead_status (s : State) : regRead 19 s = s.status := rfl
@[simp] theorem regRead_ecmd (s : State) : regRead 20 s = s.ecmd := rfl

/-- From index 21 on, every comparison of the address map fails (R54). -/
theorem regRead_of_reserved (s : State) {idx : ℕ} (h : 21 ≤ idx) : regRead idx s = 0 := by
  unfold regRead idxXLO idxXHI idxSTATUS idxECMD
  rw [if_neg (by omega), if_neg (by omega), if_neg (by omega), if_neg (by omega), if_neg (by omega)]

theorem regWrite_of_reserved (v : Word) (s : State) {idx : ℕ} (h : 21 ≤ idx) : regWrite idx v s = .next s := by
  unfold regWrite idxXLO idxXHI idxCMD idxSTATUS
  rw [if_neg (by omega), if_neg (by omega), if_neg (by omega), if_neg (by omega), if_neg (by omega)]

/-- The host's queue is no part of the window. -/
@[simp] theorem regRead_hostIn (idx : ℕ) (s : State) (l : List HostEvent) :
    regRead idx { s with hostIn := l } = regRead idx s := by
  simp only [regRead, getD_hostIn, State.xlo, State.xhi, State.status]

/-- `STATUS` zero-extends the three bits of `ERR` (R28). -/
theorem toNat_status (s : State) : s.status.toNat = s.err.toNat :=
  BitVec.toNat_setWidth_of_le (by decide)

/-! ### Which accesses are whole words of the window (R52) -/

theorem wholeWord_iff (offset size : ℕ) :
    wholeWord offset size = true ↔ size = 4 ∧ 4 ∣ offset ∧ offset < 128 := by
  have hwords : windowWords = 32 := rfl
  simp only [wholeWord, Bool.and_eq_true, beq_iff_eq, decide_eq_true_eq]
  omega

theorem wholeWord_four_mul {idx : ℕ} (h : idx < 32) : wholeWord (4 * idx) 4 = true :=
  (wholeWord_iff _ _).2 ⟨rfl, Dvd.intro _ rfl, by omega⟩

/-! ### What a step does with a host event (R55 to R57) -/

theorem step_of_hostIn_cons {s : State} {e : HostEvent} {rest : List HostEvent} (h : s.hostIn = e :: rest) :
    step s = serve e { s with hostIn := rest } := by
  simp only [step, serveNext, h]

theorem step_hostRead {s : State} {idx : ℕ} {rest : List HostEvent} (hidx : idx < 32)
    (h : s.hostIn = hostRead idx :: rest) :
    step s = .next { s with hostIn := rest, returned := s.returned ++ [regRead idx s] } := by
  rw [step_of_hostIn_cons h, hostRead, serve, if_pos (wholeWord_four_mul hidx),
    Nat.mul_div_cancel_left idx (by decide), regRead_hostIn]

theorem step_hostWrite {s : State} {idx : ℕ} {v : Word} {rest : List HostEvent} (hidx : idx < 32)
    (h : s.hostIn = hostWrite idx v :: rest) : step s = regWrite idx v { s with hostIn := rest } := by
  rw [step_of_hostIn_cons h, hostWrite, serve, if_pos (wholeWord_four_mul hidx),
    Nat.mul_div_cancel_left idx (by decide)]

/-! ### Commands and accesses of the window have a next state (R216) -/

theorem orOverflow_next (w : Word) (s : State) (r : Option State) : ∃ t, orOverflow w s r = .next t := by
  obtain ⟨t, -, h⟩ | ⟨-, h⟩ := orOverflow_cases w s r
  · exact ⟨t, h⟩
  · exact ⟨_, h⟩

theorem valueCommand_next (w : Word) (s : State) (l : List DecReg) (r : Option State) :
    ∃ t, valueCommand w s l r = .next t := by
  obtain ⟨-, h⟩ | ⟨-, t, -, h⟩ | ⟨-, -, h⟩ := valueCommand_cases w s l r
  · exact ⟨_, h⟩
  · exact ⟨t, h⟩
  · exact ⟨_, h⟩

theorem dividingCommand_next (w : Word) (s : State) (a d : DecReg) (r : Option State) :
    ∃ t, dividingCommand w s a d r = .next t := by
  obtain ⟨-, h⟩ | ⟨-, h⟩ := dividingCommand_cases w s a d r
  · exact ⟨_, h⟩
  · exact h ▸ valueCommand_next w s [a, d] r

/-- Every command has a next state, by the frame it runs in: the value commands, the two that divide, those that can only
overflow, and those that never fault. -/
theorem exec_next (i : Instr) (s : State) : ∃ t, exec i s = .next t := by
  cases i with
  | add | sub | mul | trunc | floor | round | cmp | sign | max | min | dtocy | dtor8 | dtor4 =>
    exact valueCommand_next _ _ _ _
  | div | mod => exact dividingCommand_next _ _ _ _ _
  | r8tod | r4tod | mul10 | addi32 => exact orOverflow_next _ _ _
  | neg | abs | cytod | divmod1e9 => exact ⟨_, rfl⟩

theorem execute_next (w : Word) (s : State) : ∃ t, execute w s = .next t := by
  unfold execute
  split
  · exact exec_next _ s
  · exact ⟨_, rfl⟩

/-- Only a write of `CMD` does more than update the state, and it runs a command or is dropped (R56). -/
theorem regWrite_next (idx : ℕ) (v : Word) (s : State) : ∃ t, regWrite idx v s = .next t := by
  unfold regWrite
  split_ifs
  · exact ⟨_, rfl⟩
  · exact ⟨_, rfl⟩
  · exact ⟨_, rfl⟩
  · exact execute_next v s
  · exact ⟨s, rfl⟩
  · exact ⟨_, rfl⟩
  · exact ⟨s, rfl⟩

theorem serve_next_of_hasStep {e : HostEvent} (h : e.hasStep) (s : State) : ∃ t, serve e s = .next t := by
  cases e with
  | read offset size => exact ⟨_, if_pos ((wholeWord_iff _ _).2 h)⟩
  | write offset size v =>
    rw [serve, if_pos ((wholeWord_iff _ _).2 h)]
    exact regWrite_next _ v s
  | reset w => exact ⟨_, rfl⟩

theorem serve_of_not_hasStep {e : HostEvent} (h : ¬e.hasStep) (s : State) :
    serve e s = .refused .notAWholeWindowWord := by
  cases e with
  | read offset size => exact if_neg (mt (wholeWord_iff _ _).1 h)
  | write offset size v => exact if_neg (mt (wholeWord_iff _ _).1 h)
  | reset w => exact absurd trivial h

/-! ### The obligations -/

/-- Settles O10, from the step on a read and the value of each index. -/
theorem hostReadReturnsRegister : Obligations.HostReadReturnsRegister := by
  refine ⟨fun s idx rest hidx h => step_hostRead hidx h, fun s r => ?_, fun s => ?_, fun s idx h _ =>
    regRead_of_reserved s h⟩
  · exact ⟨regRead_four_mul_index_add s r (j := 0) (by decide), regRead_four_mul_index_add s r (j := 1) (by decide),
      regRead_four_mul_index_add s r (j := 2) (by decide), regRead_four_mul_index_add s r (j := 3) (by decide)⟩
  · rw [regRead_xlo, regRead_xhi, regRead_status]
    exact ⟨toNat_lo32 s.x, toNat_hi32 s.x, regRead_cmd s, toNat_status s, regRead_ecmd s⟩

/-- Settles O12, from the step on an access and the two rules about reserved indices. -/
theorem reservedIndicesAreInert : Obligations.ReservedIndicesAreInert := by
  intro s idx v rest hlo hhi
  refine ⟨regRead_of_reserved s hlo, fun h => ?_, fun h => ?_⟩
  · rw [step_hostWrite hhi h, regWrite_of_reserved v _ hlo]
  · rw [step_hostRead hhi h, regRead_of_reserved s hlo]

/-- Settles O13: an event without a step is refused, and one with a step has a next state, because no command and no
window write refuses. -/
theorem onlyWholeWordAccessesHaveStep : Obligations.OnlyWholeWordAccessesHaveStep := by
  intro s e rest h
  rw [step_of_hostIn_cons h]
  constructor
  · intro hrefused hstep
    obtain ⟨t, ht⟩ := serve_next_of_hasStep hstep { s with hostIn := rest }
    simp [ht] at hrefused
  · intro hstep
    exact serve_of_not_hasStep hstep _

end Sys2Proof.Proofs
end

