-- ==== Sys2Proof/Proofs/Primitives.lean ====
section
/-! PROOFS. The word-level primitives (spec/40_primitives.md R90 to R99, R107): each loop over the words of a wide integer
keeps one equation between the values it reads, the values it writes and the carry that leaves its top word. -/

namespace Sys2Proof.Proofs

open Sys2Proof.Machine Sys2Proof.Config Sys2Proof.Laws

/-! ### The value of a wide integer (R94) -/

@[simp] theorem wideValue_nil : wideValue [] = 0 := rfl

theorem wideValue_cons (w : Word) (ws : List Word) : wideValue (w :: ws) = w.toNat + 2 ^ 32 * wideValue ws := rfl

/-- The modulus of an array grows by one word's modulus with each word. -/
theorem two_pow_words_succ (n : ℕ) : 2 ^ (32 * (n + 1)) = 2 ^ 32 * 2 ^ (32 * n) := by
  rw [Nat.mul_succ, Nat.add_comm, Nat.pow_add]

theorem wideValue_lt (ws : List Word) : wideValue ws < 2 ^ (32 * ws.length) := by
  induction ws with
  | nil => exact Nat.one_pos
  | cons w ws ih =>
    have hw := w.isLt
    rw [wideValue_cons, List.length_cons, two_pow_words_succ]
    omega

theorem wideValue_append (as bs : List Word) :
    wideValue (as ++ bs) = wideValue as + 2 ^ (32 * as.length) * wideValue bs := by
  induction as with
  | nil => simp
  | cons a as ih =>
    rw [List.cons_append, wideValue_cons, wideValue_cons, ih, List.length_cons, two_pow_words_succ]
    ring

@[simp] theorem wideValue_map_zero {α : Type} (l : List α) : wideValue (l.map fun _ => (0 : Word)) = 0 := by
  induction l with
  | nil => rfl
  | cons x l ih => rw [List.map_cons, wideValue_cons, ih]; rfl

/-- A number and its bitwise complement fill the array with ones. -/
theorem wideValue_map_not (ws : List Word) :
    wideValue (ws.map (~~~ ·)) + wideValue ws + 1 = 2 ^ (32 * ws.length) := by
  induction ws with
  | nil => rfl
  | cons w ws ih =>
    have hw := w.isLt
    rw [List.map_cons, wideValue_cons, wideValue_cons, List.length_cons, two_pow_words_succ, BitVec.toNat_not]
    omega

/-- A 64-bit value is the wide integer of its two halves. -/
theorem wideValue_lo32_hi32 (x : DWord) : wideValue [lo32 x, hi32 x] = x.toNat := by
  rw [wideValue_cons, wideValue_cons, wideValue_nil, toNat_lo32, toNat_hi32]
  omega

/-- What leaves an array is zero exactly when the exact result `N` fits the array. -/
theorem carry_eq_zero_iff {V P c N : ℕ} (hV : V < P) (h : V + P * c = N) : c = 0 ↔ N < P := by
  constructor
  · rintro rfl
    omega
  · intro hN
    by_contra hc
    have hP : P ≤ P * c := Nat.le_mul_of_pos_right P (Nat.pos_of_ne_zero hc)
    omega

/-! ### Addition, subtraction and negation (R107) -/

theorem toNat_decide (p : Prop) [Decidable p] : (decide p).toNat = if p then 1 else 0 := by
  split_ifs with h <;> simp [h]

theorem addWords_cons (a b : Word) (as bs : List Word) (c : Bool) :
    addWords (a :: as) (b :: bs) c =
      (BitVec.ofNat 32 (a.toNat + b.toNat + c.toNat) ::
          (addWords as bs (decide (2 ^ 32 ≤ a.toNat + b.toNat + c.toNat))).1,
        (addWords as bs (decide (2 ^ 32 ≤ a.toNat + b.toNat + c.toNat))).2) := rfl

theorem subWords_cons (a b : Word) (as bs : List Word) (c : Bool) :
    subWords (a :: as) (b :: bs) c =
      (BitVec.ofNat 32 (2 ^ 32 + a.toNat - b.toNat - c.toNat) ::
          (subWords as bs (decide (2 ^ 32 + a.toNat - b.toNat - c.toNat < 2 ^ 32))).1,
        (subWords as bs (decide (2 ^ 32 + a.toNat - b.toNat - c.toNat < 2 ^ 32))).2) := rfl

/-- One word of an addition with carry. -/
theorem addWord_exact (a b : Word) (c : Bool) :
    (BitVec.ofNat 32 (a.toNat + b.toNat + c.toNat)).toNat +
        2 ^ 32 * (decide (2 ^ 32 ≤ a.toNat + b.toNat + c.toNat)).toNat = a.toNat + b.toNat + c.toNat := by
  have ha := a.isLt
  have hb := b.isLt
  have hc := c.toNat_le
  rw [BitVec.toNat_ofNat, toNat_decide]
  split_ifs <;> omega

/-- One word of a subtraction with borrow. -/
theorem subWord_exact (a b : Word) (c : Bool) :
    (BitVec.ofNat 32 (2 ^ 32 + a.toNat - b.toNat - c.toNat)).toNat + b.toNat + c.toNat =
      a.toNat + 2 ^ 32 * (decide (2 ^ 32 + a.toNat - b.toNat - c.toNat < 2 ^ 32)).toNat := by
  have ha := a.isLt
  have hb := b.isLt
  have hc := c.toNat_le
  rw [BitVec.toNat_ofNat, toNat_decide]
  split_ifs <;> omega

theorem length_addWords {as bs : List Word} (h : as.length = bs.length) (c : Bool) :
    (addWords as bs c).1.length = as.length := by
  induction as generalizing bs c with
  | nil => rfl
  | cons a as ih =>
    cases bs with
    | nil => cases h
    | cons b bs => rw [addWords_cons, List.length_cons, List.length_cons, ih (Nat.succ.inj h)]

theorem wideValue_addWords {as bs : List Word} (h : as.length = bs.length) (c : Bool) :
    wideValue (addWords as bs c).1 + 2 ^ (32 * as.length) * (addWords as bs c).2.toNat =
      wideValue as + wideValue bs + c.toNat := by
  induction as generalizing bs c with
  | nil =>
    cases bs with
    | nil => simp [addWords]
    | cons b bs => cases h
  | cons a as ih =>
    cases bs with
    | nil => cases h
    | cons b bs =>
      have hword := addWord_exact a b c
      have hrest := ih (Nat.succ.inj h) (decide (2 ^ 32 ≤ a.toNat + b.toNat + c.toNat))
      simp only [addWords_cons, wideValue_cons, List.length_cons, two_pow_words_succ]
      linear_combination hword + 2 ^ 32 * hrest

theorem wideValue_subWords {as bs : List Word} (h : as.length = bs.length) (c : Bool) :
    wideValue (subWords as bs c).1 + wideValue bs + c.toNat =
      wideValue as + 2 ^ (32 * as.length) * (subWords as bs c).2.toNat := by
  induction as generalizing bs c with
  | nil =>
    cases bs with
    | nil => simp [subWords]
    | cons b bs => cases h
  | cons a as ih =>
    cases bs with
    | nil => cases h
    | cons b bs =>
      have hword := subWord_exact a b c
      have hrest := ih (Nat.succ.inj h) (decide (2 ^ 32 + a.toNat - b.toNat - c.toNat < 2 ^ 32))
      simp only [subWords_cons, wideValue_cons, List.length_cons, two_pow_words_succ]
      linear_combination hword + 2 ^ 32 * hrest

/-- A sum that fits the array is the value of the words written. -/
theorem wideValue_addWords_of_lt {as bs : List Word} (h : as.length = bs.length) {c : Bool}
    (hfit : wideValue as + wideValue bs + c.toNat < 2 ^ (32 * as.length)) :
    wideValue (addWords as bs c).1 = wideValue as + wideValue bs + c.toNat := by
  have hsum := wideValue_addWords h c
  have hlt := wideValue_lt (addWords as bs c).1
  rw [length_addWords h] at hlt
  rwa [(carry_eq_zero_iff hlt hsum).2 hfit, Nat.mul_zero, Nat.add_zero] at hsum

/-- Complement and add 1 is exact for every number but zero, whose negation leaves the array. -/
theorem wideValue_negWords {ws : List Word} (h : wideValue ws ≠ 0) :
    wideValue (negWords ws) + wideValue ws = 2 ^ (32 * ws.length) := by
  have hnot := wideValue_map_not ws
  have hlen : (ws.map (~~~ ·)).length = (ws.map fun _ => (0 : Word)).length := by simp
  have hsum := wideValue_addWords_of_lt hlen (c := true) <| by
    rw [wideValue_map_zero, List.length_map, Bool.toNat_true]
    omega
  rw [wideValue_map_zero, Bool.toNat_true] at hsum
  rw [negWords, hsum]
  omega

/-! ### Products (R90, R92, R98) -/

theorem toNat_mul32 (a b : Word) : (mul32 a b).toNat = a.toNat * b.toNat := by
  have hlt : a.toNat * b.toNat < 2 ^ 32 * 2 ^ 32 := Nat.mul_lt_mul'' a.isLt b.isLt
  rw [mul32, BitVec.toNat_mul, BitVec.toNat_setWidth_of_le (by decide), BitVec.toNat_setWidth_of_le (by decide)]
  exact Nat.mod_eq_of_lt hlt

/-- A product of two words leaves room for a carry word in 64 bits. -/
theorem toNat_mul32_add (a b c : Word) : (mul32 a b + c.setWidth 64).toNat = a.toNat * b.toNat + c.toNat := by
  have hab : a.toNat * b.toNat ≤ (2 ^ 32 - 1) * (2 ^ 32 - 1) :=
    Nat.mul_le_mul (Nat.le_sub_one_of_lt a.isLt) (Nat.le_sub_one_of_lt b.isLt)
  have hc := c.isLt
  rw [BitVec.toNat_add, toNat_mul32, BitVec.toNat_setWidth_of_le (by decide)]
  omega

theorem mulWords_cons (a : Word) (as : List Word) (m c : Word) :
    mulWords (a :: as) m c =
      (lo32 (mul32 a m + c.setWidth 64) :: (mulWords as m (hi32 (mul32 a m + c.setWidth 64))).1,
        (mulWords as m (hi32 (mul32 a m + c.setWidth 64))).2) := rfl

theorem length_mulWords (as : List Word) (m c : Word) : (mulWords as m c).1.length = as.length := by
  induction as generalizing c with
  | nil => rfl
  | cons a as ih => rw [mulWords_cons, List.length_cons, List.length_cons, ih]

theorem wideValue_mulWords (as : List Word) (m c : Word) :
    wideValue (mulWords as m c).1 + 2 ^ (32 * as.length) * (mulWords as m c).2.toNat =
      wideValue as * m.toNat + c.toNat := by
  induction as generalizing c with
  | nil => simp [mulWords]
  | cons a as ih =>
    have hword : (lo32 (mul32 a m + c.setWidth 64)).toNat + 2 ^ 32 * (hi32 (mul32 a m + c.setWidth 64)).toNat =
        a.toNat * m.toNat + c.toNat := by
      rw [toNat_lo32, toNat_hi32, toNat_mul32_add, Nat.mod_add_div]
    have hrest := ih (hi32 (mul32 a m + c.setWidth 64))
    simp only [mulWords_cons, wideValue_cons, List.length_cons, two_pow_words_succ]
    linear_combination hword + 2 ^ 32 * hrest

/-- The row of partial products for one word, its overflow word kept as the top word, has the exact value. -/
theorem wideValue_mulWords_row (as : List Word) (m : Word) :
    wideValue ((mulWords as m 0).1 ++ [(mulWords as m 0).2]) = wideValue as * m.toNat := by
  have h := wideValue_mulWords as m 0
  rw [wideValue_append, length_mulWords, wideValue_cons, wideValue_nil, Nat.mul_zero, Nat.add_zero, h]
  rfl

/-- The bottom word of a row is done; the words above it are added to the product by the remaining words. -/
theorem mulWide_cons {as bs ws : List Word} {b w : Word}
    (h : (mulWords as b 0).1 ++ [(mulWords as b 0).2] = w :: ws) :
    mulWide as (b :: bs) = w :: (addWords (ws ++ bs.map fun _ => 0) (mulWide as bs) false).1 := by
  simp only [mulWide, h]

/-- The schoolbook product is exact: no row's sum leaves the array, because the whole product fits it. -/
theorem length_wideValue_mulWide (as bs : List Word) :
    (mulWide as bs).length = as.length + bs.length ∧ wideValue (mulWide as bs) = wideValue as * wideValue bs := by
  induction bs with
  | nil => exact ⟨List.length_map .., wideValue_map_zero as⟩
  | cons b bs ih =>
    obtain ⟨ihlen, ihval⟩ := ih
    obtain ⟨w, ws, hrow⟩ := List.exists_cons_of_ne_nil
      (List.append_ne_nil_of_right_ne_nil (mulWords as b 0).1 (List.cons_ne_nil (mulWords as b 0).2 []))
    have hws : ws.length = as.length := by
      simpa [length_mulWords] using (congrArg List.length hrow).symm
    have hlen : (ws ++ bs.map fun _ => (0 : Word)).length = (mulWide as bs).length := by
      rw [List.length_append, List.length_map, hws, ihlen]
    have hval : w.toNat + 2 ^ 32 * wideValue ws = wideValue as * b.toNat := by
      rw [← wideValue_cons, ← hrow, wideValue_mulWords_row]
    have hpad : wideValue (ws ++ bs.map fun _ => (0 : Word)) = wideValue ws := by
      rw [wideValue_append, wideValue_map_zero, Nat.mul_zero, Nat.add_zero]
    have hprod : w.toNat + 2 ^ 32 * (wideValue ws + wideValue as * wideValue bs) =
        wideValue as * wideValue (b :: bs) := by
      rw [wideValue_cons]
      linear_combination hval
    have hbound : wideValue as * wideValue (b :: bs) < 2 ^ 32 * 2 ^ (32 * (as.length + bs.length)) := by
      rw [← two_pow_words_succ, Nat.add_assoc, Nat.mul_add, Nat.pow_add]
      exact Nat.mul_lt_mul'' (wideValue_lt as) (wideValue_lt (b :: bs))
    have hsum := wideValue_addWords_of_lt hlen (c := false) <| by
      rw [hlen, ihlen, hpad, ihval, Bool.toNat_false]
      omega
    rw [mulWide_cons hrow]
    constructor
    · rw [List.length_cons, length_addWords hlen, hlen, ihlen, List.length_cons, Nat.add_assoc]
    · rw [wideValue_cons, hsum, hpad, ihval, Bool.toNat_false, Nat.add_zero, hprod]

theorem mul64x64to128_exact (a b : DWord) :
    (mul64x64to128 a b).1.toNat * 2 ^ 64 + (mul64x64to128 a b).2.toNat = a.toNat * b.toNat := by
  have hlt : a.toNat * b.toNat < 2 ^ 64 * 2 ^ 64 := Nat.mul_lt_mul'' a.isLt b.isLt
  obtain ⟨-, hval⟩ := length_wideValue_mulWide [lo32 a, hi32 a] [lo32 b, hi32 b]
  rw [wideValue_lo32_hi32, wideValue_lo32_hi32] at hval
  simp only [mul64x64to128, hval, BitVec.toNat_ofNat]
  omega

/-! ### Division by a word (R91, R95) -/

theorem toNat_pos_of_ne_zero {d : Word} (hd : d ≠ 0) : 0 < d.toNat :=
  Nat.pos_of_ne_zero fun h => hd (BitVec.eq_of_toNat_eq h)

/-- The precondition of `divmod64by32` says that the quotient fits a word (R91). -/
theorem hi32_lt_iff (n : DWord) {d : Word} (hd : d ≠ 0) : hi32 n < d ↔ n.toNat / d.toNat < 2 ^ 32 := by
  rw [BitVec.lt_def, toNat_hi32, Nat.div_lt_iff_lt_mul (by decide), Nat.div_lt_iff_lt_mul (toNat_pos_of_ne_zero hd),
    Nat.mul_comm]

theorem divmod64by32_exact {n : DWord} {d : Word} (hd : d ≠ 0) (h : hi32 n < d) :
    ∃ q r, divmod64by32 n d = some (q, r) ∧ q.toNat = n.toNat / d.toNat ∧ r.toNat = n.toNat % d.toNat := by
  have hq := (hi32_lt_iff n hd).1 h
  have hr := (Nat.mod_lt n.toNat (toNat_pos_of_ne_zero hd)).trans d.isLt
  refine ⟨_, _, if_pos h, ?_, ?_⟩
  · rw [toNat_lo32, BitVec.toNat_udiv, BitVec.toNat_setWidth_of_le (by decide), Nat.mod_eq_of_lt hq]
  · rw [toNat_lo32, BitVec.toNat_umod, BitVec.toNat_setWidth_of_le (by decide), Nat.mod_eq_of_lt hr]

/-- One step of the long division: the quotient and remainder of `a + B * N` from those of `N`. -/
theorem longDivision_step (a B N : ℕ) {d : ℕ} (hd : 0 < d) :
    (a + B * N) / d = (N % d * B + a) / d + B * (N / d) ∧ (a + B * N) % d = (N % d * B + a) % d := by
  have hN : a + B * N = N % d * B + a + d * (B * (N / d)) := by
    linear_combination B * (Nat.mod_add_div N d).symm
  rw [hN]
  exact ⟨Nat.add_mul_div_left _ _ hd, Nat.add_mul_mod_self_left _ _ _⟩

/-- The step of the long division for any word divider `f`. It is about a variable because the kernel, given
`divmod64by32` itself, would evaluate the guard on symbolic words. -/
theorem divisionStep_eq_some {f : DWord → Word → Option (Word × Word)} {a d q r r' : Word} {qs : List Word}
    (hword : f (join64 r a) d = some (q, r')) :
    (match some (qs, r) with
      | none => none
      | some (qs, r) =>
        match f (join64 r a) d with
        | none => none
        | some (q, r') => some (q :: qs, r')) = some (q :: qs, r') := by
  simp only
  rw [hword]

theorem div96by32_cons {a d q r r' : Word} {as qs : List Word} (hdiv : div96by32 as d = some (qs, r))
    (hword : divmod64by32 (join64 r a) d = some (q, r')) : div96by32 (a :: as) d = some (q :: qs, r') := by
  rw [div96by32, hdiv]
  exact divisionStep_eq_some hword

/-- Every step meets the precondition of `divmod64by32`, because the running remainder is below the divisor (R95). -/
theorem div96by32_exact (num : List Word) {d : Word} (hd : d ≠ 0) :
    ∃ qs r, div96by32 num d = some (qs, r) ∧ qs.length = num.length ∧
      wideValue qs = wideValue num / d.toNat ∧ r.toNat = wideValue num % d.toNat := by
  have hpos := toNat_pos_of_ne_zero hd
  induction num with
  | nil => exact ⟨[], 0, rfl, rfl, (Nat.zero_div _).symm, (Nat.zero_mod _).symm⟩
  | cons a as ih =>
    obtain ⟨qs, r, hdiv, hlen, hqs, hr⟩ := ih
    have hpre : hi32 (join64 r a) < d := by
      rw [hi32_join64, BitVec.lt_def, hr]
      exact Nat.mod_lt _ hpos
    obtain ⟨q, r', hword, hq, hr'⟩ := divmod64by32_exact hd hpre
    obtain ⟨hquot, hrem⟩ := longDivision_step a.toNat (2 ^ 32) (wideValue as) hpos
    rw [toNat_join64, hr] at hq hr'
    refine ⟨q :: qs, r', div96by32_cons hdiv hword, congrArg Nat.succ hlen, ?_, ?_⟩
    · rw [wideValue_cons, wideValue_cons, hquot, hq, hqs]
    · rw [wideValue_cons, hrem, hr']

/-! ### Scaling up by a power of ten and adding a word (R98, R99) -/

theorem wideValue_increaseScale (as : List Word) (p : Word) :
    wideValue (increaseScale as p).1 + 2 ^ (32 * as.length) * (increaseScale as p).2.toNat =
      wideValue as * p.toNat :=
  wideValue_mulWords as p 0

theorem length_increaseScale (as : List Word) (p : Word) : (increaseScale as p).1.length = as.length :=
  length_mulWords as p 0

/-- The overflow word is zero exactly when the product fits the array. -/
theorem increaseScale_snd_eq_zero_iff (as : List Word) (p : Word) :
    (increaseScale as p).2 = 0 ↔ wideValue as * p.toNat < 2 ^ (32 * as.length) := by
  have hlt := wideValue_lt (increaseScale as p).1
  rw [length_increaseScale] at hlt
  rw [← carry_eq_zero_iff hlt (wideValue_increaseScale as p)]
  exact BitVec.toNat_inj.symm

/-- The entries of `POW10_32` are the powers themselves (R33). -/
theorem toNat_pow10Word {k : ℕ} (hk : k ≤ maxPow32) : (pow10Word k).toNat = 10 ^ k := by
  have hle : 10 ^ k ≤ 10 ^ maxPow32 := Nat.pow_le_pow_right (by decide) hk
  exact Nat.mod_eq_of_lt (hle.trans_lt (by decide))

/-- `POWER_OVFL[k]` is the largest 96-bit number whose product by `10^k` fits 96 bits (R35). -/
theorem le_powerOvfl_iff (v k : ℕ) : v ≤ powerOvfl k ↔ v * 10 ^ k < 2 ^ 96 := by
  rw [powerOvfl, Nat.le_div_iff_mul_le (Nat.pow_pos (by decide)), max96]
  exact Nat.le_sub_one_iff_lt (by decide)

theorem add32to96_cons (a : Word) (as : List Word) (v : Word) :
    add32to96 (a :: as) v =
      (BitVec.ofNat 32 (a.toNat + v.toNat) :: (add32to96 as (BitVec.ofNat 32 ((a.toNat + v.toNat) / 2 ^ 32))).1,
        (add32to96 as (BitVec.ofNat 32 ((a.toNat + v.toNat) / 2 ^ 32))).2) := rfl

theorem add32to96_exact (as : List Word) (v : Word) :
    wideValue (add32to96 as v).1 = (wideValue as + v.toNat) % 2 ^ (32 * as.length) ∧
      ((add32to96 as v).2 = true ↔ wideValue as + v.toNat < 2 ^ (32 * as.length)) := by
  induction as generalizing v with
  | nil =>
    have hv : v = 0 ↔ v.toNat < 1 := by rw [Nat.lt_one_iff, ← BitVec.toNat_inj]; rfl
    simpa [add32to96, Nat.mod_one] using hv
  | cons a as ih =>
    have hcarry : (BitVec.ofNat 32 ((a.toNat + v.toNat) / 2 ^ 32)).toNat = (a.toNat + v.toNat) / 2 ^ 32 := by
      have ha := a.isLt
      have hv := v.isLt
      rw [BitVec.toNat_ofNat]
      omega
    have hquot : (a.toNat + 2 ^ 32 * wideValue as + v.toNat) / 2 ^ 32 =
        wideValue as + (a.toNat + v.toNat) / 2 ^ 32 := by omega
    have hrem : (a.toNat + 2 ^ 32 * wideValue as + v.toNat) % 2 ^ 32 = (a.toNat + v.toNat) % 2 ^ 32 := by omega
    obtain ⟨ihval, ihok⟩ := ih (BitVec.ofNat 32 ((a.toNat + v.toNat) / 2 ^ 32))
    rw [hcarry, ← hquot] at ihval ihok
    simp only [add32to96_cons, wideValue_cons, List.length_cons, two_pow_words_succ]
    constructor
    · rw [ihval, BitVec.toNat_ofNat, ← hrem, ← Nat.mod_mul]
    · rw [ihok, Nat.div_lt_iff_lt_mul (by decide), Nat.mul_comm (2 ^ 32) (2 ^ _)]

/-! ### The obligations -/

/-- Settles O54, from the exactness of each of the four primitives. -/
theorem multiplyDividePrimitivesExact : Obligations.MultiplyDividePrimitivesExact :=
  ⟨toNat_mul32,
    fun n _ hd => ⟨hi32_lt_iff n hd, fun h => divmod64by32_exact hd ((hi32_lt_iff n hd).2 h)⟩,
    mul64x64to128_exact,
    fun num _ hd => div96by32_exact num hd⟩

/-- Settles O55, from the equation each loop over words keeps; the test against `POWER_OVFL` is the test that the product
fits 96 bits. -/
theorem carryPrimitivesExact : Obligations.CarryPrimitivesExact := by
  refine ⟨fun as bs h => ⟨?_, ?_⟩, fun as => wideValue_negWords, wideValue_increaseScale, fun as k hlen _ hk => ?_,
    add32to96_exact⟩
  · exact wideValue_addWords h false
  · exact wideValue_subWords h false
  · rw [increaseScale_snd_eq_zero_iff, toNat_pow10Word hk, hlen, le_powerOvfl_iff]

end Sys2Proof.Proofs
end

