-- ==== Sys2Proof/Proofs/Fit.lean ====
section
/-! PROOFS. Rounding to 96 bits (spec/40_primitives.md R101; spec/41_arith.md R124, R127): the nearest integer is unique and
grows with the number, `rhe` computes it, and so a downward search over the scales finds the largest scale that fits, or
nothing exactly when scale 0 does not fit. -/

namespace Sys2Proof.Proofs

open Sys2Proof.Machine Sys2Proof.Config Sys2Proof.Laws

/-! ### The nearest integer (spec/00_scope.md R11) -/

/-- A larger number has no smaller nearest integer: two neighbours can only be exchanged at a tie, and not both are
even. -/
theorem isNearestEven_mono {q q' : ℚ} {m m' : ℕ} (hq : q ≤ q') (h : IsNearestEven q m) (h' : IsNearestEven q' m') :
    m ≤ m' := by
  obtain ⟨hdist, htie⟩ := h
  obtain ⟨hdist', htie'⟩ := h'
  by_contra hlt
  have hsucc : (m' : ℚ) + 1 ≤ m := by exact_mod_cast not_le.1 hlt
  have hlow := (abs_le.1 hdist).1
  have hhigh := (abs_le.1 hdist').2
  have hm : q - m = -(1 / 2) := by linarith
  have hm' : q' - m' = 1 / 2 := by linarith
  have hnext : m = m' + 1 := by
    have : (m : ℚ) = m' + 1 := by linarith
    exact_mod_cast this
  have heven := htie (by rw [hm, abs_neg, abs_of_pos one_half_pos])
  have heven' := htie' (by rw [hm', abs_of_pos one_half_pos])
  omega

theorem isNearestEven_unique {q : ℚ} {m n : ℕ} (hm : IsNearestEven q m) (hn : IsNearestEven q n) : m = n :=
  le_antisymm (isNearestEven_mono le_rfl hm hn) (isNearestEven_mono le_rfl hn hm)

/-- `RHE(n, d)` is the integer nearest to `n / d`. -/
theorem isNearestEven_rhe (n : ℕ) {d : ℕ} (hd : 0 < d) : IsNearestEven (n / d) (rhe n d) := by
  obtain ⟨hhigh, hlow, htieLow, htieHigh⟩ := rhe_spec n hd
  have hd' : (0 : ℚ) < d := by exact_mod_cast hd
  obtain ⟨x, hx⟩ : ∃ x : ℚ, (n : ℚ) / d = x := ⟨_, rfl⟩
  have hn : (n : ℚ) = x * d := (div_eq_iff hd'.ne').1 hx
  have hhigh' : 2 * x ≤ 2 * rhe n d + 1 := by
    refine le_of_mul_le_mul_right ?_ hd'
    rw [mul_assoc, ← hn]
    exact_mod_cast hhigh
  have hlow' : 2 * (rhe n d : ℚ) ≤ 2 * x + 1 := by
    refine le_of_mul_le_mul_right ?_ hd'
    rw [add_mul, mul_assoc 2 x, ← hn, one_mul]
    exact_mod_cast hlow
  rw [hx]
  refine ⟨abs_le.2 ⟨by linarith, by linarith⟩, fun htie => ?_⟩
  rcases eq_or_eq_neg_of_abs_eq htie with h | h
  · refine htieLow ?_
    have : 2 * (n : ℚ) = (2 * rhe n d + 1) * d := by rw [hn, sub_eq_iff_eq_add.1 h]; ring
    exact_mod_cast this
  · refine htieHigh ?_
    have : 2 * (n : ℚ) + d = 2 * rhe n d * d := by rw [hn, sub_eq_iff_eq_add.1 h]; ring
    exact_mod_cast this

/-! ### The largest scale that fits (R101, R124, R127) -/

/-- The outcome of rounding the magnitude `q` to 96 bits at a scale of at most `cap`: nothing when `q` does not fit,
otherwise `finish` of the mantissa and the largest scale that fits. -/
def RoundsTo (q : ℚ) (cap : ℕ) (finish : ℕ → ℕ → Dec) (r : Option Dec) : Prop :=
  (¬FitsRounded q ∧ r = none) ∨ (FitsRounded q ∧ ∃ m t, LargestFit q cap m t ∧ r = some (finish m t))

/-- The search from `cap` downward, where `f t` is the mantissa at scale `t`. If some scale fits then so does scale 0,
because the mantissa grows with the scale. -/
theorem roundsTo_findDown {q : ℚ} {cap : ℕ} {f : ℕ → ℕ} (finish : ℕ → ℕ → Dec) (hq : 0 ≤ q)
    (hf : ∀ t ≤ cap, IsNearestEven (q * 10 ^ t) (f t)) :
    RoundsTo q cap finish ((findDown (fun t => f t ≤ max96) cap).map fun t => finish (f t) t) := by
  have hf0 : IsNearestEven q (f 0) := by simpa using hf 0 cap.zero_le
  cases hfind : findDown (fun t => f t ≤ max96) cap with
  | none =>
    refine .inl ⟨?_, rfl⟩
    rintro ⟨m, hm, hfit⟩
    obtain rfl := isNearestEven_unique hm hf0
    exact of_decide_eq_false (findDown_eq_none.1 hfind 0 cap.zero_le) hfit
  | some t =>
    obtain ⟨hcap, hfit, hmax⟩ := findDown_eq_some.1 hfind
    have hfit : f t ≤ max96 := of_decide_eq_true hfit
    have hscale : q ≤ q * 10 ^ t := le_mul_of_one_le_right hq (one_le_pow₀ (by norm_num))
    refine .inr ⟨⟨f 0, hf0, (isNearestEven_mono hscale hf0 (hf t hcap)).trans hfit⟩,
      f t, t, ⟨hcap, hf t hcap, hfit, fun j hj hjcap n hn => ?_⟩, rfl⟩
    rw [isNearestEven_unique hn (hf j hjcap)]
    exact not_le.1 (of_decide_eq_false (hmax j hj hjcap))

/-- `Compact(N, scale)` rounds the magnitude `N / 10^scale` (R101). -/
theorem compact_roundsTo (N scale : ℕ) (finish : ℕ → ℕ → Dec) :
    RoundsTo (N / 10 ^ scale) (min scale scaleMax) finish ((compact N scale).map fun r => finish r.1 r.2) := by
  rw [compact, Option.map_map]
  refine roundsTo_findDown finish (by positivity) fun t ht => ?_
  have hle : t ≤ scale := ht.trans (min_le_left _ _)
  have hquot : (N : ℚ) / 10 ^ scale * 10 ^ t = N / (10 ^ (scale - t) : ℕ) := by
    rw [Nat.cast_pow, Nat.cast_ofNat, ← pow_sub_mul_pow (10 : ℚ) hle]
    field_simp
  rw [hquot]
  exact isNearestEven_rhe N (by positivity)

end Sys2Proof.Proofs
end

