-- ==== Sys2Proof/Proofs/Arith.lean ====
section
/-! PROOFS. ADD, SUB, MUL, DIV and MOD (spec/41_arith.md): the integers the closed forms compute with are the exact
rational results over a power of ten, and the frame of a value command turns the outcome of the rounding into the command's
result or its fault. -/

namespace Sys2Proof.Proofs

open Sys2Proof.Machine Sys2Proof.Config Sys2Proof.Laws

/-! ### The frame of a command with two operands (R120) -/

theorem valueCommand_pair_of_invalid (w : Word) (s : State) {a b : DecReg} (r : Option State)
    (h : (a.valid && b.valid) = false) :
    valueCommand w s [a, b] r = .next (s.raiseFault .invalidValue w) := by
  simp [valueCommand, h]

theorem valueCommand_pair_of_valid (w : Word) (s : State) {a b : DecReg} (r : Option State)
    (h : (a.valid && b.valid) = true) : valueCommand w s [a, b] r = orOverflow w s r := by
  have hall : [a, b].all DecReg.valid = true := by simpa using h
  exact if_pos hall

theorem dividingCommand_of_zero (w : Word) (s : State) (a : DecReg) {b : DecReg} (r : Option State) (h : b.mant = 0) :
    dividingCommand w s a b r = .next (s.raiseFault .divideByZero w) := if_pos h

theorem dividingCommand_of_ne_zero (w : Word) (s : State) (a : DecReg) {b : DecReg} (r : Option State)
    (h : b.mant ≠ 0) : dividingCommand w s a b r = valueCommand w s [a, b] r := if_neg h

/-- A value command whose result is a rounding: InvalidValue, then Overflow, then the rounded result. -/
theorem valueCommand_of_roundsTo (w : Word) (s : State) (rd : DReg) {a b : DecReg} {q : ℚ} {cap : ℕ}
    {finish : ℕ → ℕ → Dec} {r : Option Dec} (hr : (a.valid && b.valid) = true → RoundsTo q cap finish r) :
    ((a.valid && b.valid) = false →
      valueCommand w s [a, b] (r.map fun d => s.setD rd (pack d)) = .next (s.raiseFault .invalidValue w)) ∧
    ((a.valid && b.valid) = true → ¬FitsRounded q →
      valueCommand w s [a, b] (r.map fun d => s.setD rd (pack d)) = .next (s.raiseFault .overflow w)) ∧
    ((a.valid && b.valid) = true → FitsRounded q → ∃ m t, LargestFit q cap m t ∧
      valueCommand w s [a, b] (r.map fun d => s.setD rd (pack d)) = .next (s.setD rd (pack (finish m t)))) := by
  refine ⟨valueCommand_pair_of_invalid w s _, fun hv hq => ?_, fun hv hq => ?_⟩
  · obtain ⟨-, hnone⟩ | ⟨hfit, -⟩ := hr hv
    · rw [valueCommand_pair_of_valid w s _ hv, hnone]
      rfl
    · exact absurd hfit hq
  · obtain ⟨hover, -⟩ | ⟨-, m, t, hlargest, hsome⟩ := hr hv
    · exact absurd hq hover
    · refine ⟨m, t, hlargest, ?_⟩
      rw [valueCommand_pair_of_valid w s _ hv, hsome]
      rfl

/-! ### Values at a common scale (R124) -/

/-- Widening to a larger scale keeps the magnitude. -/
theorem abs_value_eq_widen (d : Dec) {c : ℕ} (h : d.scale ≤ c) : |d.value| = d.widen c / 10 ^ c := by
  rw [abs_value, Dec.widen, Nat.cast_mul, Nat.cast_pow, Nat.cast_ofNat, ← pow_sub_mul_pow (10 : ℚ) h]
  field_simp

/-- The sign of a value is its sign bit, for a zero too. -/
theorem value_eq_sign_mul_abs (d : Dec) : d.value = (if d.neg then -1 else 1) * |d.value| := by
  rw [abs_value, Dec.value]

theorem value_eq_signed (d : Dec) {c : ℕ} (h : d.scale ≤ c) : d.value = d.signed c / 10 ^ c := by
  rw [value_eq_sign_mul_abs, abs_value_eq_widen d h, Dec.signed]
  split_ifs <;> push_cast <;> ring

theorem value_flip_neg (d : Dec) : Dec.value ⟨d.mant, d.scale, !d.neg⟩ = -d.value := by
  unfold Dec.value
  cases d.neg <;> simp

/-! ### ADD and SUB (R121, R122, R124) -/

/-- Subtraction is addition with the second sign inverted (R122). -/
theorem addSub_true (a b : Dec) : addSub a b true = addSub a ⟨b.mant, b.scale, !b.neg⟩ false := by
  obtain ⟨ma, sa, na⟩ := a
  obtain ⟨mb, sb, nb⟩ := b
  cases na <;> cases nb <;> rfl

/-- Sign and magnitude of the sum of two integers given by sign and magnitude: `AddSub` subtracts the smaller magnitude
when the signs differ. -/
theorem natAbs_sign_of_sum {wa wb : ℕ} {na nb : Bool} {x : ℤ}
    (hx : (if na then -(wa : ℤ) else wa) + (if nb then -(wb : ℤ) else wb) = x) :
    (if false ^^ na ^^ nb then if wb < wa then (wa - wb, na) else if wa < wb then (wb - wa, !na) else (0, false)
      else (wa + wb, na)) = (x.natAbs, if x = 0 then na && nb else decide (x < 0)) := by
  subst hx
  cases na <;> cases nb <;>
    simp only [Bool.xor_true, Bool.xor_false, Bool.not_true, Bool.not_false, Bool.false_eq_true, if_true, if_false]
  case false.false | true.true =>
    simp
    omega
  case false.true | true.false =>
    split_ifs <;> simp <;> omega

/-- Addition compacts the sum of the two signed mantissas, with the sign of the sum; a zero sum is negative only when both
operands are. -/
theorem addSub_false {a b : Dec} {c : ℕ} {x : ℤ} (hc : max a.scale b.scale = c) (hx : a.signed c + b.signed c = x) :
    addSub a b false =
      (compact x.natAbs c).map fun r => ⟨r.1, r.2, if x = 0 then a.neg && b.neg else decide (x < 0)⟩ := by
  subst hc
  exact congrArg (fun e : ℕ × Bool => (compact e.1 (max a.scale b.scale)).map fun r => Dec.mk r.1 r.2 e.2)
    (natAbs_sign_of_sum hx)

/-- ADD rounds the magnitude of the exact sum. -/
theorem addSub_false_roundsTo (a b : Dec) (ha : a.scale ≤ scaleMax) (hb : b.scale ≤ scaleMax) :
    RoundsTo |a.value + b.value| (max a.scale b.scale)
      (fun m t => ⟨m, t, if a.value + b.value = 0 then a.neg && b.neg else decide (a.value + b.value < 0)⟩)
      (addSub a b false) := by
  obtain ⟨c, hc⟩ : ∃ c, max a.scale b.scale = c := ⟨_, rfl⟩
  obtain ⟨x, hx⟩ : ∃ x, a.signed c + b.signed c = x := ⟨_, rfl⟩
  have hpow : (0 : ℚ) < 10 ^ c := by positivity
  have hsum : a.value + b.value = x / 10 ^ c := by
    rw [value_eq_signed a (hc ▸ le_max_left ..), value_eq_signed b (hc ▸ le_max_right ..), ← hx, Int.cast_add, add_div]
  have habs : |(x : ℚ) / 10 ^ c| = x.natAbs / 10 ^ c := by
    rw [abs_div, abs_of_pos hpow, Nat.cast_natAbs, Int.cast_abs]
  have hzero : (x : ℚ) / 10 ^ c = 0 ↔ x = 0 := by simp [hpow.ne']
  have hneg : (x : ℚ) / 10 ^ c < 0 ↔ x < 0 := by rw [div_lt_iff₀ hpow, zero_mul, Int.cast_lt_zero]
  have hcap : min c scaleMax = c := min_eq_left (hc ▸ max_le ha hb)
  simp only [hc, hsum, habs, hzero, hneg, addSub_false hc hx]
  simpa only [hcap] using compact_roundsTo x.natAbs c
    fun m t => ⟨m, t, if x = 0 then a.neg && b.neg else decide (x < 0)⟩

/-- SUB rounds the magnitude of the exact difference, which is the sum with the second operand negated. -/
theorem addSub_true_roundsTo (a b : Dec) (ha : a.scale ≤ scaleMax) (hb : b.scale ≤ scaleMax) :
    RoundsTo |a.value - b.value| (max a.scale b.scale)
      (fun m t => ⟨m, t, if a.value - b.value = 0 then a.neg && !b.neg else decide (a.value - b.value < 0)⟩)
      (addSub a b true) := by
  rw [addSub_true, sub_eq_add_neg, ← value_flip_neg]
  exact addSub_false_roundsTo a ⟨b.mant, b.scale, !b.neg⟩ ha hb

/-! ### MUL (R125) -/

theorem abs_value_mul (a b : Dec) :
    |a.value * b.value| = (a.mant * b.mant : ℕ) / 10 ^ (a.scale + b.scale) := by
  rw [abs_mul, abs_value, abs_value, Nat.cast_mul, pow_add, div_mul_div_comm]

/-- MUL rounds the magnitude of the exact product. -/
theorem multiply_roundsTo (a b : Dec) :
    RoundsTo |a.value * b.value| (min (a.scale + b.scale) scaleMax) (fun m t => ⟨m, t, a.neg ^^ b.neg⟩)
      (multiply a b) := by
  rw [abs_value_mul]
  exact compact_roundsTo _ _ _

/-! ### DIV (R127, R129) -/

theorem tz10_spec {m : ℕ} (hm : m ≠ 0) : 10 ^ tz10 m ∣ m ∧ ¬10 ^ (tz10 m + 1) ∣ m := by
  unfold tz10
  cases hfind : findDown (fun z => m % 10 ^ z == 0) m.log2 with
  | none =>
    have := findDown_eq_none.1 hfind 0 (Nat.zero_le _)
    simp [Nat.mod_one] at this
  | some z =>
    obtain ⟨-, hdvd, hmax⟩ := findDown_eq_some.1 hfind
    refine ⟨Nat.dvd_of_mod_eq_zero (by simpa using hdvd), fun hnext => ?_⟩
    have hlog : z + 1 ≤ m.log2 := by
      rw [Nat.le_log2 hm]
      exact (Nat.pow_le_pow_left (by decide) (z + 1)).trans (Nat.le_of_dvd (Nat.pos_of_ne_zero hm) hnext)
    exact beq_eq_false_iff_ne.1 (hmax (z + 1) (Nat.lt_succ_self z) hlog) (Nat.mod_eq_zero_of_dvd hnext)

/-- The scale normalisation removes all the trailing zeros the scale allows (R129). -/
theorem removesZeros_removable (m s : ℕ) : RemovesZeros m s (removable m s) := by
  unfold removable
  split_ifs with hm
  · exact ⟨le_rfl, hm ▸ dvd_zero _, .inl rfl⟩
  · obtain ⟨hdvd, hmax⟩ := tz10_spec hm
    refine ⟨min_le_right _ _, (pow_dvd_pow 10 (min_le_left _ _)).trans hdvd, ?_⟩
    rcases le_total s (tz10 m) with hle | hle
    · exact .inl (min_eq_right hle)
    · exact .inr (by rwa [min_eq_left hle])

/-- `F(s)` is the exact quotient at scale `s`, rounded half to even (R127). -/
theorem isNearestEven_quotientAt (a b : Dec) (hb : b.mant ≠ 0) (s : ℕ) :
    IsNearestEven (|a.value / b.value| * 10 ^ s) (quotientAt a b s) := by
  have hb' : (b.mant : ℚ) ≠ 0 := by exact_mod_cast hb
  have hquot : |a.value / b.value| * 10 ^ s =
      (a.mant * 10 ^ (s + b.scale) : ℕ) / (b.mant * 10 ^ a.scale : ℕ) := by
    rw [abs_div, abs_value, abs_value]
    push_cast
    rw [pow_add]
    field_simp
  rw [hquot]
  exact isNearestEven_rhe _ (by positivity)

/-- DIV rounds the magnitude of the exact quotient, then removes the trailing zeros. -/
theorem divide_roundsTo (a b : Dec) (hb : b.mant ≠ 0) :
    RoundsTo |a.value / b.value| scaleMax
      (fun m t => ⟨m / 10 ^ removable m t, t - removable m t, a.neg ^^ b.neg⟩) (divide a b) :=
  roundsTo_findDown (f := quotientAt a b) _ (abs_nonneg _) fun t _ => isNearestEven_quotientAt a b hb t

/-! ### MOD (R130) -/

/-- One of two operands keeps its mantissa at the larger of their scales, so the remainder has 96 bits. -/
theorem widen_mod_widen_le {a b : Dec} (ha : a.mant ≤ max96) (hb : b.mant ≤ max96) (h : b.mant ≠ 0) :
    a.widen (max a.scale b.scale) % b.widen (max a.scale b.scale) ≤ max96 := by
  rcases le_total a.scale b.scale with hle | hle
  · have hwb : b.widen (max a.scale b.scale) = b.mant := by simp [Dec.widen, hle]
    rw [hwb]
    exact (Nat.mod_lt _ (Nat.pos_of_ne_zero h)).le.trans hb
  · have hwa : a.widen (max a.scale b.scale) = a.mant := by simp [Dec.widen, hle]
    rw [hwa]
    exact (Nat.mod_le _ _).trans ha

/-- The integer remainder at a common scale is the exact remainder of the magnitudes. -/
theorem widen_mod_widen_div {a b : Dec} {c : ℕ} (ha : a.scale ≤ c) (hb : b.scale ≤ c) :
    ((a.widen c % b.widen c : ℕ) : ℚ) / 10 ^ c = |a.value| - (⌊|a.value| / |b.value|⌋ : ℚ) * |b.value| := by
  rw [abs_value_eq_widen a ha, abs_value_eq_widen b hb, div_div_div_cancel_right₀ (by positivity),
    Rat.floor_natCast_div_natCast]
  have hmod : ((a.widen c % b.widen c : ℕ) : ℚ) = a.widen c - b.widen c * (a.widen c / b.widen c : ℕ) := by
    rw [eq_sub_iff_add_eq]
    exact_mod_cast Nat.mod_add_div (a.widen c) (b.widen c)
  rw [hmod, ← Int.natCast_div, Int.cast_natCast]
  ring

theorem abs_value_lt_iff {a b : Dec} {c : ℕ} (ha : a.scale ≤ c) (hb : b.scale ≤ c) :
    |a.value| < |b.value| ↔ a.widen c < b.widen c := by
  rw [abs_value_eq_widen a ha, abs_value_eq_widen b hb, div_lt_div_iff_of_pos_right (by positivity), Nat.cast_lt]

theorem execMod_of_invalid {rd rs : DReg} {s : State} (hb : (s.getD rs).mant ≠ 0)
    (hv : ((s.getD rd).valid && (s.getD rs).valid) = false) :
    exec (.mod rd rs) s = .next (s.raiseFault .invalidValue (encode (.mod rd rs))) :=
  (dividingCommand_of_ne_zero _ s _ _ hb).trans (valueCommand_pair_of_invalid _ s _ hv)

/-- MOD of valid operands never faults for a non-zero divisor. -/
theorem execMod_of_valid {rd rs : DReg} {s : State} {c : ℕ} (hc : max (s.getD rd).scale (s.getD rs).scale = c)
    (hb : (s.getD rs).mant ≠ 0) (hv : ((s.getD rd).valid && (s.getD rs).valid) = true) :
    exec (.mod rd rs) s = .next (if (s.getD rd).dec.widen c < (s.getD rs).dec.widen c then s
      else s.setD rd (pack ⟨(s.getD rd).dec.widen c % (s.getD rs).dec.widen c, c, (s.getD rd).sign⟩)) := by
  subst hc
  exact (dividingCommand_of_ne_zero _ s _ _ hb).trans (valueCommand_pair_of_valid _ s _ hv)

/-! ### The obligations -/

/-- Settles O27, from the rounding of the exact sum in the frame of a value command. -/
theorem addResult : Obligations.AddResult := by
  intro rd rs s
  refine ⟨rfl, valueCommand_of_roundsTo (encode (.add rd rs)) s rd fun hv => ?_⟩
  obtain ⟨ha, hb⟩ := Bool.and_eq_true_iff.1 hv
  exact addSub_false_roundsTo _ _ (inRange_of_valid ha).2 (inRange_of_valid hb).2

/-- Settles O28: the exact difference is the sum with the second operand negated. -/
theorem subResult : Obligations.SubResult := by
  intro rd rs s
  refine ⟨rfl, valueCommand_of_roundsTo (encode (.sub rd rs)) s rd fun hv => ?_⟩
  obtain ⟨ha, hb⟩ := Bool.and_eq_true_iff.1 hv
  exact addSub_true_roundsTo _ _ (inRange_of_valid ha).2 (inRange_of_valid hb).2

/-- Settles O29, from the rounding of the exact product in the frame of a value command. -/
theorem mulResult : Obligations.MulResult := by
  intro rd rs s
  refine ⟨rfl, valueCommand_of_roundsTo (encode (.mul rd rs)) s rd fun _ => ?_⟩
  rw [min_comm]
  exact multiply_roundsTo _ _

/-- Settles O30: DivideByZero stands before the frame of a value command, in which the exact quotient is rounded. -/
theorem divResult : Obligations.DivResult := by
  intro rd rs s
  rcases eq_or_ne (s.getD rs).mant 0 with hb | hb
  · exact ⟨rfl, fun _ => dividingCommand_of_zero _ s _ _ hb, absurd hb, absurd hb, absurd hb⟩
  · have hframe := dividingCommand_of_ne_zero (encode (.div rd rs)) s (s.getD rd)
      ((divide (s.getD rd).dec (s.getD rs).dec).map fun r => s.setD rd (pack r)) hb
    obtain ⟨hinvalid, hover, hfit⟩ :=
      valueCommand_of_roundsTo (encode (.div rd rs)) s rd (a := s.getD rd) (b := s.getD rs) fun _ =>
        divide_roundsTo (s.getD rd).dec (s.getD rs).dec hb
    refine ⟨rfl, fun h => absurd h hb, fun _ hv => hframe.trans (hinvalid hv),
      fun _ hv hq => hframe.trans (hover hv hq), fun _ hv hq => ?_⟩
    obtain ⟨m, t, hlargest, hresult⟩ := hfit hv hq
    exact ⟨m, t, removable m t, hlargest, removesZeros_removable m t, hframe.trans hresult⟩

/-- Settles O31, from the remainder at the common scale, which fits 96 bits. -/
theorem modResult : Obligations.ModResult := by
  intro rd rs s
  have hsa := le_max_left (s.getD rd).scale (s.getD rs).scale
  have hsb := le_max_right (s.getD rd).scale (s.getD rs).scale
  have hlt_iff := abs_value_lt_iff (a := (s.getD rd).dec) (b := (s.getD rs).dec) hsa hsb
  refine ⟨rfl, dividingCommand_of_zero _ s _ _, fun hb hv => execMod_of_invalid hb hv, fun hb hv hlt => ?_,
    fun hb hv hle => ?_⟩
  · rw [execMod_of_valid rfl hb hv, if_pos (hlt_iff.1 hlt)]
  · obtain ⟨hva, hvb⟩ := Bool.and_eq_true_iff.1 hv
    refine ⟨_, widen_mod_widen_le (inRange_of_valid hva).1 (inRange_of_valid hvb).1 hb,
      widen_mod_widen_div hsa hsb, ?_⟩
    rw [execMod_of_valid rfl hb hv, if_neg (mt hlt_iff.2 (not_lt.2 hle))]
    rfl

end Sys2Proof.Proofs
end

