-- ==== Sys2Proof/Proofs/Round.lean ====
section
/-! PROOFS. TRUNC, FLOOR and ROUND (spec/42_round.md): the magnitudes they pack are the integer part, the floor and the
nearest integer of exact rationals, and none of them exceeds the mantissa of the source, so none can overflow. -/

namespace Sys2Proof.Proofs

open Sys2Proof.Machine Sys2Proof.Config Sys2Proof.Laws

/-! ### The frame of a command with one operand (R120) -/

theorem valueCommand_single_of_invalid (w : Word) (s : State) {b : DecReg} (r : Option State) (h : b.valid = false) :
    valueCommand w s [b] r = .next (s.raiseFault .invalidValue w) := by
  simp [valueCommand, h]

/-- A command that always has a result cannot overflow. -/
theorem valueCommand_single_of_valid (w : Word) (s : State) {b : DecReg} (t : State) (h : b.valid = true) :
    valueCommand w s [b] (some t) = .next t := by
  simp [valueCommand, orOverflow, h]

/-! ### TRUNC (R140) -/

/-- TRUNC packs the integer part of the magnitude. -/
theorem truncate_eq (b : Dec) : truncate b = ⟨⌊|b.value|⌋₊, 0, b.neg⟩ := by
  have hfloor : ⌊|b.value|⌋₊ = b.mant / 10 ^ b.scale := by
    rw [abs_value]
    exact_mod_cast Nat.floor_div_eq_div (K := ℚ) b.mant (10 ^ b.scale)
  rw [truncate, hfloor]

theorem mant_truncate_le (b : Dec) : (truncate b).mant ≤ b.mant := Nat.div_le_self _ _

/-- TRUNC of a valid source never faults. -/
theorem execTrunc_of_valid {rd rs : DReg} {s : State} (hv : (s.getD rs).valid = true) :
    exec (.trunc rd rs) s = .next (s.setD rd (pack (truncate (s.getD rs).dec))) :=
  valueCommand_single_of_valid _ s _ hv

/-! ### FLOOR (R141) -/

/-- The floor of a value is the floor division of its signed mantissa. -/
theorem floor_value (b : Dec) : ⌊b.value⌋ = (if b.neg then -(b.mant : ℤ) else b.mant) / (10 ^ b.scale : ℕ) := by
  have hsigned : b.signed b.scale = if b.neg then -(b.mant : ℤ) else b.mant := by simp [Dec.signed, Dec.widen]
  rw [value_eq_signed b le_rfl, ← hsigned]
  exact_mod_cast Rat.floor_intCast_div_natCast (b.signed b.scale) (10 ^ b.scale)

/-- The magnitude of a floor division: it grows by one when a negative dividend drops a part. -/
theorem natAbs_signed_ediv (neg : Bool) (m : ℕ) {d : ℕ} (hd : 0 < d) :
    ((if neg then -(m : ℤ) else m) / (d : ℤ)).natAbs = if neg ∧ m % d ≠ 0 then m / d + 1 else m / d := by
  cases neg with
  | false => simp [← Int.natCast_ediv]
  | true =>
    have hsign : (d : ℤ).sign = 1 := Int.sign_eq_one_of_pos (by exact_mod_cast hd)
    simp only [if_true, true_and, Int.neg_ediv, hsign, Int.natCast_dvd_natCast, Nat.dvd_iff_mod_eq_zero,
      ← Int.natCast_ediv]
    generalize m / d = q
    split_ifs <;> omega

/-- FLOOR packs the magnitude of the floor. -/
theorem floorDec_eq (b : Dec) : floorDec b = ⟨⌊b.value⌋.natAbs, 0, b.neg⟩ := by
  rw [floor_value, natAbs_signed_ediv b.neg b.mant (by positivity)]
  rfl

/-- When a non-zero part is dropped the quotient is below the mantissa, so the increment stays within it. -/
theorem mant_floorDec_le (b : Dec) : (floorDec b).mant ≤ b.mant := by
  have hdiv := Nat.div_add_mod b.mant (10 ^ b.scale)
  have hquot : b.mant / 10 ^ b.scale ≤ 10 ^ b.scale * (b.mant / 10 ^ b.scale) :=
    Nat.le_mul_of_pos_left _ (by positivity)
  simp only [floorDec]
  split_ifs with h
  · obtain ⟨-, hrem⟩ := h
    omega
  · omega

/-- FLOOR of a valid source never faults. -/
theorem execFloor_of_valid {rd rs : DReg} {s : State} (hv : (s.getD rs).valid = true) :
    exec (.floor rd rs) s = .next (s.setD rd (pack (floorDec (s.getD rs).dec))) :=
  valueCommand_single_of_valid _ s _ hv

/-! ### ROUND (R142) -/

/-- `RHA(n, d)` is the integer nearest to `n / d`, a half going up. -/
theorem isNearestAway_rha (n : ℕ) {d : ℕ} (hd : 0 < d) : IsNearestAway (n / d) (rha n d) := by
  obtain ⟨hhigh, hlow⟩ := rha_spec n hd
  have hd' : (0 : ℚ) < d := by exact_mod_cast hd
  have hhigh' : (n : ℚ) / d < rha n d + 1 / 2 := by
    have : 2 * (n : ℚ) < (2 * rha n d + 1) * d := by exact_mod_cast hhigh
    rw [div_lt_iff₀ hd']
    linarith
  have hlow' : (rha n d : ℚ) - 1 / 2 ≤ n / d := by
    have : 2 * (rha n d : ℚ) * d ≤ 2 * n + d := by exact_mod_cast hlow
    rw [le_div_iff₀ hd']
    linarith
  refine ⟨abs_le.2 ⟨by linarith, by linarith⟩, fun htie => ?_⟩
  rcases eq_or_eq_neg_of_abs_eq htie with h | h <;> linarith

/-- Both modes stay within half of the exact quotient. -/
theorem abs_sub_roundBy_le (mode : RoundMode) (n : ℕ) {d : ℕ} (hd : 0 < d) :
    |(n : ℚ) / d - roundBy mode n d| ≤ 1 / 2 := by
  cases mode with
  | even => exact (isNearestEven_rhe n hd).1
  | away => exact (isNearestAway_rha n hd).1

/-- An integer less than one above `n / d ≤ n` is at most `n`. -/
theorem roundBy_le (mode : RoundMode) (n : ℕ) {d : ℕ} (hd : 0 < d) : roundBy mode n d ≤ n := by
  have hdist := (abs_le.1 (abs_sub_roundBy_le mode n hd)).1
  have hquot : (n : ℚ) / d ≤ n := div_le_self n.cast_nonneg (by exact_mod_cast hd)
  have hlt : (roundBy mode n d : ℚ) < n + 1 := by linarith
  exact Nat.lt_succ_iff.1 (by exact_mod_cast hlt)

/-- A magnitude counted in units of `10^-n`. -/
theorem abs_value_mul_pow (b : Dec) {n : ℕ} (h : n ≤ b.scale) :
    |b.value| * 10 ^ n = b.mant / (10 ^ (b.scale - n) : ℕ) := by
  rw [abs_value, Nat.cast_pow, Nat.cast_ofNat, ← pow_sub_mul_pow (10 : ℚ) h]
  field_simp

theorem roundReg_of_scale_le {b : DecReg} {n : ℕ} (mode : RoundMode) (h : b.scale ≤ n) : roundReg b n mode = b :=
  if_pos h

theorem roundReg_of_lt_scale {b : DecReg} {n : ℕ} (mode : RoundMode) (h : n < b.scale) :
    roundReg b n mode = pack ⟨roundBy mode b.mant (10 ^ (b.scale - n)), n, b.sign⟩ :=
  if_neg (not_le.2 h)

/-- ROUND of a valid source never faults. -/
theorem execRound_of_valid {rd rs : DReg} {n : ℕ} {mode : RoundMode} {s : State} (hv : (s.getD rs).valid = true) :
    exec (.round rd rs n mode) s = .next (s.setD rd (roundReg (s.getD rs) n mode)) :=
  valueCommand_single_of_valid _ s _ hv

/-! ### The obligations -/

/-- Settles O32: the packed records are the integer part and the floor, neither above the source's mantissa. -/
theorem truncFloorResult : Obligations.TruncFloorResult := by
  intro rd rs s
  refine ⟨rfl, rfl, fun hv => ⟨valueCommand_single_of_invalid _ s _ hv, valueCommand_single_of_invalid _ s _ hv⟩,
    fun hv => ?_⟩
  have hmant := (inRange_of_valid hv).1
  have htrunc := truncate_eq (s.getD rs).dec
  have hfloor := floorDec_eq (s.getD rs).dec
  refine ⟨?_, ?_, ?_, ?_⟩
  · rw [execTrunc_of_valid hv, htrunc]
    rfl
  · rw [execFloor_of_valid hv, hfloor]
    rfl
  · exact (congrArg Dec.mant htrunc).ge.trans ((mant_truncate_le _).trans hmant)
  · exact (congrArg Dec.mant hfloor).ge.trans ((mant_floorDec_le _).trans hmant)

/-- Settles O33: a copy needs no arithmetic; otherwise the magnitude, counted in units of the last kept place, is
rounded to the nearest integer of the mode. -/
theorem roundResult : Obligations.RoundResult := by
  intro rd rs n mode s hn
  refine ⟨by simp only [encode, Nat.mod_eq_of_lt hn], valueCommand_single_of_invalid _ s _, fun hv hle => ?_,
    fun hv hlt => ?_⟩
  · rw [execRound_of_valid hv, roundReg_of_scale_le mode hle]
  · have hpow : 0 < 10 ^ ((s.getD rs).scale - n) := by positivity
    have hunits : |(s.getD rs).value| * 10 ^ n = (s.getD rs).mant / (10 ^ ((s.getD rs).scale - n) : ℕ) :=
      abs_value_mul_pow (s.getD rs).dec hlt.le
    rw [hunits, execRound_of_valid hv, roundReg_of_lt_scale mode hlt]
    refine ⟨_, (roundBy_le mode _ hpow).trans (inRange_of_valid hv).1, ?_, ?_, rfl⟩
    · rintro rfl
      exact isNearestEven_rhe _ hpow
    · rintro rfl
      exact isNearestAway_rha _ hpow

end Sys2Proof.Proofs
end

