-- ==== Sys2Proof/Proofs/Convert.lean ====
section
/-! PROOFS. CYTOD and DTOCY (spec/43_convert.md R150, R151). Both turn on one signed integer, the value in units of the
last currency place: CYTOD takes it from `X` and packs its magnitude, which 96 bits always hold; DTOCY rounds to it and
tests its range, which reaches one further below zero than above. -/

namespace Sys2Proof.Proofs

open Sys2Proof.Machine Sys2Proof.Config Sys2Proof.Laws

/-! ### CYTOD (R150) -/

/-- A signed 64-bit integer has a magnitude of at most `2^63`, its most negative value included. -/
theorem mant_currencyToDec_le (x : DWord) : (currencyToDec x).mant ≤ max96 := by
  have hlow := x.le_toInt
  have hhigh := x.toInt_lt
  simp only [currencyToDec, max96]
  omega

theorem scale_currencyToDec_le (x : DWord) : (currencyToDec x).scale ≤ scaleMax :=
  (by decide : cyScale ≤ scaleMax)

/-- Sign and magnitude give back the integer they were taken from. -/
theorem signed_currencyToDec (x : DWord) : (currencyToDec x).signed cyScale = x.toInt := by
  simp only [Dec.signed, Dec.widen, currencyToDec, Nat.sub_self, pow_zero, mul_one, decide_eq_true_eq]
  split_ifs <;> omega

theorem value_currencyToDec (x : DWord) : (currencyToDec x).value = x.toInt / 10 ^ cyScale := by
  rw [value_eq_signed (c := cyScale) _ le_rfl, signed_currencyToDec]

theorem mant_pack_currencyToDec (x : DWord) : (pack (currencyToDec x)).mant = x.toInt.natAbs :=
  congrArg Dec.mant (dec_pack (mant_currencyToDec_le x) (scale_currencyToDec_le x))

/-! ### DTOCY (R151) -/

/-- The rounded currency magnitude with the sign of the register: the integer DTOCY tests and writes. -/
def currencyInt (a : Dec) : ℤ := if a.neg then -currencyMagnitude a else currencyMagnitude a

/-- Up to scale 4 the value is a whole number of units and nothing is rounded; beyond it the excess digits are rounded
off. -/
theorem isNearestEven_currencyMagnitude (a : Dec) :
    IsNearestEven (|a.value| * 10 ^ cyScale) (currencyMagnitude a) := by
  rcases le_or_gt a.scale cyScale with hle | hlt
  · have hexact : |a.value| * 10 ^ cyScale = (a.mant * 10 ^ (cyScale - a.scale) : ℕ) := by
      rw [abs_value_eq_widen a hle, Dec.widen, div_mul_cancel₀ _ (by positivity)]
    rw [hexact, currencyMagnitude, if_pos hle]
    exact isNearestEven_natCast _
  · rw [abs_value_mul_pow a hlt.le, currencyMagnitude, if_neg (not_le.2 hlt)]
    exact isNearestEven_rhe _ (by positivity)

/-- The two range tests, one for each sign, are the signed 64-bit range. -/
theorem decToCurrency_eq (a : Dec) : decToCurrency a =
    if -2 ^ 63 ≤ currencyInt a ∧ currencyInt a < 2 ^ 63 then some (BitVec.ofInt 64 (currencyInt a)) else none := by
  cases hneg : a.neg with
  | false =>
    simp only [decToCurrency, currencyInt, hneg, Bool.false_eq_true, if_false]
    exact if_congr (by omega) rfl rfl
  | true =>
    simp only [decToCurrency, currencyInt, hneg, if_true]
    exact if_congr (by omega) rfl rfl

/-- DTOCY of a valid source can only overflow. -/
theorem execDtocy_of_valid {r : DReg} {s : State} (hv : (s.getD r).valid = true) : exec (.dtocy r) s =
    orOverflow (encode (.dtocy r)) s ((decToCurrency (s.getD r).dec).map s.setX) :=
  if_pos (by simpa using hv)

theorem execDtocy_of_inRange {r : DReg} {s : State} (hv : (s.getD r).valid = true)
    (h : -2 ^ 63 ≤ currencyInt (s.getD r).dec ∧ currencyInt (s.getD r).dec < 2 ^ 63) :
    exec (.dtocy r) s = .next (s.setX (BitVec.ofInt 64 (currencyInt (s.getD r).dec))) := by
  rw [execDtocy_of_valid hv, decToCurrency_eq, if_pos h]
  rfl

theorem execDtocy_of_not_inRange {r : DReg} {s : State} (hv : (s.getD r).valid = true)
    (h : ¬(-2 ^ 63 ≤ currencyInt (s.getD r).dec ∧ currencyInt (s.getD r).dec < 2 ^ 63)) :
    Raises (.dtocy r) s .overflow := by
  rw [Raises, execDtocy_of_valid hv, decToCurrency_eq, if_neg h]
  rfl

/-! ### The obligations -/

/-- Settles O38: what CYTOD packs is in range, so every field of the register reads back. -/
theorem cytodResult : Obligations.CytodResult := by
  intro r s
  have hscale := scale_currencyToDec_le s.x
  exact ⟨rfl, pack (currencyToDec s.x), rfl, mant_pack_currencyToDec s.x, scale_pack hscale, sign_pack hscale,
    valid_pack hscale, (value_pack (mant_currencyToDec_le s.x) hscale).trans (value_currencyToDec s.x)⟩

/-- Settles O39: the nearest integer, with the register's sign, is in the signed 64-bit range or overflows. -/
theorem dtocyResult : Obligations.DtocyResult := by
  intro r s
  exact ⟨rfl, valueCommand_single_of_invalid _ s _, fun hv =>
    ⟨currencyMagnitude (s.getD r).dec, isNearestEven_currencyMagnitude (s.getD r).dec, execDtocy_of_inRange hv,
      execDtocy_of_not_inRange hv⟩⟩

end Sys2Proof.Proofs
end

/-! PROOFS. The commands of spec/44_compare_misc.md. CMP, MAX and MIN turn on one fact: the integers `Cmp3` compares,
the signed mantissas at the larger scale, are ordered as the values are. NEG and ABS touch one bit of `FLAGS`, the sign
of the value. The digit commands replace the mantissa and keep `FLAGS`. -/

namespace Sys2Proof.Proofs

open Sys2Proof.Machine Sys2Proof.Config Sys2Proof.Laws

/-! ### The order of values (R170) -/

/-- At a common scale the signed mantissas are ordered as the values are. -/
theorem signed_lt_signed_iff {a b : Dec} {c : ℕ} (ha : a.scale ≤ c) (hb : b.scale ≤ c) :
    a.signed c < b.signed c ↔ a.value < b.value := by
  rw [value_eq_signed a ha, value_eq_signed b hb, div_lt_div_iff_of_pos_right (by positivity), Int.cast_lt]

theorem cmp3_eq_ite (a b : Dec) :
    cmp3 a b = if a.value < b.value then -1 else if b.value < a.value then 1 else 0 := by
  have ha : a.scale ≤ max a.scale b.scale := le_max_left ..
  have hb : b.scale ≤ max a.scale b.scale := le_max_right ..
  simp only [cmp3, signed_lt_signed_iff ha hb, signed_lt_signed_iff hb ha]

theorem cmp3_neg_iff (a b : Dec) : cmp3 a b < 0 ↔ a.value < b.value := by
  rw [cmp3_eq_ite]
  split_ifs <;> simp [*]

theorem cmp3_pos_iff (a b : Dec) : 0 < cmp3 a b ↔ b.value < a.value := by
  rw [cmp3_eq_ite]
  split_ifs with hlt
  · simpa using hlt.le
  all_goals simp [*]

/-- `Cmp3` is the sign of the exact difference. -/
theorem cmp3_eq_sign (a b : Dec) : cmp3 a b = (SignType.sign (a.value - b.value) : ℤ) := by
  rw [cmp3_eq_ite]
  rcases lt_trichotomy a.value b.value with h | h | h
  · rw [if_pos h, sign_neg (sub_neg.2 h)]
    rfl
  · rw [h, if_neg (lt_irrefl _), if_neg (lt_irrefl _), sub_self, sign_zero]
    rfl
  · rw [if_neg h.not_gt, if_pos h, sign_pos (sub_pos.2 h)]
    rfl

/-! ### SIGN (R174) -/

theorem mant_eq_zero_iff (r : DecReg) : r.mant = 0 ↔ r.hi = 0 ∧ r.mid = 0 ∧ r.lo = 0 := by
  simp only [DecReg.mant, ← BitVec.toNat_inj, show (0 : Word).toNat = 0 from rfl]
  omega

/-- SIGN of a valid source never faults. -/
theorem execSign_of_valid {r : DReg} {s : State} (hv : (s.getD r).valid = true) :
    exec (.sign r) s = .next (s.setX (BitVec.ofInt 64 (signOf (s.getD r).dec))) :=
  valueCommand_single_of_valid _ s _ hv

theorem signOf_of_mant_eq_zero {a : Dec} (h : a.mant = 0) : signOf a = 0 := if_pos h

theorem signOf_of_mant_ne_zero {a : Dec} (h : a.mant ≠ 0) : signOf a = if a.neg then -1 else 1 := if_neg h

/-! ### The sign bit of `FLAGS` (R172, R173) -/

theorem getLsbD_flipSign_top (f : Word) : (flipSign f).getLsbD 31 = !f.getLsbD 31 := by
  simp [flipSign]

theorem getLsbD_clearSign_top (f : Word) : (clearSign f).getLsbD 31 = false := by
  simp [clearSign]

/-- Below bit 31 the mask of NEG has no bit set. -/
theorem getLsbD_flipSign_of_lt (f : Word) {k : ℕ} (hk : k < 31) : (flipSign f).getLsbD k = f.getLsbD k := by
  have hmask : ∀ k < 31, (0x80000000#32).getLsbD k = false := by decide
  rw [flipSign, BitVec.getLsbD_xor, hmask k hk, Bool.xor_false]

/-- Below bit 31 the mask of ABS has every bit set. -/
theorem getLsbD_clearSign_of_lt (f : Word) {k : ℕ} (hk : k < 31) : (clearSign f).getLsbD k = f.getLsbD k := by
  have hmask : ∀ k < 31, (0x7FFFFFFF#32).getLsbD k = true := by decide
  rw [clearSign, BitVec.getLsbD_and, hmask k hk, Bool.and_true]

/-- Replacing the `FLAGS` word by one that agrees below bit 31 changes the sign alone. -/
theorem dec_of_flags_agree {b : DecReg} {f : Word} (h : ∀ k, k < 31 → f.getLsbD k = b.flags.getLsbD k) :
    DecReg.dec ⟨b.lo, b.mid, b.hi, f⟩ = ⟨b.mant, b.scale, f.getLsbD 31⟩ := by
  have hscale : f.extractLsb' 16 8 = b.flags.extractLsb' 16 8 := by
    apply BitVec.eq_of_getLsbD_eq
    intro k hk
    simp only [BitVec.getLsbD_extractLsb', h (16 + k) (by omega)]
  exact congrArg (fun e : BitVec 8 => Dec.mk b.mant e.toNat (f.getLsbD 31)) hscale

theorem value_clear_neg (d : Dec) : Dec.value ⟨d.mant, d.scale, false⟩ = |d.value| := by
  rw [abs_value, Dec.value, if_neg Bool.false_ne_true, one_mul]

theorem value_flipSign (b : DecReg) : DecReg.value ⟨b.lo, b.mid, b.hi, flipSign b.flags⟩ = -b.value := by
  rw [DecReg.value, dec_of_flags_agree fun _ => getLsbD_flipSign_of_lt b.flags, getLsbD_flipSign_top]
  exact value_flip_neg b.dec

theorem value_clearSign (b : DecReg) : DecReg.value ⟨b.lo, b.mid, b.hi, clearSign b.flags⟩ = |b.value| := by
  rw [DecReg.value, dec_of_flags_agree fun _ => getLsbD_clearSign_of_lt b.flags, getLsbD_clearSign_top]
  exact value_clear_neg b.dec

/-! ### The digit commands (R177 to R179) -/

theorem mant_le_max96 (r : DecReg) : r.mant ≤ max96 := Nat.le_sub_one_of_lt (mant_lt r)

/-- A mantissa that fits 96 bits reads back. -/
theorem mant_withMant_of_le (r : DecReg) {m : ℕ} (h : m ≤ max96) : (r.withMant m).mant = m := by
  rw [mant_withMant]
  exact Nat.mod_eq_of_lt (Nat.lt_of_le_sub_one (by decide) h)

/-- The result MUL10 and ADDI32 share: `m` as the new mantissa of a register with `FLAGS` kept, none when `m` leaves 96
bits. -/
def replaceMant (s : State) (r : DReg) (m : ℕ) : Option State :=
  if m ≤ max96 then some (s.setD r ((s.getD r).withMant m)) else none

theorem exec_mul10 (r : DReg) (s : State) :
    exec (.mul10 r) s = orOverflow (encode (.mul10 r)) s (replaceMant s r ((s.getD r).mant * 10)) := rfl

theorem exec_addi32 (r : DReg) (s : State) :
    exec (.addi32 r) s = orOverflow (encode (.addi32 r)) s (replaceMant s r ((s.getD r).mant + s.xlo.toNat)) := rfl

theorem orOverflow_replaceMant_of_lt (w : Word) (s : State) (r : DReg) {m : ℕ} (h : max96 < m) :
    orOverflow w s (replaceMant s r m) = .next (s.raiseFault .overflow w) := by
  rw [replaceMant, if_neg h.not_ge]
  rfl

theorem orOverflow_replaceMant_of_le (w : Word) (s : State) (r : DReg) {m : ℕ} (h : m ≤ max96) :
    ∃ v, orOverflow w s (replaceMant s r m) = .next (s.setD r v) ∧ v.flags = (s.getD r).flags ∧ v.mant = m := by
  rw [replaceMant, if_pos h]
  exact ⟨_, rfl, flags_withMant _ _, mant_withMant_of_le _ h⟩

/-- The bound of R178 is `POWER_OVFL[1]`: up to it the product fits 96 bits. -/
theorem mul_ten_le_max96_iff (m : ℕ) : m * 10 ≤ max96 ↔ m ≤ 7922816251426433759354395033 :=
  (Nat.le_div_iff_mul_le (by decide)).symm

/-- The remainder by `10^9` is one word, so `X` holds it whole. -/
theorem toNat_join64_mod_1e9 (m : ℕ) : (join64 0 (BitVec.ofNat 32 (m % 10 ^ 9))).toNat = m % 10 ^ 9 := by
  rw [toNat_join64, BitVec.toNat_ofNat, Nat.mod_eq_of_lt ((Nat.mod_lt m (by decide)).trans (by decide))]
  simp

/-! ### The obligations -/

/-- Settles O34: `Cmp3` is the sign of the exact difference, and the command cannot overflow. -/
theorem cmpResult : Obligations.CmpResult := by
  intro rd rs s
  refine ⟨rfl, valueCommand_pair_of_invalid _ s _, fun hv => ?_⟩
  rw [DecReg.value, DecReg.value, ← cmp3_eq_sign]
  exact valueCommand_pair_of_valid _ s _ hv

/-- Settles O35: the mantissa is looked at before the sign bit. -/
theorem signResult : Obligations.SignResult := by
  intro r s
  refine ⟨rfl, valueCommand_single_of_invalid _ s _, fun hv hzero => ?_, fun hv hne hneg => ?_,
    fun hv hne hpos => ?_⟩
  · rw [execSign_of_valid hv, signOf_of_mant_eq_zero ((mant_eq_zero_iff _).2 hzero)]
    rfl
  · have hsign : (s.getD r).dec.neg = true := hneg
    rw [execSign_of_valid hv, signOf_of_mant_ne_zero (mt (mant_eq_zero_iff _).1 hne), if_pos hsign]
    rfl
  · have hsign : ¬(s.getD r).dec.neg = true := ne_true_of_eq_false hpos
    rw [execSign_of_valid hv, signOf_of_mant_ne_zero (mt (mant_eq_zero_iff _).1 hne), if_neg hsign]
    rfl

/-- Settles O36: the two masks touch bit 31 alone, and that bit is the sign of the value. -/
theorem negAbsResult : Obligations.NegAbsResult := by
  intro rd rs s
  exact ⟨rfl, rfl,
    ⟨_, rfl, getLsbD_flipSign_top _, fun _ => getLsbD_flipSign_of_lt _, value_flipSign (s.getD rs)⟩,
    ⟨_, rfl, getLsbD_clearSign_top _, fun _ => getLsbD_clearSign_of_lt _, value_clearSign (s.getD rs)⟩⟩

/-- Settles O37: the test of each command is a strict order of the values, so a tie keeps the destination. -/
theorem maxMinResult : Obligations.MaxMinResult := by
  intro rd rs s
  refine ⟨rfl, rfl, fun hv => ⟨valueCommand_pair_of_invalid _ s _ hv, valueCommand_pair_of_invalid _ s _ hv⟩,
    fun hv => ⟨?_, ?_⟩⟩
  · exact (valueCommand_pair_of_valid _ s _ hv).trans (congrArg _ (if_congr (cmp3_neg_iff _ _) rfl rfl))
  · exact (valueCommand_pair_of_valid _ s _ hv).trans (congrArg _ (if_congr (cmp3_pos_iff _ _) rfl rfl))

/-- Settles O44: quotient and remainder each fit where they are written, so the division equation holds of the
registers. -/
theorem divmod1e9Result : Obligations.Divmod1e9Result := by
  intro r s
  have hquot : (s.getD r).mant / 10 ^ 9 ≤ max96 := (Nat.div_le_self _ _).trans (mant_le_max96 _)
  refine ⟨rfl, _, _, rfl, flags_withMant _ _, ?_, ?_⟩
  · rw [mant_withMant_of_le _ hquot, toNat_join64_mod_1e9]
    exact Nat.div_add_mod' _ _
  · rw [toNat_join64_mod_1e9]
    exact Nat.mod_lt _ (by decide)

/-- Settles O45: the product leaves 96 bits exactly above `POWER_OVFL[1]`. -/
theorem mul10Result : Obligations.Mul10Result := by
  intro r s
  have hbound := mul_ten_le_max96_iff (s.getD r).mant
  rw [Raises, exec_mul10, Nat.mul_comm 10]
  exact ⟨rfl, fun h => orOverflow_replaceMant_of_lt _ s r ((lt_iff_lt_of_le_iff_le hbound).2 h),
    fun h => orOverflow_replaceMant_of_le _ s r (hbound.2 h)⟩

/-- Settles O46: the addend is `XLO` as an unsigned number. -/
theorem addi32Result : Obligations.Addi32Result := by
  intro r s
  rw [Raises, exec_addi32, ← toNat_lo32]
  exact ⟨rfl, orOverflow_replaceMant_of_lt _ s r, orOverflow_replaceMant_of_le _ s r⟩

end Sys2Proof.Proofs

/-! PROOFS. Faults (spec/60_exceptions.md R192, R194, R198). A write of `CMD` runs the command its word is, so what a
word decodes to comes first: when a word matches a row its low byte picks the row (spec/30_encoding.md R72, R73), hence
the word of a well-formed command decodes to that command. -/

namespace Sys2Proof.Proofs

open Sys2Proof.Machine Sys2Proof.Config Sys2Proof.Laws

/-! ### The row a word belongs to (R72, R73) -/

/-- The opcodes of the map are distinct, so a row is known by its opcode. -/
theorem row_eq_of_opc_eq {row row' : OpcodeRow} (hrow : row ∈ opcodeTable) (hrow' : row' ∈ opcodeTable)
    (hopc : row.opc = row'.opc) : row = row' :=
  List.inj_on_of_nodup_map (f := OpcodeRow.opc) (by decide) hrow hrow' hopc

/-- Every mask keeps the low byte, and every opcode is one byte. -/
theorem low_byte_of_hits {row : OpcodeRow} {w : Word} (hrow : row ∈ opcodeTable) (hhits : row.hits w = true) :
    w &&& 0xFF#32 = row.opc := by
  have hmask : row.format.mask &&& 0xFF#32 = 0xFF#32 := by cases row.format <;> decide
  have hbytes : ∀ r ∈ opcodeTable, r.opc &&& 0xFF#32 = r.opc := by decide
  have hmatch : w &&& row.format.mask = row.opc := eq_of_beq hhits
  calc w &&& 0xFF#32 = w &&& row.format.mask &&& 0xFF#32 := by rw [BitVec.and_assoc, hmask]
    _ = row.opc := by rw [hmatch, hbytes row hrow]

/-- When a word matches some row, its low byte says which. -/
theorem decode_of_low_byte {row : OpcodeRow} {w : Word} (hinst : ∃ r ∈ opcodeTable, r.hits w = true)
    (hrow : row ∈ opcodeTable) (hbyte : w &&& 0xFF#32 = row.opc) : decode w = some (row.build w) := by
  obtain ⟨found, hfound⟩ := Option.isSome_iff_exists.1 (List.find?_isSome.2 hinst)
  have hmem : found ∈ opcodeTable := List.mem_of_find?_eq_some hfound
  have hhits : found.hits w = true := List.find?_some (p := fun r : OpcodeRow => r.hits w) hfound
  have hopc : found.opc = row.opc := (low_byte_of_hits hmem hhits).symm.trans hbyte
  rw [decode, hfound, row_eq_of_opc_eq hmem hrow hopc]
  rfl

/-! ### The fields of the word of a command (R71, R77) -/

/-- Bits of a 32-bit word are a quotient of the number it is made from. -/
theorem extractLsb'_ofNat {start len : ℕ} (h : start + len ≤ 32) (n : ℕ) :
    (BitVec.ofNat 32 n).extractLsb' start len = BitVec.ofNat len (n / 2 ^ start) := by
  apply BitVec.eq_of_getLsbD_eq
  intro k hk
  have hbit : start + k < 32 := by omega
  rw [BitVec.getLsbD_extractLsb', BitVec.getLsbD_ofNat, BitVec.getLsbD_ofNat, Nat.testBit_div_two_pow]
  simp [hk, hbit, Nat.add_comm]

theorem ofBits_ofNat {n : ℕ} {r : DReg} (h : n % 2 ^ 2 = r.index) : DReg.ofBits (BitVec.ofNat 2 n) = r := by
  rw [DReg.ofBits, BitVec.toNat_ofNat, h]
  cases r <;> rfl

theorem index_lt (r : DReg) : r.index < 4 := by cases r <;> decide

/-- The five fields of a command word, lowest first, as one number. -/
def packFields (opc : ℕ) (rd rs : DReg) (imm mode : ℕ) : ℕ :=
  opc + rd.index * 2 ^ 8 + rs.index * 2 ^ 10 + imm * 2 ^ 12 + mode * 2 ^ 17

theorem encodeRR_eq (opc : ℕ) (rd rs : DReg) : encodeRR opc rd rs = BitVec.ofNat 32 (packFields opc rd rs 0 0) := by
  simp only [encodeRR, packFields, Nat.zero_mul, Nat.add_zero]

theorem encodeR_eq (opc : ℕ) (r : DReg) : encodeR opc r = BitVec.ofNat 32 (packFields opc r .d0 0 0) := by
  simp only [encodeR, packFields, DReg.index, Nat.zero_mul, Nat.add_zero]

theorem encode_round (rd rs : DReg) (n : ℕ) (mode : RoundMode) :
    encode (.round rd rs n mode) = BitVec.ofNat 32 (packFields 0x22 rd rs (n % 32) mode.bit) := rfl

section
variable {opc imm mode : ℕ} (rd rs : DReg)

theorem low_byte_packFields (hopc : opc < 2 ^ 8) :
    BitVec.ofNat 32 (packFields opc rd rs imm mode) &&& 0xFF#32 = BitVec.ofNat 32 opc := by
  apply BitVec.eq_of_toNat_eq
  have hmask : (0xFF#32).toNat = 2 ^ 8 - 1 := rfl
  rw [BitVec.toNat_and, hmask, Nat.and_two_pow_sub_one_eq_mod, BitVec.toNat_ofNat, BitVec.toNat_ofNat, packFields]
  omega

theorem fieldRD_packFields (hopc : opc < 2 ^ 8) : fieldRD (BitVec.ofNat 32 (packFields opc rd rs imm mode)) = rd := by
  have hrd := index_lt rd
  have hquot : packFields opc rd rs imm mode / 2 ^ 8 % 2 ^ 2 = rd.index := by
    simp only [packFields]
    omega
  rw [fieldRD, extractLsb'_ofNat (by decide), ofBits_ofNat hquot]

theorem fieldRS_packFields (hopc : opc < 2 ^ 8) : fieldRS (BitVec.ofNat 32 (packFields opc rd rs imm mode)) = rs := by
  have hrd := index_lt rd
  have hrs := index_lt rs
  have hquot : packFields opc rd rs imm mode / 2 ^ 10 % 2 ^ 2 = rs.index := by
    simp only [packFields]
    omega
  rw [fieldRS, extractLsb'_ofNat (by decide), ofBits_ofNat hquot]

theorem fieldImm5_packFields (hopc : opc < 2 ^ 8) (himm : imm < 32) :
    fieldImm5 (BitVec.ofNat 32 (packFields opc rd rs imm mode)) = imm := by
  have hrd := index_lt rd
  have hrs := index_lt rs
  have hquot : packFields opc rd rs imm mode / 2 ^ 12 % 2 ^ 5 = imm := by
    simp only [packFields]
    omega
  rw [fieldImm5, extractLsb'_ofNat (by decide), BitVec.toNat_ofNat, hquot]

theorem fieldMode_packFields (hopc : opc < 2 ^ 8) (himm : imm < 32) (mode : RoundMode) :
    fieldMode (BitVec.ofNat 32 (packFields opc rd rs imm mode.bit)) = mode := by
  have hrd := index_lt rd
  have hrs := index_lt rs
  have hquot : packFields opc rd rs imm mode.bit / 2 ^ 17 = mode.bit := by
    simp only [packFields]
    omega
  simp only [fieldMode, BitVec.getLsbD_ofNat, Nat.testBit_eq_decide_div_mod_eq, hquot]
  cases mode <;> rfl

end

/-! ### The word of a command decodes to it (R79) -/

/-- The word of every command matches a row. -/
theorem rowInstance (i : Instr) : RowInstance.Statement i :=
  match i with
  | .add rd rs => RowInstance.add rd rs
  | .sub rd rs => RowInstance.sub rd rs
  | .mul rd rs => RowInstance.mul rd rs
  | .div rd rs => RowInstance.div rd rs
  | .mod rd rs => RowInstance.mod rd rs
  | .trunc rd rs => RowInstance.trunc rd rs
  | .floor rd rs => RowInstance.floor rd rs
  | .round rd rs n mode => RowInstance.round rd rs n mode
  | .cmp rd rs => RowInstance.cmp rd rs
  | .neg rd rs => RowInstance.neg rd rs
  | .abs rd rs => RowInstance.abs rd rs
  | .sign r => RowInstance.sign r
  | .max rd rs => RowInstance.max rd rs
  | .min rd rs => RowInstance.min rd rs
  | .cytod r => RowInstance.cytod r
  | .dtocy r => RowInstance.dtocy r
  | .r8tod r => RowInstance.r8tod r
  | .r4tod r => RowInstance.r4tod r
  | .dtor8 r => RowInstance.dtor8 r
  | .dtor4 r => RowInstance.dtor4 r
  | .divmod1e9 r => RowInstance.divmod1e9 r
  | .mul10 r => RowInstance.mul10 r
  | .addi32 r => RowInstance.addi32 r

theorem decode_encode_of_rr {opc : ℕ} {c : DReg → DReg → Instr} {rd rs : DReg} (hopc : opc < 2 ^ 8)
    (hrow : OpcodeRow.rr (BitVec.ofNat 32 opc) c ∈ opcodeTable) (henc : encode (c rd rs) = encodeRR opc rd rs) :
    decode (encode (c rd rs)) = some (c rd rs) := by
  have hinst := rowInstance (c rd rs)
  rw [RowInstance.Statement, henc, encodeRR_eq] at hinst
  rw [henc, encodeRR_eq, decode_of_low_byte hinst hrow (low_byte_packFields rd rs hopc)]
  simp only [OpcodeRow.rr, fieldRD_packFields rd rs hopc, fieldRS_packFields rd rs hopc]

theorem decode_encode_of_r {opc : ℕ} {c : DReg → Instr} {r : DReg} (hopc : opc < 2 ^ 8)
    (hrow : OpcodeRow.r (BitVec.ofNat 32 opc) c ∈ opcodeTable) (henc : encode (c r) = encodeR opc r) :
    decode (encode (c r)) = some (c r) := by
  have hinst := rowInstance (c r)
  rw [RowInstance.Statement, henc, encodeR_eq] at hinst
  rw [henc, encodeR_eq, decode_of_low_byte hinst hrow (low_byte_packFields r .d0 hopc)]
  simp only [OpcodeRow.r, fieldRD_packFields r .d0 hopc]

theorem decode_encode_round (rd rs : DReg) {n : ℕ} (mode : RoundMode) (hn : n < 32) :
    decode (encode (.round rd rs n mode)) = some (.round rd rs n mode) := by
  have hrow : ⟨0x22#32, .rri, fun w => .round (fieldRD w) (fieldRS w) (fieldImm5 w) (fieldMode w)⟩ ∈ opcodeTable := by
    simp only [opcodeTable, List.mem_cons, true_or, or_true]
  have hopc : 0x22 < 2 ^ 8 := by decide
  have hbyte := low_byte_packFields (imm := n) (mode := mode.bit) rd rs hopc
  have hinst := rowInstance (.round rd rs n mode)
  rw [RowInstance.Statement, encode_round, Nat.mod_eq_of_lt hn] at hinst
  rw [encode_round, Nat.mod_eq_of_lt hn, decode_of_low_byte hinst hrow hbyte]
  simp only [fieldRD_packFields rd rs hopc, fieldRS_packFields rd rs hopc, fieldImm5_packFields rd rs hopc hn,
    fieldMode_packFields rd rs hopc hn]

/-- A well-formed command is decoded from its word, by the format of its row. -/
theorem decode_encode {i : Instr} (hwf : i.wellFormed = true) : decode (encode i) = some i := by
  cases i with
  | add | sub | mul | div | mod | trunc | floor | cmp | neg | abs | max | min =>
    exact decode_encode_of_rr (by decide) (by simp only [opcodeTable, List.mem_cons, true_or, or_true]) rfl
  | sign | cytod | dtocy | r8tod | r4tod | dtor8 | dtor4 | divmod1e9 | mul10 | addi32 =>
    exact decode_encode_of_r (by decide) (by simp only [opcodeTable, List.mem_cons, true_or, or_true]) rfl
  | round rd rs n mode => exact decode_encode_round rd rs mode (of_decide_eq_true hwf)

/-! ### Writes of `CMD` and `STATUS` (R194, R197, R198) -/

theorem execute_of_decode_none {w : Word} (s : State) (h : decode w = none) :
    execute w s = .next (s.raiseFault .illegalCommand w) := by
  simp only [execute, h]

theorem execute_of_decode_some {w : Word} {i : Instr} (s : State) (h : decode w = some i) : execute w s = exec i s := by
  simp only [execute, h]

/-- An engine that is not faulted executes a word written to `CMD`. -/
theorem step_hostWrite_cmd {s : State} {w : Word} {rest : List HostEvent} (h : s.hostIn = hostWrite 18 w :: rest)
    (herr : s.err = 0) : step s = execute w { s with hostIn := rest } :=
  (step_hostWrite (by decide) h).trans (if_pos herr)

theorem step_hostCommand {s : State} {i : Instr} {rest : List HostEvent} (hwf : i.wellFormed = true)
    (h : s.hostIn = hostCommand i :: rest) (herr : s.err = 0) : step s = exec i { s with hostIn := rest } :=
  (step_hostWrite_cmd h herr).trans (execute_of_decode_some _ (decode_encode hwf))

/-- A write of `STATUS` is the return from a fault, whatever the data. -/
theorem step_hostWrite_status {s : State} {v : Word} {rest : List HostEvent} (h : s.hostIn = hostWrite 19 v :: rest) :
    step s = .next { s with hostIn := rest, err := 0, ecmd := 0 } :=
  step_hostWrite (by decide) h

/-- With no fault recorded there is nothing to clear. -/
theorem clearFault_eq_self {s : State} (herr : s.err = 0) (hecmd : s.ecmd = 0) : s.clearFault = s := by
  rw [State.clearFault, ← herr, ← hecmd]

/-! ### The obligations -/

/-- Settles O7: a write of `CMD` executes its word, and a word of no row raises IllegalCommand. -/
theorem illegalWordTakesFault : Obligations.IllegalWordTakesFault := by
  intro s w rest h herr hdecode
  exact (step_hostWrite_cmd h herr).trans (execute_of_decode_none _ hdecode)

/-- Settles O9: a write of `STATUS` clears the fault, a command written next decodes to itself and runs, and a read only
appends to the returned values. -/
theorem statusWriteClearsFault : Obligations.StatusWriteClearsFault := by
  intro s v rest h
  refine ⟨step_hostWrite_status h, fun herr hecmd => ?_, fun i rest' hwf hrest => ?_, fun idx hidx => ?_⟩
  · rw [step_hostWrite_status h]
    exact congrArg _ (clearFault_eq_self (s := { s with hostIn := rest }) herr hecmd)
  · exact step_hostCommand (s := { s with hostIn := rest, err := 0, ecmd := 0 }) hwf hrest rfl
  · have hwindow : idx < 32 := by omega
    exact ⟨_, step_hostRead hwindow rfl, rfl, rfl⟩

/-- Settles O23: the mantissa is the three words tested, and the frame of DIV and MOD tests it first. -/
theorem zeroDivisorTakesFault : Obligations.ZeroDivisorTakesFault := by
  intro rd rs s hhi hmid hlo
  have hmant : (s.getD rs).mant = 0 := (mant_eq_zero_iff _).2 ⟨hhi, hmid, hlo⟩
  exact ⟨dividingCommand_of_zero _ s _ _ hmant, dividingCommand_of_zero _ s _ _ hmant⟩

end Sys2Proof.Proofs

/-! PROOFS. The command word (spec/30_encoding.md R70 to R79). A word matches a row exactly when its low byte is the
row's opcode and every bit that the row's format does not use is clear; so what matches is the word of the command its
fields give, and a word that matches no row fails every row in one of those bits. -/

namespace Sys2Proof.Proofs

open Sys2Proof.Machine Sys2Proof.Config Sys2Proof.Laws

/-! ### The bits a row looks at (R72) -/

/-- A mask keeps the opcode, the bits of `ZERO`, and the operand fields its format does not use. -/
theorem getLsbD_mask (f : Format) {k : ℕ} (hk : k < 32) :
    f.mask.getLsbD k = decide (k < 8 ∨ 18 ≤ k ∨ (f ≠ .rri ∧ 12 ≤ k) ∨ (f = .r ∧ 10 ≤ k)) := by
  have hbits : ∀ k < 32,
      f.mask.getLsbD k = decide (k < 8 ∨ 18 ≤ k ∨ (f ≠ .rri ∧ 12 ≤ k) ∨ (f = .r ∧ 10 ≤ k)) := by
    cases f <;> decide
  exact hbits k hk

/-- Every opcode is one byte. -/
theorem opc_toNat_lt {row : OpcodeRow} (hrow : row ∈ opcodeTable) : row.opc.toNat < 2 ^ 8 := by
  have hbytes : ∀ r ∈ opcodeTable, r.opc.toNat < 2 ^ 8 := by decide
  exact hbytes row hrow

/-- A field is clear when its bits are. -/
theorem extractLsb'_eq_zero_iff (w : Word) (start len : ℕ) :
    w.extractLsb' start len = 0 ↔ ∀ k, start ≤ k → k < start + len → w.getLsbD k = false := by
  constructor
  · intro h k hlo hhi
    have hbit := congrArg (fun x : BitVec len => x.getLsbD (k - start)) h
    have hlen : k - start < len := by omega
    have hk : start + (k - start) = k := by omega
    simpa [BitVec.getLsbD_extractLsb', hlen, hk] using hbit
  · intro h
    apply BitVec.eq_of_getLsbD_eq
    intro k hk
    simp [BitVec.getLsbD_extractLsb', h (start + k) (by omega) (by omega)]

/-- The low byte of a word is an opcode exactly when the word and the opcode agree in the bits 7:0. -/
theorem low_byte_eq_iff (w opc : Word) :
    (w.extractLsb' 0 8).toNat = opc.toNat ↔ w &&& 0xFF#32 = opc := by
  have hmask : (0xFF#32).toNat = 2 ^ 8 - 1 := rfl
  rw [← BitVec.toNat_inj, BitVec.toNat_and, hmask, Nat.and_two_pow_sub_one_eq_mod, BitVec.extractLsb'_toNat,
    Nat.shiftRight_zero]

/-- Above its opcode a row has no bits. -/
theorem getLsbD_opc {row : OpcodeRow} (hrow : row ∈ opcodeTable) {k : ℕ} (hk : 8 ≤ k) : row.opc.getLsbD k = false :=
  Nat.testBit_lt_two_pow ((opc_toNat_lt hrow).trans_le (Nat.pow_le_pow_right (by decide) hk))

theorem getLsbD_of_hits {row : OpcodeRow} (hrow : row ∈ opcodeTable) {w : Word} (hhits : row.hits w = true) {k : ℕ}
    (hk : 8 ≤ k) (hmask : row.format.mask.getLsbD k = true) : w.getLsbD k = false := by
  have hmatch : w &&& row.format.mask = row.opc := eq_of_beq hhits
  have hbit := congrArg (fun x : Word => x.getLsbD k) hmatch
  rwa [BitVec.getLsbD_and, hmask, Bool.and_true, getLsbD_opc hrow hk] at hbit

/-- The fields of a word that matches. -/
theorem fields_of_hits {row : OpcodeRow} (hrow : row ∈ opcodeTable) {w : Word} (hhits : row.hits w = true) :
    w.extractLsb' 18 14 = 0 ∧ (row.format ≠ .rri → w.extractLsb' 12 6 = 0) ∧
      (row.format = .r → w.extractLsb' 10 2 = 0) := by
  have hbit : ∀ k, 8 ≤ k → k < 32 → (18 ≤ k ∨ (row.format ≠ .rri ∧ 12 ≤ k) ∨ (row.format = .r ∧ 10 ≤ k)) →
      w.getLsbD k = false := fun k hlow hk hfield =>
    getLsbD_of_hits hrow hhits hlow ((getLsbD_mask row.format hk).trans (decide_eq_true (.inr hfield)))
  simp only [extractLsb'_eq_zero_iff]
  refine ⟨fun k hlo hhi => ?_, fun hf k hlo hhi => ?_, fun hf k hlo hhi => ?_⟩
  · exact hbit k (by omega) hhi (.inl hlo)
  · exact hbit k (by omega) (by omega) (.inr (.inl ⟨hf, hlo⟩))
  · exact hbit k (by omega) (by omega) (.inr (.inr ⟨hf, hlo⟩))

/-- The bits that the mask keeps are clear when the unused fields are. -/
theorem getLsbD_of_fields {row : OpcodeRow} {w : Word} (hzero : w.extractLsb' 18 14 = 0)
    (himm : row.format ≠ .rri → w.extractLsb' 12 6 = 0) (hrs : row.format = .r → w.extractLsb' 10 2 = 0) {k : ℕ}
    (hk : k < 32) (hfield : 18 ≤ k ∨ (row.format ≠ .rri ∧ 12 ≤ k) ∨ (row.format = .r ∧ 10 ≤ k)) :
    w.getLsbD k = false := by
  simp only [extractLsb'_eq_zero_iff] at hzero himm hrs
  rcases Nat.lt_or_ge k 18 with h18 | h18
  · obtain h | ⟨hf, h12⟩ | ⟨hf, h10⟩ := hfield
    · exact absurd h (not_le.2 h18)
    · exact himm hf k h12 h18
    · rcases Nat.lt_or_ge k 12 with h12 | h12
      · exact hrs hf k h10 h12
      · exact himm (by rw [hf]; decide) k h12 h18
  · exact hzero k h18 hk

/-- Matching a row, field by field. -/
theorem hits_iff {row : OpcodeRow} (hrow : row ∈ opcodeTable) (w : Word) :
    row.hits w = true ↔ (w.extractLsb' 0 8).toNat = row.opc.toNat ∧ w.extractLsb' 18 14 = 0 ∧
      (row.format ≠ .rri → w.extractLsb' 12 6 = 0) ∧ (row.format = .r → w.extractLsb' 10 2 = 0) := by
  rw [low_byte_eq_iff]
  constructor
  · exact fun hhits => ⟨low_byte_of_hits hrow hhits, fields_of_hits hrow hhits⟩
  · rintro ⟨hlow, hzero, himm, hrs⟩
    refine beq_iff_eq.2 (BitVec.eq_of_getLsbD_eq fun k hk => ?_)
    rw [BitVec.getLsbD_and, getLsbD_mask row.format hk]
    rcases Nat.lt_or_ge k 8 with hlt | hge
    · have hff : ∀ k < 8, (0xFF#32).getLsbD k = true := by decide
      have hbit := congrArg (fun x : Word => x.getLsbD k) hlow
      rw [BitVec.getLsbD_and, hff k hlt] at hbit
      rwa [decide_eq_true (.inl hlt)]
    · rw [getLsbD_opc hrow hge, Bool.and_eq_false_iff, or_iff_not_imp_right, Bool.not_eq_false, decide_eq_true_eq]
      exact fun hkept => getLsbD_of_fields hzero himm hrs hk (hkept.resolve_left (not_lt.2 hge))

/-- A word is illegal when it matches no row (R74). -/
theorem decode_eq_none_iff (w : Word) : decode w = none ↔ ∀ row ∈ opcodeTable, row.hits w = false := by
  simp [decode]

/-- A word that decodes matches a row, which builds its command. -/
theorem exists_row_of_decode {w : Word} {i : Instr} (h : decode w = some i) :
    ∃ row ∈ opcodeTable, row.hits w = true ∧ row.build w = i := by
  obtain ⟨row, hfind, hbuild⟩ := Option.map_eq_some_iff.1 h
  exact ⟨row, List.mem_of_find?_eq_some hfind, List.find?_some (p := fun r : OpcodeRow => r.hits w) hfind, hbuild⟩

/-! ### A word is made of its fields (R71, R77) -/

theorem index_ofBits (b : BitVec 2) : (DReg.ofBits b).index = b.toNat := by
  have hall : ∀ b : BitVec 2, (DReg.ofBits b).index = b.toNat := by decide
  exact hall b

theorem index_fieldRD (w : Word) : (fieldRD w).index = w.toNat / 2 ^ 8 % 2 ^ 2 := by
  rw [fieldRD, index_ofBits, BitVec.extractLsb'_toNat, Nat.shiftRight_eq_div_pow]

theorem index_fieldRS (w : Word) : (fieldRS w).index = w.toNat / 2 ^ 10 % 2 ^ 2 := by
  rw [fieldRS, index_ofBits, BitVec.extractLsb'_toNat, Nat.shiftRight_eq_div_pow]

theorem fieldImm5_eq (w : Word) : fieldImm5 w = w.toNat / 2 ^ 12 % 2 ^ 5 := by
  rw [fieldImm5, BitVec.extractLsb'_toNat, Nat.shiftRight_eq_div_pow]

theorem bit_fieldMode (w : Word) : (fieldMode w).bit = w.toNat / 2 ^ 17 % 2 := by
  have hbit : w.getLsbD 17 = decide (w.toNat / 2 ^ 17 % 2 = 1) := Nat.testBit_eq_decide_div_mod_eq
  rw [fieldMode, hbit]
  rcases Nat.mod_two_eq_zero_or_one (w.toNat / 2 ^ 17) with h | h <;> rw [h] <;> rfl

theorem toNat_field_eq_zero {w : Word} {start len : ℕ} (h : w.extractLsb' start len = 0) :
    w.toNat / 2 ^ start % 2 ^ len = 0 := by
  rw [← Nat.shiftRight_eq_div_pow, ← BitVec.extractLsb'_toNat, h]
  rfl

/-- What a row builds is well formed, and its word is the row's fields; a field outside the format is 0. -/
def WritesFields (w : Word) (row : OpcodeRow) : Prop :=
  encode (row.build w) = BitVec.ofNat 32 (packFields row.opc.toNat (fieldRD w)
    (if row.format = .r then .d0 else fieldRS w) (if row.format = .rri then fieldImm5 w else 0)
    (if row.format = .rri then (fieldMode w).bit else 0)) ∧ (row.build w).wellFormed = true

theorem writesFields_rr {w opc : Word} {c : DReg → DReg → Instr}
    (h : ∀ rd rs, encode (c rd rs) = encodeRR opc.toNat rd rs ∧ (c rd rs).wellFormed = true) :
    WritesFields w (.rr opc c) := ⟨(h _ _).1.trans (encodeRR_eq _ _ _), (h _ _).2⟩

theorem writesFields_r {w opc : Word} {c : DReg → Instr}
    (h : ∀ rd, encode (c rd) = encodeR opc.toNat rd ∧ (c rd).wellFormed = true) :
    WritesFields w (.r opc c) := ⟨(h _).1.trans (encodeR_eq _ _), (h _).2⟩

/-- Only ROUND has a condition, and its `IMM5` has five bits. -/
theorem writesFields_round (w : Word) :
    WritesFields w ⟨0x22#32, .rri, fun w => .round (fieldRD w) (fieldRS w) (fieldImm5 w) (fieldMode w)⟩ := by
  have himm : fieldImm5 w < 32 := (w.extractLsb' 12 5).isLt
  have hround := encode_round (fieldRD w) (fieldRS w) (fieldImm5 w) (fieldMode w)
  rw [Nat.mod_eq_of_lt himm] at hround
  exact ⟨hround, decide_eq_true himm⟩

/-- The rows in the table's order. -/
theorem writesFields (w : Word) : ∀ row ∈ opcodeTable, WritesFields w row := by
  refine List.forall_iff_forall_mem.1 ?_
  iterate 7 refine And.intro (writesFields_rr fun _ _ => ⟨rfl, rfl⟩) ?_
  refine And.intro (writesFields_round w) ?_
  iterate 3 refine And.intro (writesFields_rr fun _ _ => ⟨rfl, rfl⟩) ?_
  refine And.intro (writesFields_r fun _ => ⟨rfl, rfl⟩) ?_
  iterate 2 refine And.intro (writesFields_rr fun _ _ => ⟨rfl, rfl⟩) ?_
  iterate 8 refine And.intro (writesFields_r fun _ => ⟨rfl, rfl⟩) ?_
  exact writesFields_r fun _ => ⟨rfl, rfl⟩

theorem mod_two_pow_add (n : ℕ) {a b c : ℕ} (h : a + b = c) :
    n % 2 ^ a + n / 2 ^ a % 2 ^ b * 2 ^ a = n % 2 ^ c := by
  rw [← h, pow_add, Nat.mod_mul, Nat.mul_comm]

/-- The fields of a word of 18 bits, packed again. -/
theorem pack_bits {n : ℕ} (h : n / 2 ^ 18 % 2 ^ 14 = 0) (hn : n < 2 ^ 32) :
    n % 2 ^ 8 + n / 2 ^ 8 % 2 ^ 2 * 2 ^ 8 + n / 2 ^ 10 % 2 ^ 2 * 2 ^ 10 + n / 2 ^ 12 % 2 ^ 5 * 2 ^ 12 +
      n / 2 ^ 17 % 2 ^ 1 * 2 ^ 17 = n := by
  rw [mod_two_pow_add n (rfl : 8 + 2 = 10), mod_two_pow_add n (rfl : 10 + 2 = 12),
    mod_two_pow_add n (rfl : 12 + 5 = 17), mod_two_pow_add n (rfl : 17 + 1 = 18)]
  have hdiv : n / 2 ^ 18 < 2 ^ 14 := Nat.div_lt_of_lt_mul (by rwa [← pow_add])
  rw [Nat.mod_eq_of_lt hdiv, Nat.div_eq_zero_iff_lt (by decide)] at h
  exact Nat.mod_eq_of_lt h

theorem encode_build_eq {row : OpcodeRow} {w : Word} (hrow : row ∈ opcodeTable) (hhits : row.hits w = true) :
    encode (row.build w) = w := by
  obtain ⟨hlow, hzero, himm, hrs⟩ := (hits_iff hrow w).1 hhits
  rw [BitVec.extractLsb'_toNat, Nat.shiftRight_zero] at hlow
  have hrsField : (if row.format = .r then DReg.d0 else fieldRS w).index = w.toNat / 2 ^ 10 % 2 ^ 2 := by
    split_ifs with hf
    · exact (toNat_field_eq_zero (hrs hf)).symm
    · exact index_fieldRS w
  have himmField : (if row.format = .rri then fieldImm5 w else 0) = w.toNat / 2 ^ 12 % 2 ^ 5 := by
    split_ifs with hf
    · exact fieldImm5_eq w
    · have hi := toNat_field_eq_zero (himm hf)
      omega
  have hmodeField : (if row.format = .rri then (fieldMode w).bit else 0) = w.toNat / 2 ^ 17 % 2 ^ 1 := by
    split_ifs with hf
    · exact bit_fieldMode w
    · have hi := toNat_field_eq_zero (himm hf)
      omega
  rw [(writesFields w row hrow).1, packFields, ← hlow, index_fieldRD, hrsField, himmField, hmodeField,
    pack_bits (toNat_field_eq_zero hzero) w.isLt, BitVec.ofNat_toNat, BitVec.setWidth_eq]

/-! ### The obligations -/

/-- Settles O1, from the case split on the format of the command's row. -/
theorem decodeOfEncodeGivesCommand : Obligations.DecodeOfEncodeGivesCommand := fun _ hwf => decode_encode hwf

/-- Settles O2: the row that matches the word builds the command, and its fields are the whole word. -/
theorem encodeOfDecodeGivesWord : Obligations.EncodeOfDecodeGivesWord := by
  intro w i h
  obtain ⟨row, hrow, hhits, rfl⟩ := exists_row_of_decode h
  exact ⟨encode_build_eq hrow hhits, (writesFields w row hrow).2⟩

/-- Settles O3: both rows have the word's low byte as opcode, and the opcodes are distinct. -/
theorem atMostOneRowMatches : Obligations.AtMostOneRowMatches := by
  have hnodup : (opcodeTable.map OpcodeRow.opc).Nodup := by decide
  refine ⟨rfl, hnodup, fun w m n r₁ r₂ hm hn hhits₁ hhits₂ => ?_⟩
  have hopc : r₁.opc = r₂.opc :=
    (low_byte_of_hits (List.mem_of_getElem? hm) hhits₁).symm.trans (low_byte_of_hits (List.mem_of_getElem? hn) hhits₂)
  obtain ⟨hlt, -⟩ := List.getElem?_eq_some_iff.1 hm
  refine (List.getElem?_inj (by simpa using hlt) hnodup).1 ?_
  rw [List.getElem?_map, List.getElem?_map, hm, hn, Option.map_some, Option.map_some, hopc]

/-- Settles O4: each condition of a match, negated. -/
theorem illegalWordsExactly : Obligations.IllegalWordsExactly := by
  intro w
  rw [decode_eq_none_iff]
  refine forall₂_congr fun row hrow => ?_
  rw [← Bool.not_eq_true, hits_iff hrow]
  simp only [not_and_or, Classical.not_imp, ne_eq]

/-- Settles O5, by evaluating the decoder on each word. -/
theorem workedEncodingsDecode : Obligations.WorkedEncodingsDecode := by
  unfold Obligations.WorkedEncodingsDecode
  decide

end Sys2Proof.Proofs

/-! PROOFS. What a command and a step can do, said once (spec/41_arith.md R120; spec/60_exceptions.md R190 to R196). A
command run in two states that agree on what it reads either raises the same listed fault in both, or writes the same
register and the same `X` in both and nothing else. Precision of faults, frames, validity and the invariants are read
off that one fact. -/

namespace Sys2Proof.Proofs

open Sys2Proof.Machine Sys2Proof.Config Sys2Proof.Laws

/-! ### What a command writes (spec/10_state.md R39) -/

/-- The state after a command that succeeds with the register `v.1` and the double word `v.2`: each is written where the
command writes one. -/
def written (i : Instr) (s : State) (v : DecReg × DWord) : State :=
  let t := (writesD i).elim s fun r => s.setD r v.1
  if writesX i then t.setX v.2 else t

section
variable (i : Instr) (s : State) (v : DecReg × DWord)

@[simp] theorem written_err : (written i s v).err = s.err := by
  unfold written
  cases writesD i <;> cases writesX i <;> simp

@[simp] theorem written_ecmd : (written i s v).ecmd = s.ecmd := by
  unfold written
  cases writesD i <;> cases writesX i <;> simp

@[simp] theorem written_hostIn : (written i s v).hostIn = s.hostIn := by
  unfold written
  cases writesD i <;> cases writesX i <;> simp

@[simp] theorem written_returned : (written i s v).returned = s.returned := by
  unfold written
  cases writesD i <;> cases writesX i <;> simp

@[simp] theorem written_params : (written i s v).params = s.params := by
  unfold written
  cases writesD i <;> cases writesX i <;> simp

end

theorem written_x_of_writesX {i : Instr} (s : State) (v : DecReg × DWord) (h : writesX i = true) :
    (written i s v).x = v.2 := by
  simp [written, h]

theorem written_x_of_not_writesX {i : Instr} (s : State) (v : DecReg × DWord) (h : writesX i = false) :
    (written i s v).x = s.x := by
  unfold written
  cases writesD i <;> simp [h]

theorem getD_written_of_writesD {i : Instr} {r : DReg} (s : State) (v : DecReg × DWord) (h : writesD i = some r) :
    (written i s v).getD r = v.1 := by
  unfold written
  cases writesX i <;> simp [h]

theorem getD_written_of_ne {i : Instr} {r : DReg} (s : State) (v : DecReg × DWord) (h : writesD i ≠ some r) :
    (written i s v).getD r = s.getD r := by
  unfold written
  cases hd : writesD i with
  | none => cases writesX i <;> simp
  | some q =>
    have hne : r ≠ q := fun hrq => h (by rw [hd, hrq])
    cases writesX i <;> simp [getD_setD_of_ne s v.1 hne]

/-! ### The outcome of a command in two states -/

/-- Every decimal register the command reads holds a valid DecimalValue. -/
def ReadsValid (i : Instr) (s : State) : Prop := ∀ r ∈ readsD i, (s.getD r).valid = true

/-- Two states agree on what the command reads (R39; spec/00_scope.md R9). -/
structure Agrees (i : Instr) (s u : State) : Prop where
  regs : ∀ r ∈ readsD i, s.getD r = u.getD r
  xlo : readsXLO i = true → s.xlo = u.xlo
  xhi : readsXHI i = true → s.xhi = u.xhi
  params : readsParams i = true → s.params = u.params

theorem Agrees.refl (i : Instr) (s : State) : Agrees i s s :=
  ⟨fun _ _ => rfl, fun _ => rfl, fun _ => rfl, fun _ => rfl⟩

/-- The whole of `X` is read where both halves are. -/
theorem Agrees.x {i : Instr} {s u : State} (h : Agrees i s u) (hlo : readsXLO i = true) (hhi : readsXHI i = true) :
    s.x = u.x := by
  have hl : lo32 s.x = lo32 u.x := h.xlo hlo
  have hh : hi32 s.x = hi32 u.x := h.xhi hhi
  rw [← join64_hi32_lo32 s.x, hl, hh, join64_hi32_lo32]

/-- When a fault is raised: the table lists it, a value command overflows on valid operands alone, and DivideByZero is
that of DIV or MOD (R190 to R195). -/
structure FaultAllowed (i : Instr) (s : State) (f : Fault) : Prop where
  listed : canRaise i f = true
  overflow : f = .overflow → isValueCommand i = true → ReadsValid i s
  divideByZero : f = .divideByZero → ∃ rd rs, (i = .div rd rs ∨ i = .mod rd rs) ∧ (s.getD rs).mant = 0

/-- When a register is written: a value command found its operands valid, and valid operands give a valid result
(R25, R193). -/
structure ResultAllowed (i : Instr) (s : State) (v : DecReg) : Prop where
  reads : isValueCommand i = true → ReadsValid i s
  valid : writesD i ≠ none → ReadsValid i s → v.valid = true

/-- The command raises the same fault in both states, or writes the same values in both and nothing else. -/
def SameOutcome (i : Instr) (s u : State) : Prop :=
  (∃ f, FaultAllowed i s f ∧ Raises i s f ∧ Raises i u f) ∨
  ∃ v, ResultAllowed i s v.1 ∧ exec i s = .next (written i s v) ∧ exec i u = .next (written i u v)

section
variable {i : Instr} {s u : State} {α : Type} {o : State → Option α} {f : α → DecReg × DWord}

/-- A command in the frame that can only overflow; without an overflow (`o` always answers) it is a plain write. -/
theorem sameOutcome_of_orOverflow (hreads : isValueCommand i = true → ReadsValid i s)
    (hs : exec i s = orOverflow (encode i) s ((o s).map fun a => written i s (f a)))
    (hu : exec i u = orOverflow (encode i) u ((o u).map fun a => written i u (f a)))
    (ho : o s = o u) (hover : o s = none → canOverflow i = true)
    (hvalid : ∀ a, o s = some a → writesD i ≠ none → ReadsValid i s → (f a).1.valid = true) : SameOutcome i s u := by
  rw [← ho] at hu
  cases hsome : o s with
  | none =>
    rw [hsome] at hs hu
    exact .inl ⟨.overflow, ⟨hover hsome, fun _ => hreads, nofun⟩, hs, hu⟩
  | some a =>
    rw [hsome] at hs hu
    exact .inr ⟨f a, ⟨hreads, hvalid a hsome⟩, hs, hu⟩

/-- A value command: InvalidValue, else the frame that can only overflow. -/
theorem sameOutcome_of_valueCommand (hvalue : isValueCommand i = true) (hregs : ∀ r ∈ readsD i, s.getD r = u.getD r)
    (hs : exec i s = valueCommand (encode i) s ((readsD i).map s.getD) ((o s).map fun a => written i s (f a)))
    (hu : exec i u = valueCommand (encode i) u ((readsD i).map u.getD) ((o u).map fun a => written i u (f a)))
    (ho : o s = o u) (hover : o s = none → canOverflow i = true)
    (hvalid : ∀ a, o s = some a → writesD i ≠ none → ReadsValid i s → (f a).1.valid = true) : SameOutcome i s u := by
  rw [← List.map_congr_left hregs] at hu
  cases hall : ((readsD i).map s.getD).all DecReg.valid with
  | false =>
    have hinvalid : ∀ t r, valueCommand (encode i) t ((readsD i).map s.getD) r =
        .next (t.raiseFault .invalidValue (encode i)) := fun _ _ => if_neg (by simp [hall])
    exact .inl ⟨.invalidValue, ⟨hvalue, nofun, nofun⟩, hs.trans (hinvalid s _), hu.trans (hinvalid u _)⟩
  | true =>
    have hreads : ReadsValid i s := fun r hr => List.all_eq_true.1 hall _ (List.mem_map_of_mem hr)
    exact sameOutcome_of_orOverflow (fun _ => hreads) (hs.trans (if_pos hall)) (hu.trans (if_pos hall)) ho hover hvalid

/-- DIV and MOD: DivideByZero, else a value command. -/
theorem sameOutcome_of_dividingCommand {rd rs : DReg} (hi : i = .div rd rs ∨ i = .mod rd rs)
    (hregs : ∀ r ∈ readsD i, s.getD r = u.getD r)
    (hs : exec i s = dividingCommand (encode i) s (s.getD rd) (s.getD rs) ((o s).map fun a => written i s (f a)))
    (hu : exec i u = dividingCommand (encode i) u (u.getD rd) (u.getD rs) ((o u).map fun a => written i u (f a)))
    (ho : o s = o u) (hover : o s = none → canOverflow i = true)
    (hvalid : ∀ a, o s = some a → writesD i ≠ none → ReadsValid i s → (f a).1.valid = true) : SameOutcome i s u := by
  have hlist : isValueCommand i = true ∧ isDividing i = true ∧ readsD i = [rd, rs] := by
    rcases hi with rfl | rfl <;> exact ⟨rfl, rfl, rfl⟩
  obtain ⟨hvalue, hdiv, hreadsD⟩ := hlist
  have hrs : s.getD rs = u.getD rs := hregs rs (by simp [hreadsD])
  rcases eq_or_ne (s.getD rs).mant 0 with hzero | hne
  · refine .inl ⟨.divideByZero, ⟨hdiv, nofun, fun _ => ⟨rd, rs, hi, hzero⟩⟩, ?_, ?_⟩
    · exact hs.trans (dividingCommand_of_zero _ s _ _ hzero)
    · exact hu.trans (dividingCommand_of_zero _ u _ _ (hrs ▸ hzero))
  · refine sameOutcome_of_valueCommand hvalue hregs ?_ ?_ ho hover hvalid
    · rw [hs, dividingCommand_of_ne_zero _ s _ _ hne, hreadsD]
      rfl
    · rw [hu, dividingCommand_of_ne_zero _ u _ _ (hrs ▸ hne), hreadsD]
      rfl

end

/-! ### The results of the commands are valid (R25) -/

theorem scale_of_compact {N scale : ℕ} {r : ℕ × ℕ} (h : compact N scale = some r) : r.2 ≤ scaleMax := by
  obtain ⟨-, hle, -⟩ := compact_eq_some.1 h
  exact hle.trans (min_le_right _ _)

theorem scale_of_addSub {a b r : Dec} {sub : Bool} (h : addSub a b sub = some r) : r.scale ≤ scaleMax := by
  obtain ⟨c, hc, rfl⟩ := Option.map_eq_some_iff.1 h
  exact scale_of_compact hc

theorem scale_of_multiply {a b r : Dec} (h : multiply a b = some r) : r.scale ≤ scaleMax := by
  obtain ⟨c, hc, rfl⟩ := Option.map_eq_some_iff.1 h
  exact scale_of_compact hc

theorem scale_of_divide {a b r : Dec} (h : divide a b = some r) : r.scale ≤ scaleMax := by
  obtain ⟨t, ht, rfl⟩ := Option.map_eq_some_iff.1 h
  exact (Nat.sub_le _ _).trans (findDown_eq_some.1 ht).1

theorem scale_of_floatToDec {sc : FromFloatScaling} {f : FloatFormat} {digits E F : ℕ} {sgn : Bool} {d : Dec}
    (h : floatToDec sc f digits sgn E F = some d) : d.scale ≤ scaleMax := by
  obtain ⟨p, hp⟩ : ∃ p : ℤ,
      min ((digits : ℤ) - 1 - decimalExponent (f.magnitude E F).1 (f.magnitude E F).2) scaleMax = p := ⟨_, rfl⟩
  have hle : p ≤ scaleMax := hp ▸ min_le_right _ _
  simp only [floatToDec, hp, Option.ite_none_left_eq_some] at h
  obtain ⟨-, -, h⟩ := h
  rw [ite_eq_iff] at h
  obtain ⟨-, h⟩ | ⟨-, h⟩ := h
  · exact Option.some.inj h ▸ Nat.zero_le _
  rw [ite_eq_iff] at h
  obtain ⟨-, h⟩ | ⟨-, h⟩ := h
  · rw [ite_eq_iff] at h
    obtain ⟨-, h⟩ | ⟨-, h⟩ := h
    · exact Option.some.inj h ▸ Nat.zero_le _
    · exact Option.some.inj h ▸ (Nat.sub_le _ _).trans (by omega)
  · rw [Option.ite_none_left_eq_some] at h
    exact Option.some.inj h.2 ▸ Nat.zero_le _

theorem valid_roundReg {b : DecReg} {n : ℕ} {mode : RoundMode} (h : b.valid = true) :
    (roundReg b n mode).valid = true := by
  rcases le_or_gt b.scale n with hle | hlt
  · rwa [roundReg_of_scale_le mode hle]
  · rw [roundReg_of_lt_scale mode hlt]
    exact valid_pack (hlt.le.trans (inRange_of_valid h).2)

/-- Validity does not look at bit 31 of `FLAGS` (R24). -/
theorem valid_of_flags_agree {b : DecReg} {f : Word} (h : ∀ k, k < 31 → f.getLsbD k = b.flags.getLsbD k) :
    DecReg.valid ⟨b.lo, b.mid, b.hi, f⟩ = b.valid := by
  have hfield : ∀ start len, start + len ≤ 31 → f.extractLsb' start len = b.flags.extractLsb' start len := by
    intro start len hle
    apply BitVec.eq_of_getLsbD_eq
    intro k hk
    simp only [BitVec.getLsbD_extractLsb', h (start + k) (by omega)]
  unfold DecReg.valid DecReg.scale
  rw [hfield 24 7 (by decide), hfield 0 16 (by decide), hfield 16 8 (by decide)]

theorem valid_flipSign (b : DecReg) : DecReg.valid { b with flags := flipSign b.flags } = b.valid :=
  valid_of_flags_agree fun _ => getLsbD_flipSign_of_lt b.flags

theorem valid_clearSign (b : DecReg) : DecReg.valid { b with flags := clearSign b.flags } = b.valid :=
  valid_of_flags_agree fun _ => getLsbD_clearSign_of_lt b.flags

@[simp] theorem valid_withMant (b : DecReg) (m : ℕ) : (b.withMant m).valid = b.valid := rfl

/-! ### The results of the commands as functions -/

/-- A conditional write of a register is the write of a conditional value. -/
theorem ite_setD (p : Prop) [Decidable p] (s : State) (r : DReg) (v : DecReg) :
    (if p then s.setD r v else s) = s.setD r (if p then v else s.getD r) := by
  split_ifs <;> simp

/-- The register MOD leaves in its destination (R130). -/
def remainderReg (a b : DecReg) : DecReg :=
  if b.dec.widen (max a.scale b.scale) ≤ a.dec.widen (max a.scale b.scale) then
    pack ⟨a.dec.widen (max a.scale b.scale) % b.dec.widen (max a.scale b.scale), max a.scale b.scale, a.sign⟩
  else a

/-- The register MAX leaves in its destination (R175). -/
def maxReg (a b : DecReg) : DecReg := if cmp3 a.dec b.dec < 0 then b else a

/-- The register MIN leaves in its destination (R176). -/
def minReg (a b : DecReg) : DecReg := if 0 < cmp3 a.dec b.dec then b else a

theorem maxReg_eq_or (a b : DecReg) : maxReg a b = a ∨ maxReg a b = b := by
  unfold maxReg
  split_ifs <;> simp

theorem minReg_eq_or (a b : DecReg) : minReg a b = a ∨ minReg a b = b := by
  unfold minReg
  split_ifs <;> simp

theorem valid_remainderReg {a b : DecReg} (ha : a.valid = true) (hb : b.valid = true) :
    (remainderReg a b).valid = true := by
  unfold remainderReg
  split_ifs
  · exact valid_pack (max_le (inRange_of_valid ha).2 (inRange_of_valid hb).2)
  · exact ha

section
variable (rd rs : DReg) (s : State)

theorem exec_mod : exec (.mod rd rs) s = dividingCommand (encode (.mod rd rs)) s (s.getD rd) (s.getD rs)
    (some (s.setD rd (remainderReg (s.getD rd) (s.getD rs)))) := by
  rw [remainderReg, ← ite_setD]
  simp only [← not_lt, ite_not]
  rfl

theorem exec_max : exec (.max rd rs) s = valueCommand (encode (.max rd rs)) s [s.getD rd, s.getD rs]
    (some (s.setD rd (maxReg (s.getD rd) (s.getD rs)))) := by
  rw [maxReg, ← ite_setD]
  rfl

theorem exec_min : exec (.min rd rs) s = valueCommand (encode (.min rd rs)) s [s.getD rd, s.getD rs]
    (some (s.setD rd (minReg (s.getD rd) (s.getD rs)))) := by
  rw [minReg, ← ite_setD]
  rfl

end

/-- The register MUL10 and ADDI32 write: a mantissa of 96 bits replaces the old one (R178, R179). -/
def mantReplaced (a : DecReg) (m : ℕ) : Option DecReg := if m ≤ max96 then some (a.withMant m) else none

theorem replaceMant_eq_map (s : State) (r : DReg) (m : ℕ) :
    replaceMant s r m = (mantReplaced (s.getD r) m).map fun v => s.setD r v := by
  unfold replaceMant mantReplaced
  split_ifs <;> rfl

theorem valid_of_mantReplaced {a v : DecReg} {m : ℕ} (h : mantReplaced a m = some v) : v.valid = a.valid := by
  obtain ⟨-, hv⟩ := Option.ite_none_right_eq_some.1 h
  cases hv
  rfl

theorem getD_eq_of_single {s u : State} {r : DReg} (h : ∀ q ∈ [r], s.getD q = u.getD q) : s.getD r = u.getD r :=
  h r List.mem_cons_self

theorem getD_eq_of_pair {s u : State} {rd rs : DReg} (h : ∀ q ∈ [rd, rs], s.getD q = u.getD q) :
    s.getD rd = u.getD rd ∧ s.getD rs = u.getD rs :=
  ⟨h rd List.mem_cons_self, h rs (List.mem_cons_of_mem _ List.mem_cons_self)⟩

/-! ### The commands, run in two states that agree on what they read (R39)

Each has the frame of its kind, with a result computed from what it reads. -/

section
variable {s u : State}

theorem sameOutcome_add {rd rs : DReg} (h : Agrees (.add rd rs) s u) :
    SameOutcome (.add rd rs) s u := by
  obtain ⟨hd, hs⟩ := getD_eq_of_pair h.regs
  exact sameOutcome_of_valueCommand (o := fun t => addSub (t.getD rd).dec (t.getD rs).dec false)
    (f := fun r => (pack r, 0)) rfl h.regs rfl rfl (by simp only [hd, hs]) (fun _ => rfl)
    fun _ hr _ _ => valid_pack (scale_of_addSub hr)

theorem sameOutcome_sub {rd rs : DReg} (h : Agrees (.sub rd rs) s u) :
    SameOutcome (.sub rd rs) s u := by
  obtain ⟨hd, hs⟩ := getD_eq_of_pair h.regs
  exact sameOutcome_of_valueCommand (o := fun t => addSub (t.getD rd).dec (t.getD rs).dec true)
    (f := fun r => (pack r, 0)) rfl h.regs rfl rfl (by simp only [hd, hs]) (fun _ => rfl)
    fun _ hr _ _ => valid_pack (scale_of_addSub hr)

theorem sameOutcome_mul {rd rs : DReg} (h : Agrees (.mul rd rs) s u) :
    SameOutcome (.mul rd rs) s u := by
  obtain ⟨hd, hs⟩ := getD_eq_of_pair h.regs
  exact sameOutcome_of_valueCommand (o := fun t => multiply (t.getD rd).dec (t.getD rs).dec)
    (f := fun r => (pack r, 0)) rfl h.regs rfl rfl (by simp only [hd, hs]) (fun _ => rfl)
    fun _ hr _ _ => valid_pack (scale_of_multiply hr)

theorem sameOutcome_div {rd rs : DReg} (h : Agrees (.div rd rs) s u) :
    SameOutcome (.div rd rs) s u := by
  obtain ⟨hd, hs⟩ := getD_eq_of_pair h.regs
  exact sameOutcome_of_dividingCommand (o := fun t => divide (t.getD rd).dec (t.getD rs).dec)
    (f := fun r => (pack r, 0)) (.inl rfl) h.regs rfl rfl (by simp only [hd, hs]) (fun _ => rfl)
    fun _ hr _ _ => valid_pack (scale_of_divide hr)

theorem sameOutcome_mod {rd rs : DReg} (h : Agrees (.mod rd rs) s u) :
    SameOutcome (.mod rd rs) s u := by
  obtain ⟨hd, hs⟩ := getD_eq_of_pair h.regs
  exact sameOutcome_of_dividingCommand (o := fun t => some (remainderReg (t.getD rd) (t.getD rs)))
    (f := fun v => (v, 0)) (.inr rfl) h.regs (exec_mod rd rs s) (exec_mod rd rs u) (by simp only [hd, hs]) nofun
    fun _ hv _ hreads => by
      cases hv
      exact valid_remainderReg (hreads rd (by simp [readsD])) (hreads rs (by simp [readsD]))

theorem sameOutcome_trunc {rd rs : DReg} (h : Agrees (.trunc rd rs) s u) :
    SameOutcome (.trunc rd rs) s u := by
  have hs := getD_eq_of_single h.regs
  exact sameOutcome_of_valueCommand (o := fun t => some (truncate (t.getD rs).dec)) (f := fun r => (pack r, 0)) rfl
    h.regs rfl rfl (by simp only [hs]) nofun fun _ hr _ _ => by cases hr; exact valid_pack (Nat.zero_le _)

theorem sameOutcome_floor {rd rs : DReg} (h : Agrees (.floor rd rs) s u) :
    SameOutcome (.floor rd rs) s u := by
  have hs := getD_eq_of_single h.regs
  exact sameOutcome_of_valueCommand (o := fun t => some (floorDec (t.getD rs).dec)) (f := fun r => (pack r, 0)) rfl
    h.regs rfl rfl (by simp only [hs]) nofun fun _ hr _ _ => by cases hr; exact valid_pack (Nat.zero_le _)

theorem sameOutcome_round {rd rs : DReg} {n : ℕ} {mode : RoundMode} (h : Agrees (.round rd rs n mode) s u) :
    SameOutcome (.round rd rs n mode) s u := by
  have hs := getD_eq_of_single h.regs
  exact sameOutcome_of_valueCommand (o := fun t => some (roundReg (t.getD rs) n mode)) (f := fun v => (v, 0)) rfl
    h.regs rfl rfl (by simp only [hs]) nofun fun _ hv _ hreads => by
      cases hv
      exact valid_roundReg (hreads rs (by simp [readsD]))

theorem sameOutcome_cmp {rd rs : DReg} (h : Agrees (.cmp rd rs) s u) :
    SameOutcome (.cmp rd rs) s u := by
  obtain ⟨hd, hs⟩ := getD_eq_of_pair h.regs
  exact sameOutcome_of_valueCommand (o := fun t => some (cmp3 (t.getD rd).dec (t.getD rs).dec))
    (f := fun c => (.zero, BitVec.ofInt 64 c)) rfl h.regs rfl rfl (by simp only [hd, hs]) nofun
    fun _ _ hd => absurd rfl hd

theorem sameOutcome_neg {rd rs : DReg} (h : Agrees (.neg rd rs) s u) :
    SameOutcome (.neg rd rs) s u := by
  have hs := getD_eq_of_single h.regs
  exact sameOutcome_of_orOverflow
    (o := fun t => some { t.getD rs with flags := flipSign (t.getD rs).flags }) (f := fun v => (v, 0)) nofun rfl rfl
    (by simp only [hs]) nofun fun _ hv _ hreads => by
      cases hv
      exact (valid_flipSign _).trans (hreads rs (by simp [readsD]))

theorem sameOutcome_abs {rd rs : DReg} (h : Agrees (.abs rd rs) s u) :
    SameOutcome (.abs rd rs) s u := by
  have hs := getD_eq_of_single h.regs
  exact sameOutcome_of_orOverflow
    (o := fun t => some { t.getD rs with flags := clearSign (t.getD rs).flags }) (f := fun v => (v, 0)) nofun rfl rfl
    (by simp only [hs]) nofun fun _ hv _ hreads => by
      cases hv
      exact (valid_clearSign _).trans (hreads rs (by simp [readsD]))

theorem sameOutcome_sign {r : DReg} (h : Agrees (.sign r) s u) :
    SameOutcome (.sign r) s u := by
  have hs := getD_eq_of_single h.regs
  exact sameOutcome_of_valueCommand (o := fun t => some (signOf (t.getD r).dec))
    (f := fun c => (.zero, BitVec.ofInt 64 c)) rfl h.regs rfl rfl (by simp only [hs]) nofun
    fun _ _ hd => absurd rfl hd

theorem sameOutcome_max {rd rs : DReg} (h : Agrees (.max rd rs) s u) :
    SameOutcome (.max rd rs) s u := by
  obtain ⟨hd, hs⟩ := getD_eq_of_pair h.regs
  exact sameOutcome_of_valueCommand (o := fun t => some (maxReg (t.getD rd) (t.getD rs))) (f := fun v => (v, 0)) rfl
    h.regs (exec_max rd rs s) (exec_max rd rs u) (by simp only [hd, hs]) nofun fun _ hv _ hreads => by
      cases hv
      obtain hv | hv := maxReg_eq_or (s.getD rd) (s.getD rs)
      · exact (congrArg DecReg.valid hv).trans (hreads rd (by simp [readsD]))
      · exact (congrArg DecReg.valid hv).trans (hreads rs (by simp [readsD]))

theorem sameOutcome_min {rd rs : DReg} (h : Agrees (.min rd rs) s u) :
    SameOutcome (.min rd rs) s u := by
  obtain ⟨hd, hs⟩ := getD_eq_of_pair h.regs
  exact sameOutcome_of_valueCommand (o := fun t => some (minReg (t.getD rd) (t.getD rs))) (f := fun v => (v, 0)) rfl
    h.regs (exec_min rd rs s) (exec_min rd rs u) (by simp only [hd, hs]) nofun fun _ hv _ hreads => by
      cases hv
      obtain hv | hv := minReg_eq_or (s.getD rd) (s.getD rs)
      · exact (congrArg DecReg.valid hv).trans (hreads rd (by simp [readsD]))
      · exact (congrArg DecReg.valid hv).trans (hreads rs (by simp [readsD]))

theorem sameOutcome_cytod {r : DReg} (h : Agrees (.cytod r) s u) :
    SameOutcome (.cytod r) s u := by
  exact sameOutcome_of_orOverflow (o := fun t => some (currencyToDec t.x)) (f := fun d => (pack d, 0)) nofun rfl rfl
    (by rw [h.x rfl rfl]) nofun fun _ hd _ _ => by cases hd; exact valid_pack (scale_currencyToDec_le _)

theorem sameOutcome_dtocy {r : DReg} (h : Agrees (.dtocy r) s u) :
    SameOutcome (.dtocy r) s u := by
  have hs := getD_eq_of_single h.regs
  exact sameOutcome_of_valueCommand (o := fun t => decToCurrency (t.getD r).dec) (f := fun x => (.zero, x)) rfl h.regs
    rfl rfl (by simp only [hs]) (fun _ => rfl) fun _ _ hd => absurd rfl hd

theorem sameOutcome_r8tod {r : DReg} (h : Agrees (.r8tod r) s u) :
    SameOutcome (.r8tod r) s u := by
  exact sameOutcome_of_orOverflow (o := fun t => binary64ToDec (scalingOf t.params.scaling) t.x)
    (f := fun d => (pack d, 0)) nofun rfl rfl (by rw [h.x rfl rfl, h.params rfl]) (fun _ => rfl)
    fun _ hd _ _ => valid_pack (scale_of_floatToDec hd)

theorem sameOutcome_r4tod {r : DReg} (h : Agrees (.r4tod r) s u) :
    SameOutcome (.r4tod r) s u := by
  exact sameOutcome_of_orOverflow (o := fun t => binary32ToDec (scalingOf t.params.scaling) t.xlo)
    (f := fun d => (pack d, 0)) nofun rfl rfl (by rw [h.xlo rfl, h.params rfl]) (fun _ => rfl)
    fun _ hd _ _ => valid_pack (scale_of_floatToDec hd)

theorem sameOutcome_dtor8 {r : DReg} (h : Agrees (.dtor8 r) s u) :
    SameOutcome (.dtor8 r) s u := by
  have hs := getD_eq_of_single h.regs
  exact sameOutcome_of_valueCommand (o := fun t => some (decToBinary64 (f64Of t.params.f64) (t.getD r)))
    (f := fun x => (.zero, x)) rfl h.regs rfl rfl (by simp only [h.params rfl, hs]) nofun
    fun _ _ hd => absurd rfl hd

theorem sameOutcome_dtor4 {r : DReg} (h : Agrees (.dtor4 r) s u) :
    SameOutcome (.dtor4 r) s u := by
  have hs := getD_eq_of_single h.regs
  exact sameOutcome_of_valueCommand (o := fun t => some (decToBinary32 (f64Of t.params.f64) (t.getD r)))
    (f := fun x => (.zero, join64 0 x)) rfl h.regs rfl rfl (by simp only [h.params rfl, hs]) nofun
    fun _ _ hd => absurd rfl hd

theorem sameOutcome_divmod1e9 {r : DReg} (h : Agrees (.divmod1e9 r) s u) :
    SameOutcome (.divmod1e9 r) s u := by
  have hs := getD_eq_of_single h.regs
  exact sameOutcome_of_orOverflow (o := fun t => some (t.getD r))
    (f := fun v => (v.withMant (v.mant / 10 ^ 9), join64 0 (BitVec.ofNat 32 (v.mant % 10 ^ 9)))) nofun rfl rfl
    (by simp only [hs]) nofun fun _ hv _ hreads => by
      cases hv
      exact (valid_withMant _ _).trans (hreads r (by simp [readsD]))

theorem sameOutcome_mul10 {r : DReg} (h : Agrees (.mul10 r) s u) :
    SameOutcome (.mul10 r) s u := by
  have hs := getD_eq_of_single h.regs
  exact sameOutcome_of_orOverflow (o := fun t => mantReplaced (t.getD r) ((t.getD r).mant * 10))
    (f := fun v => (v, 0)) nofun ((exec_mul10 r s).trans (congrArg _ (replaceMant_eq_map s r _)))
    ((exec_mul10 r u).trans (congrArg _ (replaceMant_eq_map u r _))) (by simp only [hs]) (fun _ => rfl)
    fun _ hv _ hreads => (valid_of_mantReplaced hv).trans (hreads r (by simp [readsD]))

theorem sameOutcome_addi32 {r : DReg} (h : Agrees (.addi32 r) s u) :
    SameOutcome (.addi32 r) s u := by
  have hs := getD_eq_of_single h.regs
  exact sameOutcome_of_orOverflow (o := fun t => mantReplaced (t.getD r) ((t.getD r).mant + t.xlo.toNat))
    (f := fun v => (v, 0)) nofun ((exec_addi32 r s).trans (congrArg _ (replaceMant_eq_map s r _)))
    ((exec_addi32 r u).trans (congrArg _ (replaceMant_eq_map u r _))) (by simp only [h.xlo rfl, hs])
    (fun _ => rfl) fun _ hv _ hreads => (valid_of_mantReplaced hv).trans (hreads r (by simp [readsD]))

end

/-- Every command has the same outcome in two states that agree on what it reads. -/
theorem exec_sameOutcome {i : Instr} {s u : State} (h : Agrees i s u) : SameOutcome i s u := by
  cases i with
  | add => exact sameOutcome_add h
  | sub => exact sameOutcome_sub h
  | mul => exact sameOutcome_mul h
  | div => exact sameOutcome_div h
  | mod => exact sameOutcome_mod h
  | trunc => exact sameOutcome_trunc h
  | floor => exact sameOutcome_floor h
  | round => exact sameOutcome_round h
  | cmp => exact sameOutcome_cmp h
  | neg => exact sameOutcome_neg h
  | abs => exact sameOutcome_abs h
  | sign => exact sameOutcome_sign h
  | max => exact sameOutcome_max h
  | min => exact sameOutcome_min h
  | cytod => exact sameOutcome_cytod h
  | dtocy => exact sameOutcome_dtocy h
  | r8tod => exact sameOutcome_r8tod h
  | r4tod => exact sameOutcome_r4tod h
  | dtor8 => exact sameOutcome_dtor8 h
  | dtor4 => exact sameOutcome_dtor4 h
  | divmod1e9 => exact sameOutcome_divmod1e9 h
  | mul10 => exact sameOutcome_mul10 h
  | addi32 => exact sameOutcome_addi32 h

end Sys2Proof.Proofs

/-! PROOFS. Faults, frames and invariants (spec/60_exceptions.md R190 to R199; spec/10_state.md R25, R28, R29). What a
command can do is one fact, applied to one state or to two; what a step can do is said once below: it updates the host's
record or one register, clears the fault, resets, or executes a word at an engine that is not faulted. -/

namespace Sys2Proof.Proofs

open Sys2Proof.Machine Sys2Proof.Config Sys2Proof.Laws

/-! ### What one command can do -/

/-- A command raises an allowed fault, or writes an allowed result. -/
theorem exec_cases (i : Instr) (s : State) :
    (∃ f, FaultAllowed i s f ∧ Raises i s f) ∨ ∃ v, ResultAllowed i s v.1 ∧ exec i s = .next (written i s v) := by
  obtain ⟨f, hf, hraises, -⟩ | ⟨v, hv, hexec, -⟩ := exec_sameOutcome (Agrees.refl i s)
  · exact .inl ⟨f, hf, hraises⟩
  · exact .inr ⟨v, hv, hexec⟩

/-- The next state of a command, by its two outcomes. -/
theorem exec_eq_next {i : Instr} {s t : State} (h : exec i s = .next t) :
    (∃ f, FaultAllowed i s f ∧ t = s.raiseFault f (encode i)) ∨
      ∃ v, ResultAllowed i s v.1 ∧ t = written i s v := by
  obtain ⟨f, hf, hraises⟩ | ⟨v, hv, hexec⟩ := exec_cases i s
  · exact .inl ⟨f, hf, Host.Outcome.next.inj (h.symm.trans hraises)⟩
  · exact .inr ⟨v, hv, Host.Outcome.next.inj (h.symm.trans hexec)⟩

theorem exec_params {i : Instr} {s t : State} (h : exec i s = .next t) : t.params = s.params := by
  obtain ⟨f, -, rfl⟩ | ⟨v, -, rfl⟩ := exec_eq_next h
  · rfl
  · simp

/-- No command makes an invalid value out of valid ones. -/
theorem allValid_exec {i : Instr} {s t : State} (hs : AllValid s) (h : exec i s = .next t) : AllValid t := by
  intro r
  obtain ⟨f, -, rfl⟩ | ⟨v, hv, rfl⟩ := exec_eq_next h
  · simpa using hs r
  · by_cases hr : writesD i = some r
    · rw [getD_written_of_writesD s v hr]
      exact hv.valid (by simp [hr]) fun q _ => hs q
    · rw [getD_written_of_ne s v hr]
      exact hs r

theorem allValid_execute {w : Word} {s t : State} (hs : AllValid s) (h : execute w s = .next t) : AllValid t := by
  cases hw : decode w with
  | none =>
    rw [execute_of_decode_none s hw] at h
    cases h
    exact fun r => by simpa using hs r
  | some i => exact allValid_exec hs ((execute_of_decode_some s hw).symm.trans h)

theorem execute_params {w : Word} {s t : State} (h : execute w s = .next t) : t.params = s.params := by
  cases hw : decode w with
  | none =>
    rw [execute_of_decode_none s hw] at h
    cases h
    rfl
  | some i => exact exec_params ((execute_of_decode_some s hw).symm.trans h)

/-! ### The agreement of `STATUS` and `ECMD` -/

/-- The agreement is about `ERR` and `ECMD` alone. -/
theorem faultRecordOk_congr {s t : State} (hs : FaultRecordOk s) (herr : t.err = s.err) (hecmd : t.ecmd = s.ecmd) :
    FaultRecordOk t := by
  simpa only [FaultRecordOk, herr, hecmd] using hs

theorem faultRecordOk_of_clear {s : State} (herr : s.err = 0) (hecmd : s.ecmd = 0) : FaultRecordOk s :=
  .inl ⟨herr, hecmd⟩

/-- The word recorded with the fault of a command decodes to that command, because the command was decoded from it. -/
theorem faultRecordOk_execute {w : Word} {s t : State} (hs : FaultRecordOk s) (h : execute w s = .next t) :
    FaultRecordOk t := by
  cases hw : decode w with
  | none =>
    rw [execute_of_decode_none s hw] at h
    cases h
    exact .inr (.inl ⟨rfl, hw⟩)
  | some i =>
    obtain ⟨henc, -⟩ := encodeOfDecodeGivesWord w i hw
    obtain ⟨f, hf, rfl⟩ | ⟨v, -, rfl⟩ := exec_eq_next ((execute_of_decode_some s hw).symm.trans h)
    · exact .inr (.inr ⟨f, i, rfl, by rw [raiseFault_ecmd, henc, hw], hf.listed⟩)
    · exact faultRecordOk_congr hs (written_err i s v) (written_ecmd i s v)

/-! ### What a step can do (R56, R57) -/

/-- What serving a host event does to the state. -/
inductive Served (e : HostEvent) (s : State) : State → Prop
  | record (l : List Word) : Served e s { s with returned := l }
  | wroteD (r : DReg) (v : DecReg) (h : e.keepsDecimals = false) : Served e s (s.setD r v)
  | wroteX (x : DWord) : Served e s (s.setX x)
  | cleared : Served e s s.clearFault
  | executed (w : Word) (t : State) (herr : s.err = 0) (h : execute w s = .next t) : Served e s t
  | wasReset (w : ResetWords) (h : e.keepsDecimals = false) : Served e s (s.resetTo w)

theorem Served.unchanged (e : HostEvent) (s : State) : Served e s s := .record s.returned

theorem served_of_regWrite {offset size : ℕ} {v : Word} {s t : State}
    (h : regWrite (offset / 4) v s = .next t) : Served (.write offset size v) s t := by
  rw [regWrite, ite_eq_iff] at h
  obtain ⟨hidx, h⟩ | ⟨-, h⟩ := h
  · cases h
    exact .wroteD _ _ (decide_eq_false (by omega))
  rw [ite_eq_iff] at h
  obtain ⟨-, h⟩ | ⟨-, h⟩ := h
  · cases h
    exact .wroteX _
  rw [ite_eq_iff] at h
  obtain ⟨-, h⟩ | ⟨-, h⟩ := h
  · cases h
    exact .wroteX _
  rw [ite_eq_iff] at h
  obtain ⟨-, h⟩ | ⟨-, h⟩ := h
  · rw [ite_eq_iff] at h
    obtain ⟨herr, h⟩ | ⟨-, h⟩ := h
    · exact .executed v t herr h
    · cases h
      exact .unchanged _ s
  rw [ite_eq_iff] at h
  obtain ⟨-, h⟩ | ⟨-, h⟩ := h
  · cases h
    exact .cleared
  · cases h
    exact .unchanged _ s

theorem served_of_serve {e : HostEvent} {s t : State} (h : serve e s = .next t) : Served e s t := by
  cases e with
  | read offset size =>
    obtain ⟨-, h⟩ | ⟨-, h⟩ := ite_eq_iff.1 h
    · cases h
      exact .record _
    · cases h
  | write offset size v =>
    obtain ⟨-, h⟩ | ⟨-, h⟩ := ite_eq_iff.1 h
    · exact served_of_regWrite h
    · cases h
  | reset w =>
    cases h
    exact .wasReset w rfl

/-- A step does nothing, or serves the next host event. -/
theorem step_cases {s t : State} (h : step s = .next t) :
    (s.hostIn = [] ∧ t = s) ∨ ∃ e rest, s.hostIn = e :: rest ∧ Served e { s with hostIn := rest } t := by
  cases hin : s.hostIn with
  | nil =>
    simp only [step, serveNext, hin] at h
    exact .inl ⟨rfl, (Host.Outcome.next.inj h).symm⟩
  | cons e rest =>
    rw [step_of_hostIn_cons hin] at h
    exact .inr ⟨e, rest, rfl, served_of_serve h⟩

theorem Served.params {e : HostEvent} {s t : State} (h : Served e s t) : t.params = s.params := by
  cases h with
  | executed w t _ h => exact execute_params h
  | wroteD r v _ => exact setD_params s r v
  | record | wroteX | cleared | wasReset => rfl

theorem Served.faultRecordOk {e : HostEvent} {s t : State} (h : Served e s t) (hs : FaultRecordOk s) :
    FaultRecordOk t := by
  cases h with
  | record | wroteX => exact faultRecordOk_congr hs rfl rfl
  | wroteD r v _ => exact faultRecordOk_congr hs (setD_err s r v) (setD_ecmd s r v)
  | executed w t _ h => exact faultRecordOk_execute hs h
  | cleared | wasReset => exact faultRecordOk_of_clear rfl rfl

theorem Served.allValid {e : HostEvent} {s t : State} (h : Served e s t) (hs : AllValid s)
    (hkeeps : e.keepsDecimals = true) : AllValid t := by
  cases h with
  | record | wroteX | cleared => exact fun r => by simpa using hs r
  | executed w t _ h => exact allValid_execute hs h
  | wroteD _ _ h | wasReset _ h => exact absurd hkeeps (by simp [h])

/-! ### The copying commands (R25, R175 to R179) -/

theorem valid_eq_of_flags_eq {a b : DecReg} (h : a.flags = b.flags) : a.valid = b.valid := by
  unfold DecReg.valid DecReg.scale
  rw [h]

/-- A value command that would write `v` to a register writes it or keeps the register. -/
theorem getD_of_valueCommand {w : Word} {s t : State} {l : List DecReg} {rd : DReg} {v : DecReg}
    (h : valueCommand w s l (some (s.setD rd v)) = .next t) : t.getD rd = s.getD rd ∨ t.getD rd = v := by
  obtain ⟨-, e⟩ | ⟨-, u, hu, e⟩ | ⟨-, hnone, -⟩ := valueCommand_cases w s l (some (s.setD rd v))
  · cases e.symm.trans h
    exact .inl (getD_raiseFault _ _ _ _)
  · cases e.symm.trans h
    cases hu
    exact .inr (getD_setD_self _ _ _)
  · cases hnone

/-- MUL10 and ADDI32 keep `FLAGS`, whether they overflow or not. -/
theorem flags_of_replaceMant {w : Word} {s t : State} {r : DReg} {m : ℕ}
    (h : orOverflow w s (replaceMant s r m) = .next t) : (t.getD r).flags = (s.getD r).flags := by
  obtain ⟨u, hu, e⟩ | ⟨-, e⟩ := orOverflow_cases w s (replaceMant s r m)
  · obtain ⟨-, hu⟩ := Option.ite_none_right_eq_some.1 hu
    cases hu
    cases e.symm.trans h
    rw [getD_setD_self, flags_withMant]
  · cases e.symm.trans h
    rw [getD_raiseFault]

/-! ### The obligations -/

/-- Settles O18: only an executed word writes a fault, and it writes the word it was decoded from. -/
theorem stepKeepsFaultRecord : Obligations.StepKeepsFaultRecord := by
  intro s t hs h
  obtain ⟨-, rfl⟩ | ⟨e, rest, -, hserved⟩ := step_cases h
  · exact hs
  · exact hserved.faultRecordOk (faultRecordOk_congr hs rfl rfl)

/-- Settles O19: a reset clears both. -/
theorem resetHasFaultRecord : Obligations.ResetHasFaultRecord :=
  ⟨faultRecordOk_of_clear rfl rfl, fun _ _ => faultRecordOk_of_clear rfl rfl⟩

/-- Settles O20: an event that writes no data register leaves the decimal registers alone or runs a command. -/
theorem commandsKeepRegistersValid : Obligations.CommandsKeepRegistersValid := by
  intro s t hs hkeeps h
  obtain ⟨-, rfl⟩ | ⟨e, rest, hin, hserved⟩ := step_cases h
  · exact hs
  · exact hserved.allValid (fun r => by simpa using hs r) (hkeeps e rest hin)

/-- Settles O21: a result follows from valid operands, and the copying commands keep the validity of their source. -/
theorem writtenRegistersAreValid : Obligations.WrittenRegistersAreValid := by
  refine ⟨fun i s t r hkind h herr hclear hr => ?_, fun rd rs s t h => ?_, fun rd rs s t h => ?_, fun r s t h => ?_⟩
  · obtain ⟨f, -, rfl⟩ | ⟨v, hv, rfl⟩ := exec_eq_next h
    · exact absurd (herr.trans hclear) (code_ne_zero f)
    · have hreads : ReadsValid i s := by
        rcases hkind with hvalue | hnone
        · exact hv.reads hvalue
        · simp [ReadsValid, hnone]
      rw [getD_written_of_writesD s v hr]
      exact hv.valid (by simp [hr]) hreads
  · rcases h with h | h
    · cases h
      rw [getD_setD_self, valid_flipSign]
    · cases h
      rw [getD_setD_self, valid_clearSign]
  · rcases h with h | h
    · obtain hkept | hmax := getD_of_valueCommand ((exec_max rd rs s).symm.trans h)
      · exact .inl hkept
      · exact (maxReg_eq_or (s.getD rd) (s.getD rs)).imp hmax.trans hmax.trans
    · obtain hkept | hmin := getD_of_valueCommand ((exec_min rd rs s).symm.trans h)
      · exact .inl hkept
      · exact (minReg_eq_or (s.getD rd) (s.getD rs)).imp hmin.trans hmin.trans
  · have hflags : (t.getD r).flags = (s.getD r).flags := by
      rcases h with h | h | h
      · cases h
        rw [getD_setX, getD_setD_self, flags_withMant]
      · exact flags_of_replaceMant ((exec_mul10 r s).symm.trans h)
      · exact flags_of_replaceMant ((exec_addi32 r s).symm.trans h)
    exact ⟨hflags, valid_eq_of_flags_eq hflags⟩

/-- Settles O22, from the two outcomes of a command. -/
theorem faultsArePrecise : Obligations.FaultsArePrecise := by
  intro i s
  obtain ⟨f, hf, hraises⟩ | ⟨v, -, hexec⟩ := exec_cases i s
  · exact .inl ⟨f, hf.listed, hraises⟩
  · exact .inr ⟨_, hexec, written_err i s v, written_ecmd i s v⟩

/-- Settles O24: with an invalid operand no result is written and no overflow is raised, so InvalidValue remains unless
the divisor is zero. -/
theorem invalidOperandTakesFault : Obligations.InvalidOperandTakesFault := by
  intro i s r hvalue hr hinvalid hdivisor
  have hreads : ¬ReadsValid i s := fun h => by simp [h r hr] at hinvalid
  obtain ⟨f, hf, hraises⟩ | ⟨v, hv, -⟩ := exec_cases i s
  · cases f with
    | invalidValue => exact hraises
    | overflow => exact absurd (hf.overflow rfl hvalue) hreads
    | divideByZero =>
      obtain ⟨rd, rs, hi, hzero⟩ := hf.divideByZero rfl
      exact absurd hzero (hdivisor rd rs hi)
    | illegalCommand => cases hf.listed
  · exact absurd (hv.reads hvalue) hreads

/-- Settles O25: fault entry and a result write what the command lists, and no host event writes the settings. -/
theorem commandFrame : Obligations.CommandFrame := by
  refine ⟨fun i s t h => ?_, fun s t h => ?_⟩
  · obtain ⟨f, -, rfl⟩ | ⟨v, -, rfl⟩ := exec_eq_next h
    · exact ⟨fun r _ => getD_raiseFault s f _ r, fun _ => rfl, rfl, rfl, rfl⟩
    · exact ⟨fun r hr => getD_written_of_ne s v hr, written_x_of_not_writesX s v, written_hostIn i s v,
        written_returned i s v, written_params i s v⟩
  · obtain ⟨-, rfl⟩ | ⟨e, rest, -, hserved⟩ := step_cases h
    · rfl
    · exact hserved.params

/-- Settles O26, from the outcome of a command in two states. -/
theorem resultDependsOnOperandsOnly : Obligations.ResultDependsOnOperandsOnly := by
  intro i s u hregs hxlo hxhi hparams
  obtain ⟨f, -, hs, hu⟩ | ⟨v, -, hs, hu⟩ := exec_sameOutcome ⟨hregs, hxlo, hxhi, hparams⟩
  · exact .inl ⟨f, hs, hu⟩
  · refine .inr ⟨_, _, hs, hu, written_err i s v, written_err i u v, fun r hr => ?_, fun hx => ?_⟩
    · rw [getD_written_of_writesD s v hr, getD_written_of_writesD u v hr]
    · rw [written_x_of_writesX s v hx, written_x_of_writesX u v hx]

end Sys2Proof.Proofs

/-! PROOFS. The data window and the start of a run (spec/20_memory.md R51 to R56; spec/60_exceptions.md R197;
spec/70_reset_and_hazards.md R210 to R216). A write of an index below 18 is one function of the state, which a fault does
not change; what it stores is what the next read of the index returns. -/

namespace Sys2Proof.Proofs

open Sys2Proof.Machine Sys2Proof.Config Sys2Proof.Laws

/-! ### One word of a register (R51) -/

theorem word_setWord_self (r : DecReg) {j : ℕ} (v : Word) (hj : j < 4) : (r.setWord j v).word j = v := by
  match j, hj with
  | 0, _ | 1, _ | 2, _ | 3, _ => rfl

theorem word_setWord_of_ne (r : DecReg) {j k : ℕ} (v : Word) (hj : j < 4) (hk : k < 4) (hne : k ≠ j) :
    (r.setWord j v).word k = r.word k := by
  match j, hj, k, hk with
  | 0, _, 1, _ | 0, _, 2, _ | 0, _, 3, _ | 1, _, 0, _ | 1, _, 2, _ | 1, _, 3, _ => rfl
  | 2, _, 0, _ | 2, _, 1, _ | 2, _, 3, _ | 3, _, 0, _ | 3, _, 1, _ | 3, _, 2, _ => rfl
  | 0, _, 0, _ | 1, _, 1, _ | 2, _, 2, _ | 3, _, 3, _ => exact absurd rfl hne

theorem index_windowReg {idx : ℕ} (h : idx < 16) : (windowReg idx).index = idx / 4 := by
  rw [windowReg, index_ofBits, BitVec.toNat_ofNat]
  omega

theorem regRead_of_lt {idx : ℕ} (s : State) (h : idx < 16) :
    regRead idx s = (s.getD (windowReg idx)).word (idx % 4) := if_pos h

/-- From index 16 on a read looks at no decimal register. -/
theorem regRead_of_ge {idx : ℕ} (s : State) (h : 16 ≤ idx) : regRead idx s =
    if idx = 16 then s.xlo else if idx = 17 then s.xhi else if idx = 19 then s.status
    else if idx = 20 then s.ecmd else 0 := if_neg h.not_gt

/-! ### A write of a data word (R56) -/

/-- The state after word `v` is stored at a data index. -/
def storeWord (idx : ℕ) (v : Word) (s : State) : State :=
  if idx < 16 then s.setD (windowReg idx) ((s.getD (windowReg idx)).setWord (idx % 4) v)
  else if idx = 16 then s.setXLO v else s.setXHI v

theorem storeWord_of_lt {idx : ℕ} (v : Word) (s : State) (h : idx < 16) :
    storeWord idx v s = s.setD (windowReg idx) ((s.getD (windowReg idx)).setWord (idx % 4) v) := if_pos h

theorem storeWord_xlo (v : Word) (s : State) : storeWord 16 v s = s.setXLO v := by
  rw [storeWord, if_neg (by decide), if_pos rfl]

theorem storeWord_xhi (v : Word) (s : State) : storeWord 17 v s = s.setXHI v := by
  rw [storeWord, if_neg (by decide), if_neg (by decide)]

theorem regWrite_eq_storeWord {idx : ℕ} (v : Word) (s : State) (h : idx < 18) :
    regWrite idx v s = .next (storeWord idx v s) := by
  obtain hlt | heq | heq : idx < 16 ∨ idx = 16 ∨ idx = 17 := by omega
  · rw [storeWord_of_lt v s hlt]
    exact if_pos hlt
  · rw [heq, storeWord_xlo, regWrite, if_neg (by decide), if_pos (show 16 = idxXLO from rfl)]
  · rw [heq, storeWord_xhi, regWrite, if_neg (by decide), if_neg (show 17 ≠ idxXLO by decide),
      if_pos (show 17 = idxXHI from rfl)]

/-- Storing a data word neither sees nor touches the fault. -/
theorem clearFault_storeWord (idx : ℕ) (v : Word) (s : State) :
    (storeWord idx v s).clearFault = storeWord idx v s.clearFault := by
  unfold storeWord
  split_ifs
  · rw [getD_clearFault]
    cases windowReg idx <;> rfl
  · rfl
  · rfl

section
variable (idx : ℕ) (v : Word) (s : State)

/-- A store of a data word writes one register, or `X`. -/
theorem storeWord_cases :
    (∃ r d, storeWord idx v s = s.setD r d) ∨ ∃ x, storeWord idx v s = s.setX x := by
  unfold storeWord
  split_ifs
  · exact .inl ⟨_, _, rfl⟩
  · exact .inr ⟨_, rfl⟩
  · exact .inr ⟨_, rfl⟩

theorem storeWord_control : (storeWord idx v s).err = s.err ∧ (storeWord idx v s).ecmd = s.ecmd ∧
    (storeWord idx v s).hostIn = s.hostIn ∧ (storeWord idx v s).returned = s.returned ∧
    (storeWord idx v s).params = s.params := by
  obtain ⟨r, d, h⟩ | ⟨x, h⟩ := storeWord_cases idx v s
  · simp [h]
  · simp [h]

end

theorem regRead_storeWord_self {idx : ℕ} (v : Word) (s : State) (h : idx < 18) :
    regRead idx (storeWord idx v s) = v := by
  obtain hlt | heq | heq : idx < 16 ∨ idx = 16 ∨ idx = 17 := by omega
  · rw [regRead_of_lt _ hlt, storeWord_of_lt v s hlt, getD_setD_self]
    exact word_setWord_self _ v (Nat.mod_lt _ (by decide))
  · rw [heq, storeWord_xlo, regRead_xlo, xlo_setXLO]
  · rw [heq, storeWord_xhi, regRead_xhi, xhi_setXHI]

/-- Two data indices of one register differ in the word, and two of different registers in the register. -/
theorem regRead_storeWord_of_ne {idx j : ℕ} (v : Word) (s : State) (h : idx < 18) (hne : j ≠ idx) :
    regRead j (storeWord idx v s) = regRead j s := by
  obtain ⟨herr, hecmd, -⟩ := storeWord_control idx v s
  have hstatus : (storeWord idx v s).status = s.status := congrArg (BitVec.setWidth 32) herr
  obtain hlt | rfl | rfl : idx < 16 ∨ idx = 16 ∨ idx = 17 := by omega
  · rw [storeWord_of_lt v s hlt]
    rcases Nat.lt_or_ge j 16 with hj | hj
    · rw [regRead_of_lt _ hj, regRead_of_lt _ hj]
      by_cases hreg : windowReg j = windowReg idx
      · have hdiv : j / 4 = idx / 4 := by rw [← index_windowReg hj, ← index_windowReg hlt, hreg]
        rw [hreg, getD_setD_self]
        exact word_setWord_of_ne _ v (Nat.mod_lt _ (by decide)) (Nat.mod_lt _ (by decide)) (by omega)
      · rw [getD_setD_of_ne _ _ hreg]
    · simp only [regRead_of_ge _ hj, State.xlo, State.xhi, State.status, setD_x, setD_err, setD_ecmd]
  · rcases Nat.lt_or_ge j 16 with hj | hj
    · rw [regRead_of_lt _ hj, regRead_of_lt _ hj, storeWord_xlo, State.setXLO, getD_setX]
    · rw [regRead_of_ge _ hj, regRead_of_ge _ hj, if_neg hne, if_neg hne, hstatus, hecmd, storeWord_xlo, xhi_setXLO]
  · rcases Nat.lt_or_ge j 16 with hj | hj
    · rw [regRead_of_lt _ hj, regRead_of_lt _ hj, storeWord_xhi, State.setXHI, getD_setX]
    · rw [regRead_of_ge _ hj, regRead_of_ge _ hj, if_neg hne, if_neg hne, hstatus, hecmd, storeWord_xhi, xlo_setXHI]

theorem step_storeWord {s : State} {idx : ℕ} {v : Word} {rest : List HostEvent} (hidx : idx < 18)
    (h : s.hostIn = hostWrite idx v :: rest) : step s = .next (storeWord idx v { s with hostIn := rest }) :=
  (step_hostWrite (by omega) h).trans (regWrite_eq_storeWord v _ hidx)

/-! ### The obligations -/

/-- Settles O8: a faulted engine fails the test before execution, and reads and data writes do not look at `ERR`. -/
theorem faultedEngineDropsCommands : Obligations.FaultedEngineDropsCommands := by
  intro s w rest herr
  refine ⟨fun h => (step_hostWrite (by decide) h).trans (if_neg herr), fun idx _ hstatus hecmd => ?_,
    fun idx hidx h => ?_⟩
  · rcases Nat.lt_or_ge idx 16 with hlt | hge
    · rw [regRead_of_lt _ hlt, regRead_of_lt _ hlt, getD_clearFault]
    · rw [regRead_of_ge _ hge, regRead_of_ge _ hge]
      simp only [if_neg hstatus, if_neg hecmd]
      rfl
  · obtain ⟨hterr, htecmd, -⟩ := storeWord_control idx w { s with hostIn := rest }
    exact ⟨_, _, step_storeWord hidx h, step_storeWord (s := s.clearFault) hidx h, clearFault_storeWord idx w _, hterr,
      htecmd⟩

/-- Settles O11: the word is stored where the next read of the index looks, and no other read looks there. -/
theorem hostWriteStoresWord : Obligations.HostWriteStoresWord := by
  intro s idx v rest h
  refine ⟨fun hidx => ?_, fun hlo hhi => ?_⟩
  · refine ⟨_, step_storeWord hidx h, regRead_storeWord_self v _ hidx, fun j _ hne => ?_, storeWord_control idx v _⟩
    rw [regRead_storeWord_of_ne v _ hidx hne, regRead_hostIn]
  · rw [step_hostWrite hhi h]
    obtain rfl | hreserved : idx = 20 ∨ 21 ≤ idx := by omega
    · rfl
    · exact regWrite_of_reserved v _ hreserved

/-- Settles O14: no command and no access of the window is refused, and the idle engine keeps its state. -/
theorem engineNeverHalts : Obligations.EngineNeverHalts := by
  refine ⟨exec_next, fun s hstep => ?_⟩
  cases hin : s.hostIn with
  | nil => exact ⟨s, by simp only [step, serveNext, hin]⟩
  | cons e rest =>
    rw [step_of_hostIn_cons hin]
    exact serve_next_of_hasStep (hstep e rest hin) _

/-- Settles O6: the write of `CMD` executes its word, which is the command. -/
theorem stepRunsDecodedCommand : Obligations.StepRunsDecodedCommand := by
  intro s w i rest h herr hdecode
  exact (step_hostWrite_cmd h herr).trans (execute_of_decode_some _ hdecode)

/-- Settles O15, from the service of a reset event. -/
theorem resetEventClearsFault : Obligations.ResetEventClearsFault := by
  intro s w rest h
  exact ⟨_, step_of_hostIn_cons h, rfl, rfl, rfl, rfl, rfl, rfl, rfl, rfl, rfl, rfl⟩

/-- Settles O16: `ERR` is 0 after a reset, so the first command executes. -/
theorem resetLeavesEngineReady : Obligations.ResetLeavesEngineReady := by
  intro p w
  exact ⟨rfl, rfl, rfl, fun i rest hwf => step_hostCommand hwf rfl rfl⟩

/-- Settles O17, from the service of an empty list. -/
theorem idleEngineKeepsState : Obligations.IdleEngineKeepsState := by
  intro s h
  simp only [step, serveNext, h]

end Sys2Proof.Proofs

/-! PROOFS. Laws of the arithmetic (spec/41_arith.md R124, R125; spec/42_round.md R140; spec/96_test_vectors_more.md
section 7). Addition is a function of the sum of two signed mantissas, so it commutes; a sum of 96 bits is exact, so a
value is rebuilt from its integer part and the rest; CYTOD is exact, so DTOCY reads back the integer it took. -/

namespace Sys2Proof.Proofs

open Sys2Proof.Machine Sys2Proof.Config Sys2Proof.Laws

/-! ### Commutativity (R124, R125) -/

theorem addSub_comm (a b : Dec) : addSub a b false = addSub b a false := by
  rw [addSub_false rfl rfl, addSub_false (max_comm b.scale a.scale) (Int.add_comm _ _)]
  simp only [Bool.and_comm]

theorem multiply_comm (a b : Dec) : multiply a b = multiply b a := by
  simp only [multiply, Nat.mul_comm a.mant, Nat.add_comm a.scale, Bool.xor_comm a.neg]

/-! ### Exact sums (R101, R140) -/

/-- A number of 96 bits at a scale of at most 28 is compact already. -/
theorem compact_of_le {N scale : ℕ} (hN : N ≤ max96) (hscale : scale ≤ scaleMax) :
    compact N scale = some (N, scale) := by
  refine compact_eq_some.2 ⟨by simp, le_min le_rfl hscale, hN, fun j hlt hle => ?_⟩
  exact absurd hlt (not_lt.2 (hle.trans (min_le_left _ _)))

/-- A sum of 96 bits is exact. -/
theorem addSub_exact {a b : Dec} {c : ℕ} {x : ℤ} (hc : max a.scale b.scale = c) (hx : a.signed c + b.signed c = x)
    (hfit : x.natAbs ≤ max96) (hscale : c ≤ scaleMax) :
    addSub a b false = some ⟨x.natAbs, c, if x = 0 then a.neg && b.neg else decide (x < 0)⟩ := by
  rw [addSub_false hc hx, compact_of_le hfit hscale]
  rfl

/-- The rest of a value after its integer part: the digits behind the point, with the value's sign unless there are
none. -/
def fractionDec (x : Dec) : Dec :=
  ⟨x.mant % 10 ^ x.scale, x.scale, x.neg && decide (x.mant % 10 ^ x.scale ≠ 0)⟩

theorem natAbs_ite_neg (n : Bool) (m : ℕ) : (if n then -(m : ℤ) else m).natAbs = m := by
  split_ifs <;> simp

theorem addSub_truncate {x : Dec} (hx : x.InRange) : addSub x (truncate x) true = some (fractionDec x) := by
  obtain ⟨m, c, n⟩ := x
  obtain ⟨hmant, hscale⟩ : m ≤ max96 ∧ c ≤ scaleMax := hx
  have hdiv : m / 10 ^ c * 10 ^ c + m % 10 ^ c = m := Nat.div_add_mod' _ _
  have hsum : Dec.signed ⟨m, c, n⟩ c + Dec.signed ⟨m / 10 ^ c, 0, !n⟩ c =
      if n then -((m % 10 ^ c : ℕ) : ℤ) else (m % 10 ^ c : ℕ) := by
    simp only [Dec.signed, Dec.widen, Nat.sub_self, pow_zero, Nat.mul_one, Nat.sub_zero]
    cases n <;> simp only [Bool.not_true, Bool.not_false, Bool.false_eq_true, if_true, if_false] <;> omega
  have hfit : m % 10 ^ c ≤ max96 := (Nat.mod_le _ _).trans hmant
  rw [addSub_true, truncate, addSub_exact (max_eq_left (Nat.zero_le _)) hsum (by rwa [natAbs_ite_neg]) hscale,
    natAbs_ite_neg, fractionDec]
  generalize m % 10 ^ c = r
  cases n
  · simp
  · by_cases hr : r = 0 <;> simp [hr, Nat.pos_iff_ne_zero]

theorem addSub_truncate_fraction {x : Dec} (hx : x.InRange) :
    addSub (truncate x) (fractionDec x) false = some ⟨x.mant, x.scale, x.neg && decide (x.mant ≠ 0)⟩ := by
  obtain ⟨m, c, n⟩ := x
  obtain ⟨hmant, hscale⟩ : m ≤ max96 ∧ c ≤ scaleMax := hx
  have hdiv : m / 10 ^ c * 10 ^ c + m % 10 ^ c = m := Nat.div_add_mod' _ _
  have hsum : Dec.signed ⟨m / 10 ^ c, 0, n⟩ c + Dec.signed ⟨m % 10 ^ c, c, n && decide (m % 10 ^ c ≠ 0)⟩ c =
      if n then -(m : ℤ) else m := by
    simp only [Dec.signed, Dec.widen, Nat.sub_self, pow_zero, Nat.mul_one, Nat.sub_zero]
    cases n <;>
      simp only [Bool.true_and, Bool.false_and, Bool.false_eq_true, decide_eq_true_eq, if_true, if_false]
    · omega
    · split_ifs <;> omega
  rw [truncate, fractionDec, addSub_exact (c := c) (max_eq_right (Nat.zero_le _)) hsum (by rwa [natAbs_ite_neg]) hscale,
    natAbs_ite_neg]
  simp only
  cases n
  · simp
  · by_cases hm : m = 0 <;> simp [hm, Nat.pos_iff_ne_zero]

/-! ### Currency (R150, R151) -/

/-- At scale 4 the currency integer is the signed mantissa. -/
theorem currencyInt_currencyToDec (x : DWord) : currencyInt (currencyToDec x) = x.toInt := by
  have hmagnitude : currencyMagnitude (currencyToDec x) = x.toInt.natAbs := by
    simp [currencyMagnitude, currencyToDec]
  rw [currencyInt, hmagnitude]
  simp only [currencyToDec, decide_eq_true_eq]
  split_ifs <;> omega

theorem execDtocy_of_currency {r : DReg} {s : State} {x : DWord} (h : s.getD r = pack (currencyToDec x)) :
    exec (.dtocy r) s = .next (s.setX x) := by
  have hdec : (s.getD r).dec = currencyToDec x := by
    rw [h, dec_pack (mant_currencyToDec_le x) (scale_currencyToDec_le x)]
  have hint : currencyInt (s.getD r).dec = x.toInt := by rw [hdec, currencyInt_currencyToDec]
  have hvalid : (s.getD r).valid = true := by rw [h, valid_pack (scale_currencyToDec_le x)]
  have hlow := x.le_toInt
  have hhigh := x.toInt_lt
  rw [execDtocy_of_inRange hvalid (by rw [hint]; omega), hint, BitVec.ofInt_toInt]

/-! ### The obligations -/

/-- Settles O58, from the sum of the two signed mantissas. -/
theorem addMulLaws : Obligations.AddMulLaws := fun a b => ⟨addSub_comm a b, multiply_comm a b, addSub_true a b⟩

/-- Settles O59: the rest is the remainder of the mantissa, and both sums are exact. -/
theorem truncateReconstructs : Obligations.TruncateReconstructs := fun x hx =>
  ⟨fractionDec x, addSub_truncate hx, addSub_truncate_fraction hx⟩

/-- Settles O60: DTOCY reads the register alone, and it holds the integer CYTOD took. -/
theorem currencyRoundTrip : Obligations.CurrencyRoundTrip := by
  intro r s
  refine ⟨s.setD r (pack (currencyToDec s.x)), rfl, fun x' => ?_⟩
  have hreg : ((s.setD r (pack (currencyToDec s.x))).setX x').getD r = pack (currencyToDec s.x) := by simp
  exact execDtocy_of_currency hreg

end Sys2Proof.Proofs

/-! PROOFS. Division in chunks (spec/40_primitives.md R100, R101, R104; spec/42_round.md R140, R143). Each pass removes some
digits of the dividend; the digits removed before the last pass matter only in whether they are all zero. Hence the last
chunk with the sticky bit decides every rounding, and `scaleResult`, which removes digits until the rounded number fits,
is a downward search over the scales. -/

namespace Sys2Proof.Proofs

open Sys2Proof.Machine Sys2Proof.Config Sys2Proof.Laws

/-! ### The last chunk (R104) -/

/-- `c` is the last chunk of the division of `N` by `10^k`: the quotient, the last `c.pw` digits removed, and whether any
digit below them is set. -/
structure IsLastChunk (N k : ℕ) (c : Chunked) : Prop where
  one_le_pw : 1 ≤ c.pw
  pw_le_nine : c.pw ≤ 9
  pw_le : c.pw ≤ k
  q_eq : c.q = N / 10 ^ k
  rem_eq : c.rem = N / 10 ^ (k - c.pw) % 10 ^ c.pw
  sticky_iff : c.sticky = true ↔ N % 10 ^ (k - c.pw) ≠ 0

/-- The remainder by a product, split at the inner divisor. -/
theorem mod_pow_split (N j p : ℕ) : N % 10 ^ (j + p) = N % 10 ^ j + 10 ^ j * (N / 10 ^ j % 10 ^ p) := by
  rw [pow_add, Nat.mod_mul]

/-- After one more chunk the digits removed so far are all zero when they were before and the chunk is. -/
theorem sticky_step {N j p rem : ℕ} {sticky : Bool} (h : (sticky || rem != 0) = true ↔ N % 10 ^ j ≠ 0) :
    ((sticky || rem != 0) || N / 10 ^ j % 10 ^ p != 0) = true ↔ N % 10 ^ (j + p) ≠ 0 := by
  have hpos : 0 < 10 ^ j := by positivity
  rw [Bool.or_eq_true, h, bne_iff_ne, mod_pow_split, ← Nat.pos_iff_ne_zero, ← Nat.pos_iff_ne_zero,
    ← Nat.pos_iff_ne_zero, Nat.add_pos_iff_pos_or_pos, Nat.mul_pos_iff_of_pos_left hpos]

theorem div_pow_add (N j p : ℕ) : N / 10 ^ j / 10 ^ p = N / 10 ^ (j + p) := by
  rw [Nat.div_div_eq_div_mul, pow_add]

/-- The chunk that ends a chunked division of which `j` digits were removed before. -/
theorem isLastChunk_mk {N j p rem : ℕ} {sticky : Bool} (hp : 1 ≤ p) (hp9 : p ≤ 9)
    (h : (sticky || rem != 0) = true ↔ N % 10 ^ j ≠ 0) :
    IsLastChunk N (j + p) ⟨N / 10 ^ j / 10 ^ p, N / 10 ^ j % 10 ^ p, p, sticky || rem != 0⟩ := by
  have hj : j + p - p = j := Nat.add_sub_cancel j p
  exact ⟨hp, hp9, Nat.le_add_left p j, div_pow_add N j p, by rw [hj], by rw [hj]; exact h⟩

theorem isLastChunk_divPow10Loop {N : ℕ} (fuel : ℕ) {k j rem : ℕ} {sticky : Bool} (hk : 1 ≤ k) (hfuel : k ≤ fuel)
    (h : (sticky || rem != 0) = true ↔ N % 10 ^ j ≠ 0) :
    IsLastChunk N (j + k) (divPow10Loop fuel (N / 10 ^ j) k rem sticky) := by
  have hnine : maxPow32 = 9 := rfl
  induction fuel generalizing k j rem sticky with
  | zero => omega
  | succ fuel ih =>
    simp only [divPow10Loop]
    split_ifs with hlast
    · have hmin : min k maxPow32 = k := by omega
      rw [hmin]
      exact isLastChunk_mk hk (by omega) h
    · have hsum : j + min k maxPow32 + (k - min k maxPow32) = j + k := by omega
      rw [← hsum, div_pow_add]
      exact ih (by omega) (by omega) (sticky_step h)

theorem isLastChunk_divPow10 (N : ℕ) {k : ℕ} (hk : 1 ≤ k) : IsLastChunk N k (divPow10 N k) := by
  have h := isLastChunk_divPow10Loop (N := N) k (j := 0) (rem := 0) (sticky := false) hk le_rfl (by simp [Nat.mod_one])
  rwa [pow_zero, Nat.div_one, Nat.zero_add] at h

/-! ### The last chunk decides the rounding (R100, R143) -/

section
variable {N k : ℕ} {c : Chunked}

/-- The comparisons of the whole discarded part with a half, made on its leading chunk `r` of even modulus `2 * h` and the
part `low` below it. -/
theorem half_of_leading {low D r h : ℕ} (hlow : low < D) :
    (D * (2 * h) < 2 * (low + D * r) ↔ 2 * h < 2 * r ∨ (2 * r = 2 * h ∧ low ≠ 0)) ∧
      (2 * (low + D * r) = D * (2 * h) ↔ 2 * r = 2 * h ∧ low = 0) := by
  obtain hlt | heq | hgt := lt_trichotomy r h
  · have : D * (r + 1) ≤ D * h := Nat.mul_le_mul_left D hlt
    rw [Nat.mul_add_one] at this
    have hmul : D * (2 * h) = 2 * (D * h) := by ring
    omega
  · subst heq
    have hmul : D * (2 * r) = 2 * (D * r) := by ring
    omega
  · have : D * (h + 1) ≤ D * r := Nat.mul_le_mul_left D hgt
    rw [Nat.mul_add_one] at this
    have hmul : D * (2 * h) = 2 * (D * h) := by ring
    omega

/-- The discarded part: the last chunk over the digits below it. -/
theorem IsLastChunk.discarded (h : IsLastChunk N k c) :
    N % 10 ^ k = N % 10 ^ (k - c.pw) + 10 ^ (k - c.pw) * c.rem := by
  rw [h.rem_eq, ← mod_pow_split, Nat.sub_add_cancel h.pw_le]

theorem IsLastChunk.half (h : IsLastChunk N k c) :
    (10 ^ k < 2 * (N % 10 ^ k) ↔ 10 ^ c.pw < 2 * c.rem ∨ (2 * c.rem = 10 ^ c.pw ∧ c.sticky = true)) ∧
      (2 * (N % 10 ^ k) = 10 ^ k ↔ 2 * c.rem = 10 ^ c.pw ∧ c.sticky = false) := by
  have hlow : N % 10 ^ (k - c.pw) < 10 ^ (k - c.pw) := Nat.mod_lt _ (by positivity)
  have heven : 10 ^ c.pw = 2 * (5 * 10 ^ (c.pw - 1)) := by
    rw [← Nat.sub_add_cancel h.one_le_pw, Nat.add_sub_cancel, pow_succ]
    ring
  have hpow : 10 ^ k = 10 ^ (k - c.pw) * 10 ^ c.pw := by rw [← pow_add, Nat.sub_add_cancel h.pw_le]
  rw [h.discarded, h.sticky_iff, ← Bool.not_eq_true, h.sticky_iff, not_not, hpow, heven]
  exact half_of_leading hlow

theorem IsLastChunk.discarded_eq_zero_iff (h : IsLastChunk N k c) :
    N % 10 ^ k = 0 ↔ c.rem = 0 ∧ c.sticky = false := by
  have hpos : (10 ^ (k - c.pw)) ≠ 0 := by positivity
  rw [h.discarded, Nat.add_eq_zero_iff, ← Bool.not_eq_true, h.sticky_iff, not_not, Nat.mul_eq_zero, or_iff_right hpos,
    and_comm]

theorem IsLastChunk.rhe_eq (h : IsLastChunk N k c) :
    rhe N (10 ^ k) = if c.roundsUpEven then c.q + 1 else c.q := by
  obtain ⟨habove, htie⟩ := h.half
  rw [rhe, h.q_eq]
  refine if_congr ?_ rfl rfl
  simp only [habove, htie, Chunked.roundsUpEven, h.q_eq, Bool.or_eq_true, Bool.and_eq_true, decide_eq_true_eq,
    beq_iff_eq]
  cases c.sticky <;> simp

theorem IsLastChunk.rha_eq (h : IsLastChunk N k c) :
    rha N (10 ^ k) = if c.roundsUpAway then c.q + 1 else c.q := by
  obtain ⟨habove, htie⟩ := h.half
  rw [rha, h.q_eq]
  refine if_congr ?_ rfl rfl
  rw [Chunked.roundsUpAway, decide_eq_true_eq, le_iff_lt_or_eq, le_iff_lt_or_eq, habove, @eq_comm ℕ (10 ^ k), htie,
    @eq_comm ℕ (10 ^ c.pw)]
  cases c.sticky <;> simp

end

/-! ### Searching for the scale (R101) -/

/-- The compaction of `N` at scale `scale` to a scale of at most `cap`. -/
def compactBelow (N scale cap : ℕ) : Option (ℕ × ℕ) :=
  (findDown (fun t => rhe N (10 ^ (scale - t)) ≤ max96) cap).map fun t => (rhe N (10 ^ (scale - t)), t)

theorem compact_eq_compactBelow (N scale : ℕ) : compact N scale = compactBelow N scale (min scale scaleMax) := rfl

theorem compactBelow_of_fits {N scale cap : ℕ} (h : rhe N (10 ^ (scale - cap)) ≤ max96) :
    compactBelow N scale cap = some (rhe N (10 ^ (scale - cap)), cap) := by
  have hfind : findDown (fun t => decide (rhe N (10 ^ (scale - t)) ≤ max96)) cap = some cap :=
    findDown_eq_some.2 ⟨le_rfl, decide_eq_true h, fun j hlt hle => absurd hlt (not_lt.2 hle)⟩
  rw [compactBelow, hfind]
  rfl

theorem compactBelow_zero {N scale : ℕ} (h : max96 < rhe N (10 ^ scale)) : compactBelow N scale 0 = none := by
  have hfind : findDown (fun t => decide (rhe N (10 ^ (scale - t)) ≤ max96)) 0 = none :=
    findDown_eq_none.2 fun j hj => by
      obtain rfl : j = 0 := Nat.le_zero.1 hj
      exact decide_eq_false (not_le.2 h)
  rw [compactBelow, hfind]
  rfl

/-- Scales at which the number does not fit can be left out of the search. -/
theorem findDown_eq_of_fails {p : ℕ → Bool} {a b : ℕ} (hab : a ≤ b) (h : ∀ t, a < t → t ≤ b → p t = false) :
    findDown p b = findDown p a := by
  induction b, hab using Nat.le_induction with
  | base => rfl
  | succ b hab ih =>
    rw [findDown, h (b + 1) (by omega) le_rfl]
    exact ih fun t hlt hle => h t hlt (by omega)

theorem compactBelow_eq_of_fails {N scale a b : ℕ} (hab : a ≤ b)
    (h : ∀ t, a < t → t ≤ b → max96 < rhe N (10 ^ (scale - t))) : compactBelow N scale b = compactBelow N scale a := by
  have hfind := findDown_eq_of_fails (p := fun t => decide (rhe N (10 ^ (scale - t)) ≤ max96)) hab
    fun t hlt hle => decide_eq_false (not_le.2 (h t hlt hle))
  rw [compactBelow, hfind]
  rfl

theorem div_le_rhe (n d : ℕ) : n / d ≤ rhe n d := by
  simp only [rhe]
  split_ifs <;> omega

theorem rhe_le_div_add_one (n d : ℕ) : rhe n d ≤ n / d + 1 := by
  simp only [rhe]
  split_ifs <;> omega

theorem rhe_le_self (n : ℕ) {d : ℕ} (hd : 0 < d) : rhe n d ≤ n := roundBy_le .even n hd

/-! ### `scaleResult` (R100) -/

/-- A number that rounds up to `2^96` gives, with one digit less, what `2^96` itself gives: its discarded part is above a
half both times, so rounding the rounded number is harmless. -/
theorem rhe_ten_of_carry {N k : ℕ} (hfloor : N / 10 ^ k = max96) (hup : rhe N (10 ^ k) = max96 + 1) :
    rhe N (10 ^ (k + 1)) = rhe (max96 + 1) 10 := by
  have hpos : 0 < 10 ^ k := by positivity
  obtain ⟨-, hhalf, -⟩ := rhe_spec N hpos
  have hsplit := mod_pow_split N k 1
  have hlow : N % 10 ^ k < 10 ^ k := Nat.mod_lt _ hpos
  have hdiv := Nat.div_add_mod N (10 ^ k)
  have hten : 10 ^ (k + 1) = 10 * 10 ^ k := by ring
  have hquot : N / 10 ^ (k + 1) = max96 / 10 := by rw [pow_succ, ← Nat.div_div_eq_div_mul, hfloor]
  have hvalue : rhe (max96 + 1) 10 = max96 / 10 + 1 := by decide
  rw [hup] at hhalf
  rw [hfloor] at hdiv hsplit
  have hmax : max96 % 10 ^ 1 = 5 := by decide
  rw [hmax] at hsplit
  rw [hvalue, rhe, hquot]
  refine if_pos (.inl ?_)
  rw [hsplit, hten]
  simp only [max96] at hhalf hdiv
  omega

/-- A scale at which the number does not fit is left for the next one. -/
theorem compactBelow_succ {N scale k : ℕ} (h : max96 < rhe N (10 ^ k)) :
    compactBelow N (scale + 1 + k) (scale + 1) = compactBelow N (scale + 1 + k) scale := by
  refine compactBelow_eq_of_fails (Nat.le_succ scale) fun t hlt hle => ?_
  obtain rfl : t = scale + 1 := by omega
  rwa [Nat.add_sub_cancel_left]

/-- After a carry to `2^96` the search goes on with the rounded number. -/
theorem compactBelow_of_carry {N scale k : ℕ} (hfloor : N / 10 ^ k = max96) (hup : rhe N (10 ^ k) = max96 + 1) :
    compactBelow N (scale + 1 + k) (scale + 1) = compactBelow (max96 + 1) (scale + 1) scale := by
  have hdrop := rhe_ten_of_carry hfloor hup
  have hfits : rhe (max96 + 1) 10 ≤ max96 := by decide
  have hone : scale + 1 - scale = 1 := Nat.add_sub_cancel_left scale 1
  have hnext : scale + 1 + k - scale = k + 1 := by omega
  rw [compactBelow_succ (by rw [hup]; exact Nat.lt_succ_self _), compactBelow_of_fits (by rwa [hnext, hdrop]), hnext,
    hdrop, compactBelow_of_fits (by rwa [hone, pow_one]), hone, pow_one]

/-- The last rounding of a pass: a carry out of 96 bits drops one more digit (R101). -/
theorem eq_compactBelow_of_rounding {N scale k : ℕ} {up : Bool} {again : Option (ℕ × ℕ)} (hq : N / 10 ^ k ≤ max96)
    (hrhe : rhe N (10 ^ k) = if up then N / 10 ^ k + 1 else N / 10 ^ k)
    (hagain : N / 10 ^ k = max96 → ∀ u, scale = u + 1 → again = compactBelow (max96 + 1) (u + 1) u) :
    (if up then if max96 < N / 10 ^ k + 1 then if scale = 0 then none else again else some (N / 10 ^ k + 1, scale)
      else some (N / 10 ^ k, scale)) = compactBelow N (scale + k) scale := by
  have hhere : scale + k - scale = k := Nat.add_sub_cancel_left scale k
  cases up with
  | false =>
    rw [if_neg Bool.false_ne_true] at hrhe ⊢
    rw [compactBelow_of_fits (by rwa [hhere, hrhe]), hhere, hrhe]
  | true =>
    rw [if_pos rfl] at hrhe ⊢
    by_cases hcarry : max96 < N / 10 ^ k + 1
    · have hfloor : N / 10 ^ k = max96 := by omega
      rw [if_pos hcarry]
      cases scale with
      | zero => rw [if_pos rfl, Nat.zero_add, compactBelow_zero (by rwa [hrhe])]
      | succ u =>
        rw [if_neg (Nat.succ_ne_zero u), hagain hfloor u rfl, compactBelow_of_carry hfloor (by rw [hrhe, hfloor])]
    · rw [if_neg hcarry, compactBelow_of_fits (by rw [hhere, hrhe]; exact not_lt.1 hcarry), hhere, hrhe]

/-- The loop searches the scales from the present one down, where `scale + (j + k)` is the scale of the whole number `N`,
of which `j` digits are removed and `k` are to be removed before the next test. -/
theorem scaleResultLoop_eq (fuel : ℕ) {N scale k j rem : ℕ} {sticky : Bool} (hk : 1 ≤ k) (hfuel : scale + k < fuel)
    (h : (sticky || rem != 0) = true ↔ N % 10 ^ j ≠ 0) :
    scaleResultLoop fuel (N / 10 ^ j) scale k rem sticky = compactBelow N (scale + (j + k)) scale := by
  have hnine : maxPow32 = 9 := rfl
  induction fuel generalizing N scale k j rem sticky with
  | zero => omega
  | succ fuel ih =>
    simp only [scaleResultLoop]
    by_cases hmore : 0 < k - min k maxPow32
    · have hsum : j + min k maxPow32 + (k - min k maxPow32) = j + k := by
        rw [Nat.add_assoc, Nat.add_sub_cancel' (min_le_left _ _)]
      have hfuel' : scale + (k - min k maxPow32) < fuel := by omega
      rw [if_pos hmore, div_pow_add, ih hmore hfuel' (sticky_step h), hsum]
    · have hmin : min k maxPow32 = k := by omega
      rw [if_neg hmore, hmin]
      have hrhe := (isLastChunk_mk hk (by omega : k ≤ 9) h).rhe_eq
      rw [div_pow_add] at hrhe ⊢
      by_cases hq : max96 < N / 10 ^ (j + k)
      · have hover : max96 < rhe N (10 ^ (j + k)) := hq.trans_le (div_le_rhe _ _)
        rw [if_pos hq]
        cases scale with
        | zero => rw [if_pos rfl, Nat.zero_add, compactBelow_zero hover]
        | succ scale =>
          have hnext : scale + (j + k + 1) = scale + 1 + (j + k) := by omega
          rw [if_neg (Nat.succ_ne_zero scale), Nat.add_sub_cancel, ih le_rfl (by omega) (sticky_step h), hnext,
            compactBelow_succ hover]
      · rw [if_neg hq]
        refine eq_compactBelow_of_rounding (not_lt.1 hq) hrhe fun hfloor u hu => ?_
        have hrest := ih (N := max96 + 1) (scale := u) (j := 0) (rem := 0) (sticky := false) le_rfl (by omega)
          (by simp [Nat.mod_one])
        rw [pow_zero, Nat.div_one, Nat.zero_add] at hrest
        rw [hfloor, hu, Nat.add_sub_cancel, hrest]

/-- The digit estimate never removes too much: `77/256` is below `log10 2` (R100). -/
theorem max96_lt_rhe_of_lt_digitEstimate {N m : ℕ} (hbig : max96 < N) (hN : N < 2 ^ 192) (hm : m < digitEstimate N) :
    max96 < rhe N (10 ^ m) := by
  have hestimate : ∀ e < 96, 10 ^ (e * 77 / 2 ^ 8) ≤ 2 ^ e := by decide
  have hne : N ≠ 0 := by omega
  have hlow : 96 ≤ N.log2 := (Nat.le_log2 hne).2 (Nat.succ_le_of_lt hbig)
  have hhigh : N.log2 < 192 := (Nat.log2_lt hne).2 hN
  have hpow : 10 ^ m ≤ 2 ^ (N.log2 - 96) := by
    rw [digitEstimate, Nat.shiftRight_eq_div_pow] at hm
    exact (Nat.pow_le_pow_right (by decide) (Nat.lt_succ_iff.1 hm)).trans (hestimate _ (by omega))
  have hself : 2 ^ N.log2 ≤ N := Nat.log2_self_le hne
  refine lt_of_lt_of_le (Nat.lt_succ_self max96) (le_trans ?_ (div_le_rhe N (10 ^ m)))
  rw [Nat.le_div_iff_mul_le (by positivity)]
  calc (max96 + 1) * 10 ^ m ≤ 2 ^ 96 * 2 ^ (N.log2 - 96) := Nat.mul_le_mul (by decide) hpow
    _ = 2 ^ N.log2 := by rw [← pow_add, Nat.add_sub_cancel' hlow]
    _ ≤ N := hself

theorem scaleResult_eq_compact {N scale : ℕ} (hN : N < 2 ^ 192) (hscale : scale ≤ 56) :
    scaleResult N scale = compact N scale := by
  obtain ⟨k, hk⟩ : ∃ k, (if max96 < N then digitEstimate N else 0) = k := ⟨_, rfl⟩
  have hfails : ∀ m, m < k → max96 < rhe N (10 ^ m) := by
    intro m hm
    by_cases hbig : max96 < N
    · rw [if_pos hbig] at hk
      exact max96_lt_rhe_of_lt_digitEstimate hbig hN (hk ▸ hm)
    · rw [if_neg hbig] at hk
      exact absurd hm (hk ▸ Nat.not_lt_zero m)
  have hzero : k = 0 → N ≤ max96 := by
    rintro rfl
    by_contra hbig
    rw [if_pos (not_le.1 hbig)] at hk
    exact Nat.succ_ne_zero _ hk
  clear hN
  simp only [scaleResult, hk]
  by_cases hover : scale < k
  · rw [if_pos hover]
    exact (compact_eq_none.2 fun j _ => hfails _ ((Nat.sub_le _ _).trans_lt hover)).symm
  rw [if_neg hover]
  obtain ⟨k', hk'⟩ : ∃ k', max k (scale - scaleMax) = k' := ⟨_, rfl⟩
  have hchoice : k' = k ∨ k' = scale - scaleMax := hk' ▸ (max_choice k (scale - scaleMax))
  have hmore : scale - scaleMax ≤ k' := hk' ▸ le_max_right _ _
  have hle : k' ≤ scale := hk' ▸ max_le (not_lt.1 hover) (Nat.sub_le _ _)
  have hkk' : k ≤ k' := hk' ▸ le_max_left _ _
  rw [hk']
  by_cases hnone : k' = 0
  · rw [if_pos hnone, compact_of_le (hzero (Nat.le_zero.1 (hnone ▸ hkk'))) (by omega)]
  · rw [if_neg hnone]
    have hloop := scaleResultLoop_eq 64 (N := N) (scale := scale - k') (k := k') (j := 0) (rem := 0) (sticky := false)
      (Nat.pos_of_ne_zero hnone) (by omega) (by simp [Nat.mod_one])
    rw [pow_zero, Nat.div_one, Nat.zero_add, Nat.sub_add_cancel hle] at hloop
    rw [hloop, compact_eq_compactBelow]
    refine (compactBelow_eq_of_fails (le_min (Nat.sub_le _ _) (tsub_le_iff_tsub_le.1 hmore)) fun t hlt ht => ?_).symm
    have hfewer : scale - t < k' := (tsub_lt_iff_tsub_lt hle (ht.trans (min_le_left _ _))).1 hlt
    refine hfails _ (hchoice.elim (fun h => h ▸ hfewer) fun h => absurd (h ▸ hfewer) ?_)
    exact not_lt.2 (Nat.sub_le_sub_left (ht.trans (min_le_right _ _)) scale)

/-! ### The obligations -/

/-- Settles O47: the digits the estimate removes never leave a number that fits with one digit more. -/
theorem scaleResultEqualsCompact : Obligations.ScaleResultEqualsCompact := fun _ _ => scaleResult_eq_compact

/-- Settles O48, from the split of the discarded part at the last chunk. -/
theorem chunkedDivisionDecidesRounding : Obligations.ChunkedDivisionDecidesRounding := by
  intro N k hk
  have h := isLastChunk_divPow10 N hk
  obtain ⟨habove, htie⟩ := h.half
  exact ⟨h.q_eq, h.one_le_pw, h.pw_le_nine, habove, htie, h.discarded_eq_zero_iff⟩

/-- Settles O49, from the last chunk; a truncation takes the quotient alone. -/
theorem chunkedRoundEqualsClosedForm : Obligations.ChunkedRoundEqualsClosedForm := by
  refine ⟨fun B k hk => ⟨(isLastChunk_divPow10 B hk).rhe_eq.symm, (isLastChunk_divPow10 B hk).rha_eq.symm⟩,
    fun b => ?_⟩
  rcases Nat.eq_zero_or_pos b.scale with hzero | hpos
  · simp [truncateChunked, truncate, hzero]
  · simp [truncateChunked, truncate, hpos.ne', (isLastChunk_divPow10 b.mant hpos).q_eq]

end Sys2Proof.Proofs

/-! PROOFS. The document's mechanisms for the adder, the multiplier, the scale normalisation and the wide division
(spec/40_primitives.md R96, R97; spec/41_arith.md R123, R126, R128, R129). Words that hold a whole number compute with
it exactly, so each mechanism is the closed form of the same rule. -/

namespace Sys2Proof.Proofs

open Sys2Proof.Machine Sys2Proof.Config Sys2Proof.Laws

/-! ### The words of a number (R94) -/

theorem length_wideOf (n N : ℕ) : (wideOf n N).length = n := by
  induction n generalizing N with
  | zero => rfl
  | succ n ih => rw [wideOf, List.length_cons, ih]

theorem wideValue_wideOf (n N : ℕ) : wideValue (wideOf n N) = N % 2 ^ (32 * n) := by
  induction n generalizing N with
  | zero => simp [wideOf, Nat.mod_one]
  | succ n ih => rw [wideOf, wideValue_cons, ih, BitVec.toNat_ofNat, two_pow_words_succ, Nat.mod_mul]

theorem wideValue_wideOf_of_lt {n N : ℕ} (h : N < 2 ^ (32 * n)) : wideValue (wideOf n N) = N := by
  rw [wideValue_wideOf, Nat.mod_eq_of_lt h]

theorem lt_of_le_max96 {m : ℕ} (h : m ≤ max96) : m < 2 ^ 96 := Nat.lt_of_le_sub_one (by decide) h

/-- A product by a power of ten of `POW10_32` that fits the array is exact. -/
theorem wideValue_increaseScale_of_lt {ws : List Word} {k : ℕ} (hk : k ≤ maxPow32)
    (h : wideValue ws * 10 ^ k < 2 ^ (32 * ws.length)) :
    (increaseScale ws (pow10Word k)).2 = 0 ∧ wideValue (increaseScale ws (pow10Word k)).1 = wideValue ws * 10 ^ k := by
  have hpow := toNat_pow10Word hk
  have hzero := (increaseScale_snd_eq_zero_iff ws (pow10Word k)).2 (by rwa [hpow])
  have hvalue := wideValue_increaseScale ws (pow10Word k)
  rw [hzero, hpow] at hvalue
  exact ⟨hzero, by simpa using hvalue⟩

/-! ### The scale normalisation (R129) -/

/-- A trial by `10^k` succeeds exactly when `k` more of the `z` removable zeros are left. -/
theorem trialDivide_eq {q sc z n : ℕ} (k : ℕ) (h : RemovesZeros q sc z) (hn : n ≤ z) :
    trialDivide k (q / 10 ^ n, sc - n) =
      (q / 10 ^ (if n + k ≤ z then n + k else n), sc - if n + k ≤ z then n + k else n) := by
  obtain ⟨hle, hdvd, hmax⟩ := h
  have hiff : 10 ^ k ∣ q / 10 ^ n ↔ 10 ^ (n + k) ∣ q := by
    rw [Nat.dvd_div_iff_mul_dvd ((pow_dvd_pow 10 hn).trans hdvd), pow_add]
  have htwo : 10 ^ k ∣ q / 10 ^ n → q / 10 ^ n % 2 ^ k = 0 := fun hten =>
    Nat.mod_eq_zero_of_dvd ((pow_dvd_pow_of_dvd (by decide : 2 ∣ 10) k).trans hten)
  unfold trialDivide
  split_ifs with htry hmore hmore
  · rw [Nat.div_div_eq_div_mul, ← pow_add, Nat.sub_sub]
  · obtain ⟨-, hscale, hten⟩ := htry
    have hdvd' := hiff.1 (Nat.dvd_of_mod_eq_zero hten)
    rcases hmax with hlimit | hnot
    · omega
    · exact absurd ((pow_dvd_pow 10 (by omega)).trans hdvd') hnot
  · have hten := hiff.2 ((pow_dvd_pow 10 hmore).trans hdvd)
    exact absurd ⟨htwo hten, by omega, Nat.mod_eq_zero_of_dvd hten⟩ htry
  · rfl

/-- The digits a list of trials removes when `z` can be removed and `n` are removed already. -/
def digitsRemoved (z n : ℕ) (ks : List ℕ) : ℕ := ks.foldl (fun n k => if n + k ≤ z then n + k else n) n

theorem digitsRemoved_cons (z n k : ℕ) (ks : List ℕ) :
    digitsRemoved z n (k :: ks) = digitsRemoved z (if n + k ≤ z then n + k else n) ks := rfl

theorem foldl_trialDivide {q sc z n : ℕ} (ks : List ℕ) (h : RemovesZeros q sc z) (hn : n ≤ z) :
    ks.foldl (fun c k => trialDivide k c) (q / 10 ^ n, sc - n) =
      (q / 10 ^ digitsRemoved z n ks, sc - digitsRemoved z n ks) := by
  induction ks generalizing n with
  | nil => rfl
  | cons k ks ih =>
    rw [List.foldl_cons, trialDivide_eq k h hn, ih (by split_ifs <;> omega), digitsRemoved_cons]

/-- Three trials by `10^8`, then `10^4`, `10^2` and `10`, reach every number of zeros up to 28. -/
theorem normalise_eq {q sc z : ℕ} (h : RemovesZeros q sc z) (hsc : sc ≤ scaleMax) :
    normalise q sc = (q / 10 ^ z, sc - z) := by
  have hall : ∀ z ≤ scaleMax, digitsRemoved z 0 [8, 8, 8, 4, 2, 1] = z := by decide
  have hfold := foldl_trialDivide [8, 8, 8, 4, 2, 1] h z.zero_le
  rwa [hall z (h.1.trans hsc), pow_zero, Nat.div_one, Nat.sub_zero] at hfold

/-! ### The guessed quotient word (R96, R97) -/

/-- With the right guess nothing is corrected. -/
theorem correctDown_quotient (num den tries : ℕ) :
    correctDown den tries (num / den) (num - (num / den : ℕ) * den : ℤ) = some (num / den, num % den) := by
  have hrem : (num : ℤ) - (num / den : ℕ) * den = (num % den : ℕ) := by
    rw [sub_eq_iff_eq_add']
    exact_mod_cast (Nat.div_add_mod' num den).symm
  unfold correctDown
  rw [hrem, if_pos (Int.natCast_nonneg _), Int.toNat_natCast]

/-- The correction loop finds the quotient when the guess is too large by at most the number of tries. -/
theorem correctDown_eq {num den : ℕ} (hden : 0 < den) (tries : ℕ) {q : ℕ} (hlow : num / den ≤ q)
    (hhigh : q ≤ num / den + tries) :
    correctDown den tries q (num - q * den : ℤ) = some (num / den, num % den) := by
  induction tries generalizing q with
  | zero =>
    obtain rfl : q = num / den := le_antisymm hhigh hlow
    exact correctDown_quotient num den 0
  | succ tries ih =>
    rcases hlow.eq_or_lt with rfl | hlt
    · exact correctDown_quotient num den (tries + 1)
    · have hneg : ¬(0 : ℤ) ≤ num - q * den := by
        have hmul : num < q * den := (Nat.div_lt_iff_lt_mul hden).1 hlt
        rw [not_le, sub_neg]
        exact_mod_cast hmul
      obtain ⟨p, rfl⟩ := Nat.exists_eq_add_one_of_ne_zero (Nat.ne_zero_of_lt hlt)
      have hback : (num : ℤ) - (p + 1 : ℕ) * den + den = num - p * den := by push_cast; ring
      rw [correctDown, if_neg hneg]
      simp only [Nat.add_sub_cancel, hback]
      exact ih (Nat.lt_succ_iff.1 hlt) (Nat.le_of_succ_le_succ hhigh)

/-- The estimate is the quotient of the leading parts, `2^32` when that does not fit a word. -/
theorem estimateWord_eq {n d : ℕ} (hn : n < 2 ^ 64) (hd : 0 < d) (hd32 : d < 2 ^ 32) :
    estimateWord (BitVec.ofNat 64 n) (BitVec.ofNat 32 d) = min (n / d) (2 ^ 32) := by
  have hnNat : (BitVec.ofNat 64 n).toNat = n := Nat.mod_eq_of_lt hn
  have hdNat : (BitVec.ofNat 32 d).toNat = d := Nat.mod_eq_of_lt hd32
  have hne : BitVec.ofNat 32 d ≠ 0 := fun h => hd.ne' (by rw [← hdNat, h]; rfl)
  have hiff := hi32_lt_iff (BitVec.ofNat 64 n) hne
  rw [hnNat, hdNat] at hiff
  unfold estimateWord
  by_cases hfits : n / d < 2 ^ 32
  · obtain ⟨q, r, hdivmod, hq, -⟩ := divmod64by32_exact hne (hiff.2 hfits)
    rw [hnNat, hdNat] at hq
    rw [hdivmod, min_eq_left hfits.le]
    exact hq
  · rw [divmod64by32, if_neg (mt hiff.1 hfits), min_eq_right (not_lt.1 hfits)]

/-- The estimate from the leading parts of a normalised divisor is never too small and at most two too large. `P` is the
weight of the divisor's top word. -/
theorem estimate_bounds {num den P : ℕ} (hP : 0 < P) (hnorm : 2 ^ 31 ≤ den / P) (hpre : num / 2 ^ 32 < den) :
    num / den ≤ min (num / P / (den / P)) (2 ^ 32) ∧ min (num / P / (den / P)) (2 ^ 32) ≤ num / den + 2 := by
  obtain ⟨d, hd⟩ : ∃ d, den / P = d := ⟨_, rfl⟩
  rw [hd] at hnorm ⊢
  have hden : 0 < den := by omega
  have hdP : d * P ≤ den := hd ▸ Nat.div_mul_le_self den P
  have hdP' : den < (d + 1) * P := by
    rw [Nat.mul_comm, ← hd]
    exact Nat.lt_mul_div_succ den hP
  have hpos : 0 < d := by omega
  have hnum : num < den * 2 ^ 32 := (Nat.div_lt_iff_lt_mul (by decide)).1 hpre
  rw [Nat.div_div_eq_div_mul, Nat.mul_comm P]
  constructor
  · refine le_min (Nat.div_le_div_left hdP (Nat.mul_pos hpos hP)) (Nat.div_le_of_le_mul hnum.le)
  · obtain ⟨q, hq⟩ : ∃ q, num / den = q := ⟨_, rfl⟩
    rw [hq]
    by_contra hlt
    obtain ⟨hquot, hword⟩ := le_min_iff.1 (Nat.succ_le_of_lt (not_le.1 hlt))
    have hlow : (q + 3) * (d * P) ≤ num := (Nat.le_div_iff_mul_le (Nat.mul_pos hpos hP)).1 hquot
    have hhigh : num < (q + 1) * den := by
      rw [Nat.mul_comm, ← hq]
      exact Nat.lt_mul_div_succ num hden
    have hchain : (q + 3) * d * P < (q + 1) * (d + 1) * P := by
      calc (q + 3) * d * P = (q + 3) * (d * P) := Nat.mul_assoc _ _ _
        _ ≤ num := hlow
        _ < (q + 1) * den := hhigh
        _ ≤ (q + 1) * ((d + 1) * P) := Nat.mul_le_mul_left _ hdP'.le
        _ = (q + 1) * (d + 1) * P := (Nat.mul_assoc _ _ _).symm
    have hcancel : (q + 3) * d < (q + 1) * (d + 1) := Nat.lt_of_mul_lt_mul_right hchain
    have hexpand : (q + 3) * d = (q + 1) * d + 2 * d := by ring
    rw [hexpand, Nat.mul_add_one] at hcancel
    omega

theorem div96by64_eq {num den : ℕ} (hlow : 2 ^ 32 ≤ den) (hhigh : den < 2 ^ 64) (hpre : num / 2 ^ 32 < den) :
    div96by64 num den = some (num / den, num % den) := by
  rw [div96by64, if_pos ⟨hlow, hhigh, hpre⟩]
  split_ifs with hnorm
  · have htop : 2 ^ 31 ≤ den / 2 ^ 32 := by omega
    obtain ⟨hle, hge⟩ := estimate_bounds (P := 2 ^ 32) (by decide) htop hpre
    simp only
    rw [estimateWord_eq (by omega) (by omega) (by omega)]
    exact correctDown_eq (by omega) 2 hle hge
  · rfl

theorem div128by96_eq {num den : ℕ} (hlow : 2 ^ 64 ≤ den) (hhigh : den < 2 ^ 96) (hpre : num / 2 ^ 32 < den) :
    div128by96 num den = some (num / den, num % den) := by
  rw [div128by96, if_pos ⟨hlow, hhigh, hpre⟩]
  split_ifs with hnorm
  · have htop : 2 ^ 31 ≤ den / 2 ^ 64 := by omega
    obtain ⟨hle, hge⟩ := estimate_bounds (P := 2 ^ 64) (by decide) htop hpre
    simp only
    rw [estimateWord_eq (by omega) (by omega) (by omega)]
    exact correctDown_eq (by omega) 2 hle hge
  · rfl

/-! ### The divider's composite division (R128) -/

/-- Shifting divisor and dividend left leaves the quotient and shifts the remainder. -/
theorem shifted_div_mod (n b sh : ℕ) :
    (n <<< sh) / (b <<< sh) = n / b ∧ ((n <<< sh) % (b <<< sh)) >>> sh = n % b := by
  have hpos : 0 < 2 ^ sh := by positivity
  simp only [Nat.shiftLeft_eq, Nat.shiftRight_eq_div_pow]
  rw [Nat.mul_div_mul_right _ _ hpos, Nat.mul_mod_mul_right, Nat.mul_div_cancel _ hpos]
  exact ⟨rfl, rfl⟩

/-- The shift that sets the top bit of a divisor. -/
theorem normalised_bounds {b top : ℕ} (hb : b ≠ 0) (hlt : b < 2 ^ (top + 1)) :
    2 ^ top ≤ b <<< (top - b.log2) ∧ b <<< (top - b.log2) < 2 ^ (top + 1) := by
  have hlog : b.log2 < top + 1 := (Nat.log2_lt hb).2 hlt
  have hself := Nat.log2_self_le hb
  have hupper := Nat.lt_log2_self (n := b)
  have htop : 2 ^ top = 2 ^ b.log2 * 2 ^ (top - b.log2) := by rw [← pow_add, Nat.add_sub_cancel' (by omega)]
  have htop' : 2 ^ (top + 1) = 2 ^ (b.log2 + 1) * 2 ^ (top - b.log2) := by
    rw [← pow_add]
    congr 1
    omega
  rw [Nat.shiftLeft_eq, htop', htop]
  exact ⟨Nat.mul_le_mul_right _ hself, Nat.mul_lt_mul_of_pos_right hupper (by positivity)⟩

/-- A normalised divisor of 64 bits divides in two steps. -/
theorem div96by64_twice {num den : ℕ} (hlow : 2 ^ 63 ≤ den) (hhigh : den < 2 ^ 64) (hbound : num < den * 2 ^ 64) :
    div96by64 (num / 2 ^ 32) den = some (num / 2 ^ 32 / den, num / 2 ^ 32 % den) ∧
      ∃ q, div96by64 (num / 2 ^ 32 % den * 2 ^ 32 + num % 2 ^ 32) den = some (q, num % den) ∧
        num / 2 ^ 32 / den * 2 ^ 32 + q = num / den := by
  have hle : 2 ^ 32 ≤ den := le_trans (by decide) hlow
  have hpos : 0 < den := lt_of_lt_of_le (by decide) hlow
  obtain ⟨hquot, hrem⟩ := longDivision_step (num % 2 ^ 32) (2 ^ 32) (num / 2 ^ 32) hpos
  rw [Nat.mod_add_div] at hquot hrem
  have hfirst : num / 2 ^ 32 / 2 ^ 32 < den := by
    rw [Nat.div_div_eq_div_mul]
    exact Nat.div_lt_of_lt_mul (by rwa [Nat.mul_comm])
  have hsecond : (num / 2 ^ 32 % den * 2 ^ 32 + num % 2 ^ 32) / 2 ^ 32 < den := by
    rw [Nat.mul_comm, Nat.mul_add_div (by decide), Nat.div_eq_of_lt (Nat.mod_lt _ (by decide)), Nat.add_zero]
    exact Nat.mod_lt _ hpos
  refine ⟨div96by64_eq hle hhigh hfirst, _, (div96by64_eq hle hhigh hsecond).trans (by rw [← hrem]), ?_⟩
  rw [hquot, Nat.mul_comm, Nat.add_comm]

theorem shiftLeft_lt_mul {n b sh m : ℕ} (h : n < b * m) : n <<< sh < b <<< sh * m := by
  rw [Nat.shiftLeft_eq, Nat.shiftLeft_eq, Nat.mul_right_comm]
  exact Nat.mul_lt_mul_of_pos_right h (by positivity)

theorem divWide_eq {n b : ℕ} (hb : 0 < b) (hb96 : b < 2 ^ 96) (hn : n < 2 ^ 96 ∨ n < b * 10 ^ 9) :
    divWide n b = some (n / b, n % b) := by
  rw [divWide]
  by_cases hone : b < 2 ^ 32
  · rw [if_pos hone]
    have hn96 : n < 2 ^ 96 := by omega
    have hd : (BitVec.ofNat 32 b).toNat = b := Nat.mod_eq_of_lt hone
    have hne : BitVec.ofNat 32 b ≠ 0 := fun h => hb.ne' (by rw [← hd, h]; rfl)
    obtain ⟨qs, r, hdiv, -, hq, hr⟩ := div96by32_exact (wideOf 3 n) hne
    rw [hd, wideValue_wideOf_of_lt hn96] at hq hr
    rw [hdiv, Option.map_some, hq, hr]
  rw [if_neg hone]
  by_cases htwo : b < 2 ^ 64
  · rw [if_pos htwo]
    obtain ⟨hlow, hhigh⟩ := normalised_bounds (top := 63) hb.ne' htwo
    obtain ⟨hquot, hrem⟩ := shifted_div_mod n b (63 - b.log2)
    have hn64 : n < b * 2 ^ 64 := by omega
    obtain ⟨hfirst, q, hsecond, hsum⟩ := div96by64_twice hlow hhigh (shiftLeft_lt_mul hn64)
    simp only [hfirst, hsecond, Option.map_some, hsum, hquot, hrem]
  · rw [if_neg htwo]
    obtain ⟨hlow, hhigh⟩ := normalised_bounds (top := 95) hb.ne' hb96
    obtain ⟨hquot, hrem⟩ := shifted_div_mod n b (95 - b.log2)
    have hn32 : n < b * 2 ^ 32 := by omega
    have hbound : n <<< (95 - b.log2) / 2 ^ 32 < b <<< (95 - b.log2) :=
      Nat.div_lt_of_lt_mul ((shiftLeft_lt_mul hn32).trans_eq (Nat.mul_comm _ _))
    simp only
    rw [div128by96_eq (le_trans (by decide) hlow) hhigh hbound, Option.map_some, hquot, hrem]

/-! ### The multiplier (R126) -/

theorem productWords_eq {A B : ℕ} (hA : A ≤ max96) (hB : B ≤ max96) : productWords A B = A * B := by
  unfold productWords
  split_ifs with hone htwo
  · rw [toNat_mul32, BitVec.toNat_ofNat, BitVec.toNat_ofNat, Nat.mod_eq_of_lt hone.1, Nat.mod_eq_of_lt hone.2]
  · have h := mul64x64to128_exact (BitVec.ofNat 64 A) (BitVec.ofNat 64 B)
    rwa [BitVec.toNat_ofNat, BitVec.toNat_ofNat, Nat.mod_eq_of_lt htwo.1, Nat.mod_eq_of_lt htwo.2] at h
  · obtain ⟨-, h⟩ := length_wideValue_mulWide (wideOf 3 A) (wideOf 3 B)
    rwa [wideValue_wideOf_of_lt (lt_of_le_max96 hA), wideValue_wideOf_of_lt (lt_of_le_max96 hB)] at h

/-- The search ends at scale 28 when the number fits there. -/
theorem compact_of_fits_scaleMax {N scale : ℕ} (hscale : scaleMax ≤ scale)
    (hfits : rhe N (10 ^ (scale - scaleMax)) ≤ max96) :
    compact N scale = some (rhe N (10 ^ (scale - scaleMax)), scaleMax) := by
  rw [compact_eq_compactBelow, min_eq_right hscale, compactBelow_of_fits hfits]

theorem varDecMul_eq {a b : Dec} (ha : a.InRange) (hb : b.InRange) : varDecMul a b = multiply a b := by
  obtain ⟨hma, hsa⟩ := ha
  obtain ⟨hmb, hsb⟩ := hb
  have hmax : scaleMax = 28 := rfl
  have hbig : a.mant * b.mant < 2 ^ 96 * 2 ^ 96 := Nat.mul_lt_mul'' (lt_of_le_max96 hma) (lt_of_le_max96 hmb)
  simp only [varDecMul, multiply, productWords_eq hma hmb]
  congr 1
  split_ifs with hshort hlong
  · rw [compact_of_le hshort.2.1 hshort.2.2]
  · obtain ⟨-, hP, hscale⟩ := hlong
    have hword : 2 ^ 64 ≤ max96 := by decide
    rw [compact_of_fits_scaleMax hscale.le
      ((rhe_le_self _ (by positivity)).trans (hP.le.trans hword))]
  · exact scaleResult_eq_compact (by omega) (by omega)

/-! ### The obligations -/

/-- Settles O51: every path forms the exact product, and compacts it. -/
theorem varDecMulEqualsClosedForm : Obligations.VarDecMulEqualsClosedForm := fun _ _ => varDecMul_eq

/-- Settles O53, from the digits that the six trials remove. -/
theorem normaliseRemovesTrailingZeros : Obligations.NormaliseRemovesTrailingZeros := fun q sc _ hsc =>
  ⟨_, removesZeros_removable q sc, normalise_eq (removesZeros_removable q sc) hsc⟩

/-- Settles O56: the guess of a normalised divisor is at most two too large, and the divider shifts to normalise. -/
theorem wideDivisionExact : Obligations.WideDivisionExact :=
  ⟨fun _ _ => div96by64_eq, fun _ _ => div128by96_eq, fun _ _ => divWide_eq⟩

end Sys2Proof.Proofs

/-! PROOFS. `decAddSub` (spec/41_arith.md R123, R124). Both paths form sign and magnitude of the exact sum at the larger
scale: three words at equal scales, with the carry out as a 97th bit, and six words otherwise, which hold any two scaled
mantissas. The first path drops at most one digit; the second compacts. -/

namespace Sys2Proof.Proofs

open Sys2Proof.Machine Sys2Proof.Config Sys2Proof.Laws

/-! ### Sign and magnitude of a sum (R124) -/

/-- Magnitude and sign of the sum of `wa`, of sign `neg`, and `wb`, whose sign differs or not. -/
def sumMagnitude (differ neg : Bool) (wa wb : ℕ) : ℕ × Bool :=
  if differ then if wb < wa then (wa - wb, neg) else if wa < wb then (wb - wa, !neg) else (0, false)
  else (wa + wb, neg)

theorem addSub_eq {a b : Dec} {sub : Bool} {s : ℕ} (hs : max a.scale b.scale = s) :
    addSub a b sub = (compact (sumMagnitude (sub ^^ b.neg ^^ a.neg) a.neg (a.widen s) (b.widen s)).1 s).map fun r =>
      ⟨r.1, r.2, (sumMagnitude (sub ^^ b.neg ^^ a.neg) a.neg (a.widen s) (b.widen s)).2⟩ := by
  subst hs
  rw [Bool.xor_right_comm]
  rfl

theorem sumMagnitude_le (differ neg : Bool) (wa wb : ℕ) : (sumMagnitude differ neg wa wb).1 ≤ wa + wb := by
  unfold sumMagnitude
  split_ifs <;> simp only <;> omega

theorem sumMagnitude_differ_le {differ : Bool} (neg : Bool) {wa wb m : ℕ} (hdiffer : differ = true) (ha : wa ≤ m)
    (hb : wb ≤ m) : (sumMagnitude differ neg wa wb).1 ≤ m := by
  unfold sumMagnitude
  split_ifs <;> simp only <;> omega

/-! ### The difference of two arrays (R107, R123) -/

theorem length_subWords {as bs : List Word} (h : as.length = bs.length) (c : Bool) :
    (subWords as bs c).1.length = as.length := by
  induction as generalizing bs c with
  | nil => rfl
  | cons a as ih =>
    cases bs with
    | nil => cases h
    | cons b bs => rw [subWords_cons, List.length_cons, List.length_cons, ih (Nat.succ.inj h)]

/-- A borrow out says that the difference is negative, and the negation then recovers its magnitude. -/
theorem subMagnitude_eq {as bs : List Word} (h : as.length = bs.length) (neg : Bool) :
    subMagnitude as bs neg = sumMagnitude true neg (wideValue as) (wideValue bs) := by
  have hsub := wideValue_subWords h false
  have hlt := wideValue_lt (subWords as bs false).1
  have hb := wideValue_lt bs
  rw [length_subWords h] at hlt
  rw [← h] at hb
  rw [Bool.toNat_false, Nat.add_zero] at hsub
  simp only [subMagnitude, sumMagnitude, if_true]
  cases hborrow : (subWords as bs false).2 with
  | false =>
    rw [hborrow, Bool.toNat_false, Nat.mul_zero, Nat.add_zero] at hsub
    have hdiff : wideValue (subWords as bs false).1 = wideValue as - wideValue bs := by omega
    rw [if_neg Bool.false_ne_true, if_neg Bool.false_ne_true, hdiff]
    by_cases hzero : wideValue as - wideValue bs = 0
    · rw [if_pos hzero, if_neg (by omega), if_neg (by omega)]
    · rw [if_neg hzero, if_pos (by omega)]
  | true =>
    rw [hborrow, Bool.toNat_true, Nat.mul_one] at hsub
    have hneg := wideValue_negWords (ws := (subWords as bs false).1) (by omega)
    rw [length_subWords h] at hneg
    have hdiff : wideValue (negWords (subWords as bs false).1) = wideValue bs - wideValue as := by omega
    rw [if_pos rfl, if_pos rfl, hdiff, if_neg (by omega), if_neg (by omega), if_pos (by omega)]

/-! ### Dropping one digit (R103) -/

/-- Rounding off one more digit, from the quotient so far and whether anything is left below it. -/
theorem rhe_mul_ten (N : ℕ) {D : ℕ} (hD : 0 < D) :
    rhe N (10 * D) = if 5 < N / D % 10 ∨ (N / D % 10 = 5 ∧ (N % D ≠ 0 ∨ N / D / 10 % 2 = 1)) then N / D / 10 + 1
      else N / D / 10 := by
  have hquot : N / (10 * D) = N / D / 10 := by rw [Nat.mul_comm, Nat.div_div_eq_div_mul]
  have hrem : N % (10 * D) = N % D + D * (N / D % 10) := by rw [Nat.mul_comm, Nat.mod_mul]
  obtain ⟨habove, htie⟩ := half_of_leading (r := N / D % 10) (h := 5) (Nat.mod_lt N hD)
  rw [rhe, hquot, hrem, Nat.mul_comm 10 D]
  refine if_congr ?_ rfl rfl
  rw [habove, htie]
  omega

theorem overflowUnscale_eq (N : ℕ) {D : ℕ} (hD : 0 < D) {scale : ℤ} {sticky : Bool}
    (hsticky : sticky = true ↔ N % D ≠ 0) :
    overflowUnscale (N / D) scale sticky = if scale ≤ 0 then none else some (rhe N (10 * D), scale - 1) := by
  rw [overflowUnscale, rhe_mul_ten N hD]
  simp only [hsticky]

/-- A number of at most one digit more than fits loses one digit. -/
theorem compact_of_lt_ten {N scale : ℕ} (hbig : max96 < N) (hfits : rhe N 10 ≤ max96) (hscale : scale ≤ scaleMax) :
    compact N scale = if scale = 0 then none else some (rhe N 10, scale - 1) := by
  rw [compact_eq_compactBelow, min_eq_left hscale]
  split_ifs with hzero
  · subst hzero
    exact compactBelow_zero (by rwa [pow_zero, rhe_one])
  · obtain ⟨t, rfl⟩ := Nat.exists_eq_add_one_of_ne_zero hzero
    have hone : t + 1 - t = 1 := Nat.add_sub_cancel_left t 1
    have hsucc := compactBelow_succ (N := N) (scale := t) (k := 0) (by rwa [pow_zero, rhe_one])
    rw [Nat.add_zero] at hsucc
    rw [hsucc, compactBelow_of_fits (by rwa [hone, pow_one]), hone, pow_one, Nat.add_sub_cancel]

theorem rhe_ten_le_of_le {N : ℕ} (h : N ≤ 2 * max96) : rhe N 10 ≤ max96 := by
  have hle := rhe_le_div_add_one N 10
  simp only [max96] at h ⊢
  omega

/-! ### Scaling up (R123) -/

theorem length_wideValue_scaleUpWords (fuel : ℕ) {ws : List Word} {k : ℕ} (hfuel : k ≤ fuel)
    (hfit : wideValue ws * 10 ^ k < 2 ^ (32 * ws.length)) :
    (scaleUpWords fuel ws k).length = ws.length ∧ wideValue (scaleUpWords fuel ws k) = wideValue ws * 10 ^ k := by
  have hnine : maxPow32 = 9 := rfl
  induction fuel generalizing ws k with
  | zero =>
    obtain rfl : k = 0 := by omega
    simp [scaleUpWords]
  | succ fuel ih =>
    rw [scaleUpWords]
    split_ifs with hzero
    · simp [hzero]
    · have hsplit : 10 ^ k = 10 ^ min k maxPow32 * 10 ^ (k - min k maxPow32) := by
        rw [← pow_add]
        congr 1
        omega
      have hstep : wideValue ws * 10 ^ min k maxPow32 < 2 ^ (32 * ws.length) :=
        lt_of_le_of_lt (Nat.mul_le_mul_left _ (Nat.pow_le_pow_right (by decide) (min_le_left _ _))) hfit
      obtain ⟨-, hvalue⟩ := wideValue_increaseScale_of_lt (min_le_right k maxPow32) hstep
      have hrest := ih (ws := (increaseScale ws (pow10Word (min k maxPow32))).1) (k := k - min k maxPow32) (by omega)
        (by rwa [hvalue, length_increaseScale, Nat.mul_assoc, ← hsplit])
      rw [hvalue, length_increaseScale, Nat.mul_assoc, ← hsplit] at hrest
      exact hrest

/-- Six words hold a mantissa scaled up by at most 28 digits, and the sum of two such. -/
theorem widen_lt {d : Dec} (hd : d.InRange) {s : ℕ} (hs : s ≤ scaleMax) : d.widen s < 2 ^ 191 := by
  have hpow : 10 ^ (s - d.scale) ≤ 10 ^ scaleMax := Nat.pow_le_pow_right (by decide) (by omega)
  calc d.mant * 10 ^ (s - d.scale) ≤ max96 * 10 ^ scaleMax := Nat.mul_le_mul hd.1 hpow
    _ < 2 ^ 191 := by decide

theorem scaleUpWords_wideOf {d : Dec} (hd : d.InRange) {s : ℕ} (hs : s ≤ scaleMax) :
    (scaleUpWords (s - d.scale) (wideOf wideWords d.mant) (s - d.scale)).length = wideWords ∧
      wideValue (scaleUpWords (s - d.scale) (wideOf wideWords d.mant) (s - d.scale)) = d.widen s := by
  have hwords : 2 ^ 191 < 2 ^ (32 * wideWords) := by decide
  have hvalue : wideValue (wideOf wideWords d.mant) = d.mant :=
    wideValue_wideOf_of_lt ((lt_of_le_max96 hd.1).trans (by decide))
  have h := length_wideValue_scaleUpWords (s - d.scale) (ws := wideOf wideWords d.mant) le_rfl <| by
    rw [hvalue, length_wideOf]
    exact (widen_lt hd hs).trans hwords
  rwa [hvalue, length_wideOf] at h

/-! ### The two paths -/

theorem decAddSub_of_scale_eq {a b : Dec} {sub : Bool} (ha : a.InRange) (hb : b.InRange) (h : a.scale = b.scale) :
    decAddSub a b sub = addSub a b sub := by
  obtain ⟨hma, hsa⟩ := ha
  obtain ⟨hmb, -⟩ := hb
  have hlen : (wideOf 3 a.mant).length = (wideOf 3 b.mant).length := by rw [length_wideOf, length_wideOf]
  have hva : wideValue (wideOf 3 a.mant) = a.mant := wideValue_wideOf_of_lt (lt_of_le_max96 hma)
  have hvb : wideValue (wideOf 3 b.mant) = b.mant := wideValue_wideOf_of_lt (lt_of_le_max96 hmb)
  have hwa : a.widen a.scale = a.mant := by simp [Dec.widen]
  have hwb : b.widen a.scale = b.mant := by simp [Dec.widen, h]
  rw [addSub_eq (max_eq_left h.ge), hwa, hwb]
  simp only [decAddSub, if_pos h]
  cases hdiffer : (sub ^^ b.neg ^^ a.neg) with
  | true =>
    rw [compact_of_le (sumMagnitude_differ_le a.neg rfl hma hmb) hsa, if_pos rfl, subMagnitude_eq hlen, hva, hvb]
    rfl
  | false =>
    have hsum := wideValue_addWords hlen false
    rw [hva, hvb, length_wideOf, Bool.toNat_false, Nat.add_zero] at hsum
    have hmagnitude : sumMagnitude false a.neg a.mant b.mant = (a.mant + b.mant, a.neg) := rfl
    rw [hmagnitude, if_neg Bool.false_ne_true]
    have hlt := wideValue_lt (addWords (wideOf 3 a.mant) (wideOf 3 b.mant) false).1
    rw [length_addWords hlen, length_wideOf] at hlt
    have hle : wideValue (addWords (wideOf 3 a.mant) (wideOf 3 b.mant) false).1 ≤ max96 := Nat.le_of_lt_succ hlt
    cases hcarry : (addWords (wideOf 3 a.mant) (wideOf 3 b.mant) false).2 with
    | false =>
      rw [hcarry, Bool.toNat_false, Nat.mul_zero, Nat.add_zero] at hsum
      rw [if_neg Bool.false_ne_true, hsum, compact_of_le (hsum ▸ hle) hsa]
      rfl
    | true =>
      rw [hcarry, Bool.toNat_true, Nat.mul_one, Nat.add_comm] at hsum
      have hover := overflowUnscale_eq (a.mant + b.mant) (D := 1) Nat.one_pos (scale := a.scale) (sticky := false)
        (by simp [Nat.mod_one])
      rw [Nat.div_one, Nat.mul_one] at hover
      have hbig : max96 < a.mant + b.mant := (Nat.le_add_right (max96 + 1) _).trans_eq hsum
      have htwice : a.mant + b.mant ≤ 2 * max96 := (Nat.add_le_add hma hmb).trans_eq (Nat.two_mul _).symm
      rw [if_pos rfl, hsum, hover, compact_of_lt_ten hbig (rhe_ten_le_of_le htwice) hsa]
      by_cases hzero : a.scale = 0
      · simp [hzero]
      · simp [hzero]

theorem decAddSub_of_scale_ne {a b : Dec} {sub : Bool} (ha : a.InRange) (hb : b.InRange) (h : a.scale ≠ b.scale) :
    decAddSub a b sub = addSub a b sub := by
  obtain ⟨s, hs⟩ : ∃ s, max a.scale b.scale = s := ⟨_, rfl⟩
  have hsle : s ≤ scaleMax := hs ▸ max_le ha.2 hb.2
  obtain ⟨hla, hva⟩ := scaleUpWords_wideOf ha hsle
  obtain ⟨hlb, hvb⟩ := scaleUpWords_wideOf hb hsle
  have hwa := widen_lt ha hsle
  have hwb := widen_lt hb hsle
  have hlen := hla.trans hlb.symm
  have hmagnitude : (if (sub ^^ b.neg ^^ a.neg) then
      subMagnitude (scaleUpWords (s - a.scale) (wideOf wideWords a.mant) (s - a.scale))
        (scaleUpWords (s - b.scale) (wideOf wideWords b.mant) (s - b.scale)) a.neg
      else (wideValue (addWords (scaleUpWords (s - a.scale) (wideOf wideWords a.mant) (s - a.scale))
        (scaleUpWords (s - b.scale) (wideOf wideWords b.mant) (s - b.scale)) false).1, a.neg)) =
      sumMagnitude (sub ^^ b.neg ^^ a.neg) a.neg (a.widen s) (b.widen s) := by
    have hwords : 2 * 2 ^ 191 ≤ 2 ^ (32 * wideWords) := by decide
    split_ifs with hdiffer
    · rw [subMagnitude_eq hlen, hva, hvb, hdiffer]
    · rw [wideValue_addWords_of_lt hlen (by rw [hva, hvb, hla, Bool.toNat_false]; omega), hva, hvb,
        Bool.eq_false_of_not_eq_true hdiffer]
      rfl
  have hlt := sumMagnitude_le (sub ^^ b.neg ^^ a.neg) a.neg (a.widen s) (b.widen s)
  simp only [decAddSub, if_neg h]
  rw [hs, hmagnitude, addSub_eq hs]
  split_ifs with hbig
  · rw [scaleResult_eq_compact (by omega) (hsle.trans (by decide))]
  · rw [compact_of_le (not_lt.1 hbig) hsle]
    rfl

/-! ### The obligation -/

/-- Settles O50, path by path. -/
theorem decAddSubEqualsClosedForm : Obligations.DecAddSubEqualsClosedForm := by
  intro a b sub ha hb
  by_cases h : a.scale = b.scale
  · exact decAddSub_of_scale_eq ha hb h
  · exact decAddSub_of_scale_ne ha hb h

end Sys2Proof.Proofs

/-! PROOFS. The digit loop of the divider (spec/41_arith.md R127, R128; spec/40_primitives.md R102, R103). Every state of the
loop is a long division: after `e` digits the quotient is `A * 10^e / B` at scale `sa - sb + e`. The loop ends at the
largest scale that fits, or, when the division comes out even, at a scale from which the closed form differs by trailing
zeros only; the normalisation removes those. -/

namespace Sys2Proof.Proofs

open Sys2Proof.Machine Sys2Proof.Config Sys2Proof.Laws

/-! ### The quotient at a scale (R127) -/

/-- Dividend and divisor may be multiplied by one factor. -/
theorem rhe_mul_right (n d : ℕ) {c : ℕ} (hc : 0 < c) : rhe (n * c) (d * c) = rhe n d := by
  have habove : d * c < 2 * (n % d * c) ↔ d < 2 * (n % d) := by
    rw [← Nat.mul_assoc, Nat.mul_lt_mul_right hc]
  have htie : 2 * (n % d * c) = d * c ↔ 2 * (n % d) = d := by
    rw [← Nat.mul_assoc, Nat.mul_right_cancel_iff hc]
  simp only [rhe, Nat.mul_div_mul_right _ _ hc, Nat.mul_mod_mul_right, habove, htie]

/-- An even division needs no rounding. -/
theorem rhe_mul_self (m : ℕ) {d : ℕ} (hd : 0 < d) : rhe (m * d) d = m := by
  rw [← Nat.one_mul d, ← Nat.mul_assoc, rhe_mul_right _ _ hd, Nat.mul_one, rhe_one]

/-- The quotient at a scale `i` below that of `e` digits. -/
theorem quotientAt_eq {a b : Dec} {t i e : ℕ} (h : t + b.scale + i = a.scale + e) :
    quotientAt a b t = rhe (a.mant * 10 ^ e) (b.mant * 10 ^ i) := by
  have hnum : a.mant * 10 ^ (t + b.scale) * 10 ^ i = a.mant * 10 ^ e * 10 ^ a.scale := by
    rw [Nat.mul_assoc, ← pow_add, h, pow_add, Nat.mul_assoc, Nat.mul_comm (10 ^ e)]
  rw [quotientAt, ← rhe_mul_right _ _ (show 0 < 10 ^ i by positivity), hnum, Nat.mul_right_comm b.mant,
    rhe_mul_right _ _ (by positivity)]

/-! ### The states of the loop (R128) -/

/-- After `e` digits: quotient `q` and remainder `r` of `A * 10^e` by `B`, at scale `sa - sb + e`. -/
structure DivState (a b : Dec) (e q r : ℕ) (scale : ℤ) : Prop where
  division : q * b.mant + r = a.mant * 10 ^ e
  rem_lt : r < b.mant
  scale_eq : scale = a.scale - b.scale + e

section
variable {a b : Dec} {e q r : ℕ} {scale : ℤ}

theorem DivState.quot (h : DivState a b e q r scale) : a.mant * 10 ^ e / b.mant = q := by
  rw [← h.division, Nat.add_comm, Nat.add_mul_div_right _ _ (Nat.zero_lt_of_lt h.rem_lt),
    Nat.div_eq_of_lt h.rem_lt, Nat.zero_add]

theorem DivState.rem (h : DivState a b e q r scale) : a.mant * 10 ^ e % b.mant = r := by
  rw [← h.division, Nat.add_comm, Nat.add_mul_mod_self_right, Nat.mod_eq_of_lt h.rem_lt]

/-- `k` more digits: those of the remainder are appended to the quotient. -/
theorem DivState.extend (h : DivState a b e q r scale) (k : ℕ) :
    DivState a b (e + k) (q * 10 ^ k + r * 10 ^ k / b.mant) (r * 10 ^ k % b.mant) (scale + k) where
  division := by
    have hdiv := Nat.div_add_mod' (r * 10 ^ k) b.mant
    rw [pow_add, ← Nat.mul_assoc, ← h.division]
    linear_combination hdiv
  rem_lt := Nat.mod_lt _ (Nat.zero_lt_of_lt h.rem_lt)
  scale_eq := by
    rw [h.scale_eq]
    push_cast
    ring

/-- The quotient at the scale of the state. -/
theorem DivState.quotientAt_self (h : DivState a b e q r scale) {t : ℕ} (ht : (t : ℤ) = scale) :
    quotientAt a b t = rhe (a.mant * 10 ^ e) b.mant := by
  have hscale := h.scale_eq
  rw [quotientAt_eq (i := 0) (e := e) (by omega), pow_zero, Nat.mul_one]

/-- The quotient one digit above. -/
theorem DivState.quotientAt_pred (h : DivState a b e q r scale) {t : ℕ} (ht : (t : ℤ) + 1 = scale) :
    quotientAt a b t = rhe (a.mant * 10 ^ e) (10 * b.mant) := by
  have hscale := h.scale_eq
  rw [quotientAt_eq (i := 1) (e := e) (by omega), pow_one, Nat.mul_comm b.mant]

/-- Every digit more makes the quotient at least ten times as large. -/
theorem DivState.le_quotientAt (h : DivState a b e q r scale) {t j : ℕ} (ht : scale + j ≤ t) :
    q * 10 ^ j ≤ quotientAt a b t := by
  have hscale := h.scale_eq
  obtain ⟨i, hi⟩ : ∃ i : ℕ, (t : ℤ) = scale + j + i := ⟨(t - (scale + j)).toNat, by omega⟩
  rw [quotientAt_eq (i := 0) (e := e + (j + i)) (by omega), pow_zero, Nat.mul_one]
  refine le_trans ?_ (div_le_rhe _ _)
  rw [(h.extend (j + i)).quot]
  calc q * 10 ^ j ≤ q * 10 ^ (j + i) := Nat.mul_le_mul_left q (Nat.pow_le_pow_right (by decide) (by omega))
    _ ≤ q * 10 ^ (j + i) + r * 10 ^ (j + i) / b.mant := Nat.le_add_right _ _

/-- An even division stays even. -/
theorem DivState.quotientAt_of_rem_eq_zero (h : DivState a b e q 0 scale) {t j : ℕ} (ht : (t : ℤ) = scale + j) :
    quotientAt a b t = q * 10 ^ j := by
  have hb := Nat.zero_lt_of_lt h.rem_lt
  have hdivision := h.division
  rw [Nat.add_zero] at hdivision
  rw [(h.extend j).quotientAt_self ht, pow_add, ← Nat.mul_assoc, ← hdivision, Nat.mul_right_comm,
    rhe_mul_self _ hb]

end

/-! ### What the loop finds -/

/-- The largest scale at most 28 at which the quotient fits (R127). -/
def IsLargestScale (a b : Dec) (t : ℕ) : Prop :=
  findDown (fun s => quotientAt a b s ≤ max96) scaleMax = some t

theorem isLargestScale_of {a b : Dec} {t : ℕ} (ht : t ≤ scaleMax) (hfits : quotientAt a b t ≤ max96)
    (hnext : ∀ j, t < j → j ≤ scaleMax → max96 < quotientAt a b j) : IsLargestScale a b t :=
  findDown_eq_some.2 ⟨ht, decide_eq_true hfits, fun j hlt hle => decide_eq_false (not_le.2 (hnext j hlt hle))⟩

/-- The outcome of the digit loop: nothing when no scale fits, otherwise the quotient at the largest scale that fits, with
`d` of its trailing zeros left out. -/
inductive DivFound (a b : Dec) : Option (ℕ × ℤ) → Prop
  | overflow (h : ∀ t ≤ scaleMax, max96 < quotientAt a b t) : DivFound a b none
  | found (m t d : ℕ) (hlargest : IsLargestScale a b (t + d)) (hm : quotientAt a b (t + d) = m * 10 ^ d) :
      DivFound a b (some (m, t))

/-- The loop ended at the largest scale that fits. -/
theorem DivFound.of_largest {a b : Dec} {t m : ℕ} {sc : ℤ} (hsc : sc = t) (hlargest : IsLargestScale a b t)
    (hm : quotientAt a b t = m) : DivFound a b (some (m, sc)) := by
  subst hsc
  exact .found m t 0 hlargest (by simpa using hm)

section
variable {a b : Dec} {e q r : ℕ} {scale : ℤ}

/-- The division came out even at a scale that is not negative. -/
theorem DivState.found_of_even (h : DivState a b e q 0 scale) (hq : q ≤ max96) (hlow : 0 ≤ scale)
    (hhigh : scale ≤ scaleMax) : DivFound a b (some (q, scale)) := by
  obtain ⟨t, rfl⟩ := Int.eq_ofNat_of_zero_le hlow
  have hself : quotientAt a b t = q := by simpa using h.quotientAt_of_rem_eq_zero (j := 0) (by simp)
  cases hfind : findDown (fun s => quotientAt a b s ≤ max96) scaleMax with
  | none =>
    have hfails := of_decide_eq_false (findDown_eq_none.1 hfind t (by omega))
    exact absurd (hself.le.trans hq) hfails
  | some u =>
    obtain ⟨-, -, hmax⟩ := findDown_eq_some.1 hfind
    have htu : t ≤ u := by
      by_contra hlt
      exact of_decide_eq_false (hmax t (not_le.1 hlt) (by omega)) (hself.le.trans hq)
    obtain ⟨d, rfl⟩ := Nat.exists_eq_add_of_le htu
    exact .found q t d hfind (h.quotientAt_of_rem_eq_zero (by push_cast; ring))

/-- No digit fits any more and the state is below scale 0. -/
theorem DivState.found_none (h : DivState a b e q r scale) {j : ℕ} (hscale : scale + j ≤ 0)
    (hbig : max96 < q * 10 ^ j) : DivFound a b none :=
  .overflow fun t _ => hbig.trans_le (h.le_quotientAt (by omega))

/-- A quotient of at most one digit too many, of which `overflowUnscale` rounds the last one off. -/
theorem DivState.found_unscale (h : DivState a b e q r scale) (hbig : max96 < q) (hq : q ≤ 2 * max96)
    (hhigh : scale ≤ scaleMax) : DivFound a b (overflowUnscale q scale (r != 0)) := by
  have hb := Nat.zero_lt_of_lt h.rem_lt
  have hsticky : (r != 0) = true ↔ a.mant * 10 ^ e % b.mant ≠ 0 := by rw [h.rem, bne_iff_ne]
  have hover := overflowUnscale_eq (a.mant * 10 ^ e) hb (scale := scale) hsticky
  rw [h.quot] at hover
  rw [hover]
  split_ifs with hneg
  · exact h.found_none (j := 0) (by omega) (by simpa using hbig)
  · obtain ⟨t, ht⟩ : ∃ t : ℕ, scale - 1 = t := ⟨(scale - 1).toNat, by omega⟩
    have hround := h.quotientAt_pred (t := t) (by omega)
    have hten := rhe_ten_le_of_le hq
    have hfits : rhe (a.mant * 10 ^ e) (10 * b.mant) ≤ max96 := by
      refine (rhe_le_div_add_one _ _).trans ?_
      rw [Nat.mul_comm 10, ← Nat.div_div_eq_div_mul, h.quot]
      simp only [max96] at hq ⊢
      omega
    refine .of_largest ht (isLargestScale_of (by omega) (hround.le.trans hfits) fun j hlt _ => ?_) hround
    exact hbig.trans_le (by simpa using h.le_quotientAt (t := j) (j := 0) (by omega))

/-- A carry out of 96 bits: the quotient is rounded again, one digit shorter (R103). -/
theorem DivState.found_carry {t : ℕ} (h : DivState a b e max96 r t) (hr : r ≠ 0) (hhigh : t ≤ scaleMax)
    (hself : quotientAt a b t = max96 + 1) (hlater : ∀ j, t < j → j ≤ scaleMax → max96 < quotientAt a b j) :
    DivFound a b (overflowUnscale (max96 + 1) t true) := by
  have hunscale : overflowUnscale (max96 + 1) t true =
      if (t : ℤ) ≤ 0 then none else some (max96 / 10 + 1, (t : ℤ) - 1) := by
    have hup : 5 < (max96 + 1) % 10 := by decide
    have hten : (max96 + 1) / 10 = max96 / 10 := by decide
    simp only [overflowUnscale, hup, hten, true_or, if_true]
  have hfrom : ∀ j, t ≤ j → j ≤ scaleMax → max96 < quotientAt a b j := fun j hle hj =>
    hle.eq_or_lt.elim (fun heq => heq ▸ hself ▸ Nat.lt_succ_self _) fun hlt => hlater j hlt hj
  rw [hunscale]
  cases t with
  | zero => exact .overflow fun j hj => hfrom j (Nat.zero_le j) hj
  | succ u =>
    have hten := rhe_mul_ten (a.mant * 10 ^ e) (Nat.zero_lt_of_lt h.rem_lt)
    rw [h.quot, h.rem] at hten
    have hdrop : rhe (a.mant * 10 ^ e) (10 * b.mant) = max96 / 10 + 1 :=
      hten.trans (if_pos (.inr ⟨by decide, .inl hr⟩))
    have hround := (h.quotientAt_pred (t := u) (by push_cast; ring)).trans hdrop
    rw [if_neg (by omega)]
    refine .of_largest (t := u) (by push_cast; ring) (isLargestScale_of (Nat.le_of_succ_le hhigh) ?_ hfrom) hround
    rw [hround]
    decide

/-- The last digit is rounded when no further one fits or scale 28 is reached. -/
theorem DivState.found_round (h : DivState a b e q r scale) (hr : r ≠ 0) (hq : q ≤ max96) (hlow : 0 ≤ scale)
    (hhigh : scale ≤ scaleMax) (hnext : scale < scaleMax → max96 < q * 10) :
    DivFound a b (if b.mant < 2 * r ∨ (2 * r = b.mant ∧ q % 2 = 1) then
      if max96 < q + 1 then overflowUnscale (q + 1) scale true else some (q + 1, scale) else some (q, scale)) := by
  obtain ⟨t, rfl⟩ := Int.eq_ofNat_of_zero_le hlow
  have hself := h.quotientAt_self (t := t) rfl
  rw [rhe] at hself
  simp only [h.quot, h.rem] at hself
  have hlater : ∀ j, t < j → j ≤ scaleMax → max96 < quotientAt a b j := fun j hlt hle =>
    (hnext (by omega)).trans_le (by simpa using h.le_quotientAt (t := j) (j := 1) (by omega))
  have hhigh' : t ≤ scaleMax := by omega
  by_cases hup : b.mant < 2 * r ∨ (2 * r = b.mant ∧ q % 2 = 1)
  · rw [if_pos hup] at hself ⊢
    by_cases hcarry : max96 < q + 1
    · obtain rfl : q = max96 := by omega
      rw [if_pos hcarry]
      exact h.found_carry hr hhigh' hself hlater
    · rw [if_neg hcarry]
      exact .of_largest rfl (isLargestScale_of hhigh' (hself.le.trans (not_lt.1 hcarry)) hlater) hself
  · rw [if_neg hup] at hself ⊢
    exact .of_largest rfl (isLargestScale_of hhigh' (hself.le.trans hq) hlater) hself

end

/-! ### The search for the number of digits (R102) -/

/-- The number of digits found: it keeps the quotient in 96 bits and the scale at most 28, and one digit more does not. -/
theorem searchScale_spec {q : ℕ} {scale : ℤ} (hscale : scale ≤ scaleMax) :
    ∃ k : ℕ, k ≤ 9 ∧ (q * 10 ^ k ≤ max96 ∨ k = 0) ∧ scale + k ≤ scaleMax ∧
      (k < 9 → scale + k < scaleMax → max96 < q * 10 ^ (k + 1)) ∧
      searchScale q scale = if k < 9 ∧ scale + k < 0 then none else some k := by
  have hfits : ∀ k, q ≤ powerOvfl k ↔ q * 10 ^ k ≤ max96 := fun k =>
    (le_powerOvfl_iff q k).trans (Nat.lt_iff_le_pred (by decide))
  unfold searchScale
  cases hfind : findDown (fun c => (c == 0 || decide (q ≤ powerOvfl c)) && decide (scale + c ≤ scaleMax)) 9 with
  | none =>
    have hzero := findDown_eq_none.1 hfind 0 (by decide)
    simp [hscale] at hzero
  | some k =>
    obtain ⟨hk, hpass, hmax⟩ := findDown_eq_some.1 hfind
    simp only [Bool.and_eq_true, Bool.or_eq_true, beq_iff_eq, decide_eq_true_eq, hfits] at hpass
    obtain ⟨hq, hle⟩ := hpass
    refine ⟨k, hk, hq.symm, hle, fun hk9 hroom => ?_, rfl⟩
    have hfail := hmax (k + 1) (Nat.lt_succ_self k) (by omega)
    have hroom' : scale + ((k + 1 : ℕ) : ℤ) ≤ scaleMax := by push_cast; omega
    simp only [hroom', decide_true, Bool.and_true, Bool.or_eq_false_iff, decide_eq_false_iff_not, hfits] at hfail
    exact not_le.1 hfail.2

/-! ### The loop (R128) -/

theorem wideValue_threeWords {q : ℕ} (hq : q ≤ max96) : wideValue (wideOf 3 q) = q :=
  wideValue_wideOf_of_lt (lt_of_le_max96 hq)

/-- The words of the quotient `q` with the `k` digits of `d` appended, and whether they fit 96 bits (R128). -/
def appendDigits (q k d : ℕ) : List Word × Bool :=
  add32to96 (increaseScale (wideOf 3 q) (pow10Word k)).1 (BitVec.ofNat 32 d)

theorem appendDigits_spec {q k d : ℕ} (hk : k ≤ 9) (hq : q * 10 ^ k ≤ max96) (hd : d < 2 ^ 32) :
    wideValue (appendDigits q k d).1 = (q * 10 ^ k + d) % 2 ^ 96 ∧
      ((appendDigits q k d).2 = true ↔ q * 10 ^ k + d < 2 ^ 96) := by
  have hvalue := wideValue_threeWords ((Nat.le_mul_of_pos_right q (by positivity : 0 < 10 ^ k)).trans hq)
  obtain ⟨-, hscaled⟩ := wideValue_increaseScale_of_lt (ws := wideOf 3 q) (k := k) hk
    (by rw [hvalue, length_wideOf]; exact lt_of_le_max96 hq)
  have hsum := add32to96_exact (increaseScale (wideOf 3 q) (pow10Word k)).1 (BitVec.ofNat 32 d)
  have hword : (BitVec.ofNat 32 d).toNat = d := Nat.mod_eq_of_lt hd
  rwa [hscaled, hvalue, length_increaseScale, length_wideOf, hword] at hsum

/-- The digits of one pass: fewer than `10^k`, from a dividend that the divider takes. -/
theorem digits_of_pass {r B k : ℕ} (hr : r < B) (hB : B ≤ max96) (hk : k ≤ 9) :
    r * 10 ^ k / B < 10 ^ k ∧ divWide (r * 10 ^ k) B = some (r * 10 ^ k / B, r * 10 ^ k % B) := by
  have hpos := Nat.zero_lt_of_lt hr
  constructor
  · rw [Nat.div_lt_iff_lt_mul hpos, Nat.mul_comm]
    exact Nat.mul_lt_mul_of_pos_left hr (by positivity)
  · refine divWide_eq hpos (lt_of_le_max96 hB) (.inr ?_)
    exact (Nat.mul_lt_mul_of_pos_right hr (by positivity)).trans_le
      (Nat.mul_le_mul_left _ (Nat.pow_le_pow_right (by decide) hk))

theorem add_mod_of_carry {s B : ℕ} (hle : B ≤ s) (hlt : s < 2 * B) : B + s % B = s := by
  rw [Nat.mod_eq_sub_mod hle, Nat.mod_eq_of_lt (by omega), Nat.add_sub_cancel' hle]

/-- One pass that appends `k` digits: the loop goes on when the longer quotient fits, and otherwise its last digit is
rounded off. -/
theorem divLoop_pass {a b : Dec} {loop : ℕ → Option (ℕ × ℤ)} {e q d r k : ℕ} {scale : ℤ}
    (h : DivState a b (e + k) (q * 10 ^ k + d) r (scale + k)) (hk : k ≤ 9) (hq : q * 10 ^ k ≤ max96)
    (hd : d < 10 ^ k) (hscale : scale + k ≤ scaleMax)
    (ih : q * 10 ^ k + d ≤ max96 → DivFound a b (loop (q * 10 ^ k + d))) :
    DivFound a b (if (appendDigits q k d).2 then loop (wideValue (appendDigits q k d).1)
      else overflowUnscale (2 ^ 96 + wideValue (appendDigits q k d).1) (scale + k) (r != 0)) := by
  have hmax : max96 + 1 = 2 ^ 96 := rfl
  have hpow : 10 ^ k ≤ 10 ^ 9 := Nat.pow_le_pow_right (by decide) hk
  obtain ⟨hvalue, hfits⟩ := appendDigits_spec hk hq (hd.trans (hpow.trans_lt (by decide)))
  rw [hvalue]
  by_cases hcarry : (appendDigits q k d).2 = true
  · have hlt := hfits.1 hcarry
    rw [if_pos hcarry, Nat.mod_eq_of_lt hlt]
    exact ih (Nat.le_of_lt_succ (hlt.trans_eq hmax.symm))
  · have hbig : 2 ^ 96 ≤ q * 10 ^ k + d := not_lt.1 (mt hfits.2 hcarry)
    have hdle : d ≤ max96 := hd.le.trans (hpow.trans (by decide))
    have hsum : q * 10 ^ k + d ≤ 2 * max96 := (Nat.add_le_add hq hdle).trans_eq (Nat.two_mul _).symm
    rw [if_neg hcarry, add_mod_of_carry hbig (hsum.trans_lt (by decide))]
    exact h.found_unscale (hmax.le.trans hbig) hsum hscale

/-- A remainder of 0 below scale 0: zeros are appended while they fit (R128). -/
theorem divLoop_extend {a b : Dec} {loop : ℕ → Option (ℕ × ℤ)} {e q k : ℕ} {scale : ℤ}
    (h : DivState a b e q 0 scale) (hq : q ≤ max96) (hk : k ≤ 9) (hneg : scale + k ≤ 0)
    (ih : DivState a b (e + k) (q * 10 ^ k) 0 (scale + k) → q * 10 ^ k ≤ max96 → DivFound a b (loop (q * 10 ^ k))) :
    DivFound a b (if (increaseScale (wideOf 3 q) (pow10Word k)).2 = 0 then
      loop (wideValue (increaseScale (wideOf 3 q) (pow10Word k)).1) else none) := by
  have hmax : max96 + 1 = 2 ^ 96 := rfl
  have hwide := wideValue_threeWords hq
  have hnext := h.extend k
  rw [Nat.zero_mul, Nat.zero_div, Nat.zero_mod, Nat.add_zero] at hnext
  have hzero := increaseScale_snd_eq_zero_iff (wideOf 3 q) (pow10Word k)
  rw [length_wideOf, hwide, toNat_pow10Word hk] at hzero
  by_cases hfits : (increaseScale (wideOf 3 q) (pow10Word k)).2 = 0
  · have hlt := hzero.1 hfits
    obtain ⟨-, hvalue⟩ := wideValue_increaseScale_of_lt (ws := wideOf 3 q) hk (by rwa [length_wideOf, hwide])
    rw [if_pos hfits, hvalue, hwide]
    exact ih hnext (Nat.le_of_lt_succ (hlt.trans_eq hmax.symm))
  · have hbig := not_lt.1 (mt hzero.2 hfits)
    rw [if_neg hfits]
    exact hnext.found_none (j := 0) (by omega) (by rw [pow_zero, Nat.mul_one]; exact hmax.ge.trans hbig)

theorem divLoop_found {a b : Dec} (hb : b.mant ≤ max96) (fuel : ℕ) {e q r : ℕ} {scale : ℤ}
    (h : DivState a b e q r scale) (hq : q ≤ max96) (hscale : scale ≤ scaleMax) (hfuel : scaleMax - scale < fuel) :
    DivFound a b (divLoop b.mant fuel q r scale) := by
  have hnine : maxPow32 = 9 := rfl
  have hmax : max96 + 1 = 2 ^ 96 := rfl
  induction fuel generalizing e q r scale with
  | zero => omega
  | succ fuel ih =>
    rw [divLoop]
    by_cases hr : r = 0
    · subst hr
      rw [if_pos rfl]
      by_cases hneg : scale < 0
      · obtain ⟨k, hk⟩ : ∃ k, min maxPow32 (-scale).toNat = k := ⟨_, rfl⟩
        have hneg' : scale + k ≤ 0 := by omega
        simp only [if_pos hneg, hk]
        exact divLoop_extend (loop := fun q' => divLoop b.mant fuel q' 0 _) h hq (hk ▸ min_le_left _ _) hneg'
          fun hnext hfit => ih hnext hfit (hneg'.trans (Int.natCast_nonneg _)) (by omega)
      · rw [if_neg hneg]
        exact h.found_of_even hq (not_lt.1 hneg) hscale
    · rw [if_neg hr]
      obtain ⟨k, hk9, hkq, hkscale, hkmore, hsearch⟩ := searchScale_spec (q := q) hscale
      rw [hsearch]
      by_cases hnone : k < 9 ∧ scale + k < 0
      · rw [if_pos hnone]
        have hroom : scale + k < scaleMax := hnone.2.trans_le (Int.natCast_nonneg _)
        exact h.found_none (j := k + 1) (by push_cast; omega) (hkmore hnone.1 hroom)
      · rw [if_neg hnone]
        cases k with
        | zero =>
          refine h.found_round hr hq (by omega) hscale fun hlt => ?_
          simpa using hkmore (by decide) (by simpa using hlt)
        | succ k =>
          have hq' : q * 10 ^ (k + 1) ≤ max96 := hkq.resolve_right (Nat.succ_ne_zero k)
          obtain ⟨hdigits, hdivWide⟩ := digits_of_pass h.rem_lt hb hk9
          have hnext := h.extend (k + 1)
          simp only [hdivWide]
          exact divLoop_pass (loop := fun q' => divLoop b.mant fuel q' _ _) hnext hk9 hq' hdigits hkscale
            fun hfit => ih hnext hfit hkscale (by push_cast; omega)

/-! ### The divider (R127, R128) -/

/-- The number of removable zeros is determined. -/
theorem removesZeros_unique {m limit z z' : ℕ} (h : RemovesZeros m limit z) (h' : RemovesZeros m limit z') : z = z' := by
  have hle : ∀ {y y' : ℕ}, RemovesZeros m limit y → RemovesZeros m limit y' → y' ≤ y := by
    rintro y y' ⟨-, -, hmax⟩ ⟨hlimit', hdvd', -⟩
    rcases hmax with rfl | hnot
    · exact hlimit'
    · by_contra hlt
      exact hnot ((pow_dvd_pow 10 (not_le.1 hlt)).trans hdvd')
  exact le_antisymm (hle h' h) (hle h h')

/-- Trailing zeros put back are removed again. -/
theorem removesZeros_mul_pow {m limit z : ℕ} (d : ℕ) (h : RemovesZeros m limit z) :
    RemovesZeros (m * 10 ^ d) (limit + d) (z + d) := by
  obtain ⟨hle, hdvd, hmax⟩ := h
  refine ⟨by omega, ?_, hmax.imp (congrArg (· + d)) fun hnot hmore => hnot ?_⟩
  · rw [pow_add]
    exact Nat.mul_dvd_mul_right hdvd _
  · rw [Nat.add_right_comm, pow_add] at hmore
    exact Nat.dvd_of_mul_dvd_mul_right (by positivity) hmore

theorem varDecDiv_eq {a b : Dec} (ha : a.InRange) (hb : b.InRange) (hne : b.mant ≠ 0) :
    varDecDiv a b = divide a b := by
  obtain ⟨hma, hsa⟩ := ha
  obtain ⟨hmb, hsb⟩ := hb
  have hmax : scaleMax = 28 := rfl
  have hpos := Nat.pos_of_ne_zero hne
  have hstart : DivState a b 0 (a.mant / b.mant) (a.mant % b.mant) (a.scale - b.scale) :=
    ⟨by rw [Nat.div_add_mod', pow_zero, Nat.mul_one], Nat.mod_lt _ hpos, by simp⟩
  have hfound := divLoop_found hmb 64 hstart ((Nat.div_le_self _ _).trans hma) (by omega) (by omega)
  simp only [varDecDiv, divWide_eq hpos (lt_of_le_max96 hmb) (.inl (lt_of_le_max96 hma))]
  cases hres : divLoop b.mant 64 (a.mant / b.mant) (a.mant % b.mant) (a.scale - b.scale) with
  | none =>
    rw [hres] at hfound
    obtain ⟨hover⟩ := hfound
    rw [divide, findDown_eq_none.2 fun t ht => decide_eq_false (not_le.2 (hover t ht))]
    rfl
  | some c =>
    rw [hres] at hfound
    obtain - | ⟨m, t, d, hlargest, hm⟩ := hfound
    have hlargest' : findDown (fun s => quotientAt a b s ≤ max96) scaleMax = some (t + d) := hlargest
    have hz := removesZeros_removable m t
    have ht : t ≤ scaleMax := by
      have := (findDown_eq_some.1 hlargest').1
      omega
    have hremovable : removable (m * 10 ^ d) (t + d) = removable m t + d :=
      removesZeros_unique (removesZeros_removable _ _) (removesZeros_mul_pow d hz)
    have hquot : m * 10 ^ d / 10 ^ (removable m t + d) = m / 10 ^ removable m t := by
      rw [pow_add, Nat.mul_div_mul_right _ _ (by positivity)]
    rw [divide, hlargest', Option.map_some, Option.map_some, Int.toNat_natCast, normalise_eq hz ht]
    simp only [hm, hremovable, hquot, Nat.add_sub_add_right]

/-! ### The obligation -/

/-- Settles O52, from what the digit loop finds and the normalisation of trailing zeros. -/
theorem varDecDivEqualsClosedForm : Obligations.VarDecDivEqualsClosedForm := fun _ _ => varDecDiv_eq

end Sys2Proof.Proofs

/-! PROOFS. Rounding to a binary format (spec/43_convert.md R155, R159, R160). A positive number is rounded in units of the
last place of its binade, with those of the subnormals below the normal range. Every other value of the format is a whole
number of these units too, or lies below the binade; so the nearest whole number of units is the nearest value. -/

namespace Sys2Proof.Proofs

open Sys2Proof.Machine Sys2Proof.Config Sys2Proof.Laws

/-! ### Powers of two -/

theorem scaleTwo_den_pos {num den : ℕ} (hden : 0 < den) (k : ℤ) : 0 < (scaleTwo num den k).2 :=
  Nat.mul_pos hden (by positivity)

theorem scaleTwo_div (num den : ℕ) (k : ℤ) :
    ((scaleTwo num den k).1 : ℚ) / (scaleTwo num den k).2 = num / den * 2 ^ k := by
  simp only [scaleTwo, Nat.cast_mul, Nat.cast_pow, Nat.cast_ofNat]
  obtain ⟨n, rfl | rfl⟩ := Int.eq_nat_or_neg k
  · simp
    ring
  · simp
    field_simp

theorem two_zpow_pos (k : ℤ) : (0 : ℚ) < 2 ^ k := zpow_pos two_pos k

theorem two_zpow_le {j k : ℤ} (h : j ≤ k) : (2 : ℚ) ^ j ≤ 2 ^ k := zpow_le_zpow_right₀ one_le_two h

theorem lt_of_two_zpow_lt {j k : ℤ} (h : (2 : ℚ) ^ j < 2 ^ k) : j < k := (zpow_lt_zpow_iff_right₀ one_lt_two).1 h

theorem two_pow_log2_le {n : ℕ} (hn : n ≠ 0) : (2 : ℚ) ^ (n.log2 : ℤ) ≤ n := by
  rw [zpow_natCast]
  exact_mod_cast Nat.log2_self_le hn

theorem lt_two_pow_log2 (n : ℕ) : (n : ℚ) < 2 ^ ((n.log2 : ℤ) + 1) := by
  have hlt : (n : ℚ) < ((2 ^ (n.log2 + 1) : ℕ) : ℚ) := Nat.cast_lt.2 Nat.lt_log2_self
  rwa [Nat.cast_pow, Nat.cast_ofNat, ← zpow_natCast, Nat.cast_succ] at hlt

/-- The difference of the logarithms is the exponent of a quotient or one more. -/
theorem log2_sub_log2_bounds {num den : ℕ} (hnum : num ≠ 0) (hden : 0 < den) :
    (2 : ℚ) ^ ((num.log2 : ℤ) - den.log2 - 1) ≤ num / den ∧ (num : ℚ) / den < 2 ^ ((num.log2 : ℤ) - den.log2 + 1) := by
  have hden' : (0 : ℚ) < den := Nat.cast_pos.2 hden
  constructor
  · rw [le_div_iff₀ hden']
    calc (2 : ℚ) ^ ((num.log2 : ℤ) - den.log2 - 1) * den
        ≤ 2 ^ ((num.log2 : ℤ) - den.log2 - 1) * 2 ^ ((den.log2 : ℤ) + 1) :=
          mul_le_mul_of_nonneg_left (lt_two_pow_log2 den).le (two_zpow_pos _).le
      _ = 2 ^ (num.log2 : ℤ) := by
          rw [← zpow_add₀ two_ne_zero]
          congr 1
          ring
      _ ≤ num := two_pow_log2_le hnum
  · rw [div_lt_iff₀ hden']
    calc (num : ℚ) < 2 ^ ((num.log2 : ℤ) + 1) := lt_two_pow_log2 num
      _ = 2 ^ ((num.log2 : ℤ) - den.log2 + 1) * 2 ^ (den.log2 : ℤ) := by
          rw [← zpow_add₀ two_ne_zero]
          congr 1
          ring
      _ ≤ 2 ^ ((num.log2 : ℤ) - den.log2 + 1) * den :=
          mul_le_mul_of_nonneg_left (two_pow_log2_le hden.ne') (two_zpow_pos _).le

/-- `floorLog2` is the binary exponent of a positive quotient. -/
theorem floorLog2_spec {num den : ℕ} (hnum : num ≠ 0) (hden : 0 < den) :
    (2 : ℚ) ^ floorLog2 num den ≤ num / den ∧ (num : ℚ) / den < 2 ^ (floorLog2 num den + 1) := by
  obtain ⟨hlow, hhigh⟩ := log2_sub_log2_bounds hnum hden
  obtain ⟨l, hl⟩ : ∃ l : ℤ, (num.log2 : ℤ) - den.log2 = l := ⟨_, rfl⟩
  rw [hl] at hlow hhigh
  have hpos : (0 : ℚ) < (scaleTwo num den (-l)).2 := Nat.cast_pos.2 (scaleTwo_den_pos hden (-l))
  have htest : (scaleTwo num den (-l)).2 ≤ (scaleTwo num den (-l)).1 ↔ (2 : ℚ) ^ l ≤ num / den := by
    rw [← Nat.cast_le (α := ℚ), ← one_le_div hpos, scaleTwo_div, zpow_neg, ← div_eq_mul_inv,
      one_le_div (two_zpow_pos l)]
  simp only [floorLog2, hl]
  by_cases h : (scaleTwo num den (-l)).2 ≤ (scaleTwo num den (-l)).1
  · rw [if_pos h]
    exact ⟨htest.1 h, hhigh⟩
  · rw [if_neg h]
    refine ⟨hlow, ?_⟩
    rw [sub_add_cancel]
    exact not_le.1 (mt htest.2 h)

/-! ### The values of a format (R155) -/

/-- The exponent of the unit of the last place in the binade number `g`, counted from that of the subnormals. -/
def unitExp (f : FloatFormat) (g : ℕ) : ℤ := g + 1 - f.bias - f.fbits

/-- The value of a pattern of sign 0 given as a number. -/
def patternValue (f : FloatFormat) (P : ℕ) : ℚ := f.value (P / 2 ^ f.fbits) (P % 2 ^ f.fbits)

section
variable {f : FloatFormat}

theorem value_zero (F : ℕ) : f.value 0 F = F * 2 ^ unitExp f 0 := by
  rw [FloatFormat.value, if_pos rfl, unitExp]
  simp

theorem value_succ (g F : ℕ) : f.value (g + 1) F = (2 ^ f.fbits + F : ℕ) * 2 ^ unitExp f g := by
  rw [FloatFormat.value, if_neg (Nat.succ_ne_zero g), unitExp]
  push_cast
  rfl

theorem unitExp_add (g d : ℕ) : unitExp f (g + d) = unitExp f g + d := by
  simp only [unitExp]
  push_cast
  ring

/-- `m` units of a binade are the pattern `g * 2^fbits + m`: a carry out of the fraction moves into the exponent. -/
theorem patternValue_eq {g m : ℕ} (hle : m ≤ 2 ^ (f.fbits + 1)) (hge : g ≠ 0 → 2 ^ f.fbits ≤ m) :
    patternValue f (g * 2 ^ f.fbits + m) = m * 2 ^ unitExp f g := by
  have hpos : 0 < 2 ^ f.fbits := by positivity
  rw [pow_succ] at hle
  rw [patternValue, Nat.mul_comm g, Nat.mul_add_div hpos, Nat.mul_add_mod]
  obtain hlt | ⟨hlow, hlt⟩ | rfl : m < 2 ^ f.fbits ∨ (2 ^ f.fbits ≤ m ∧ m < 2 ^ f.fbits * 2) ∨
    m = 2 ^ f.fbits * 2 := by omega
  · obtain rfl : g = 0 := by
      by_contra hg
      exact absurd (hge hg) (not_le.2 hlt)
    rw [Nat.div_eq_of_lt hlt, Nat.mod_eq_of_lt hlt, value_zero]
  · have hdiv : m / 2 ^ f.fbits = 1 := Nat.div_eq_of_lt_le (by omega) (by omega)
    have hmod : 2 ^ f.fbits + m % 2 ^ f.fbits = m := by
      rw [Nat.mod_eq_sub_div_mul, hdiv]
      omega
    rw [hdiv, value_succ, hmod]
  · rw [Nat.mul_div_cancel_left _ hpos, Nat.mul_mod_right, value_succ (g + 1), unitExp_add,
      zpow_add₀ two_ne_zero]
    push_cast
    ring

/-- A value of a later binade in units of binade `g`. -/
theorem value_units (g d F : ℕ) : f.value (g + d + 1) F = ((2 ^ f.fbits + F) * 2 ^ d : ℕ) * 2 ^ unitExp f g := by
  rw [value_succ, unitExp_add, zpow_add₀ two_ne_zero, zpow_natCast]
  push_cast
  ring

/-- Up to the next binade the number of units tells the pattern. -/
theorem pattern_of_units_le {g d F D : ℕ} (hn : (D + F) * 2 ^ d ≤ D * 2) (hF : F < D) :
    (g + d + 1) * D + F = g * D + (D + F) * 2 ^ d := by
  obtain rfl | rfl | hd : d = 0 ∨ d = 1 ∨ 2 ≤ d := by omega
  · ring
  · obtain rfl : F = 0 := by omega
    ring
  · have hfour : (D + F) * 2 ^ 2 ≤ (D + F) * 2 ^ d :=
      Nat.mul_le_mul_left _ (Nat.pow_le_pow_right (n := 2) (by decide) hd)
    omega

/-- The values of the binades before `g` are below it. -/
theorem value_lt_binade {E F g : ℕ} (hE : E ≤ g) (hF : F < 2 ^ f.fbits) :
    f.value E F < 2 ^ f.fbits * 2 ^ unitExp f g := by
  cases E with
  | zero =>
    have hF' : (F : ℚ) < 2 ^ f.fbits := by exact_mod_cast hF
    rw [value_zero]
    calc (F : ℚ) * 2 ^ unitExp f 0 < 2 ^ f.fbits * 2 ^ unitExp f 0 := mul_lt_mul_of_pos_right hF' (two_zpow_pos _)
      _ ≤ 2 ^ f.fbits * 2 ^ unitExp f g :=
        mul_le_mul_of_nonneg_left (two_zpow_le (by simp only [unitExp]; omega)) (pow_nonneg two_pos.le _)
  | succ E =>
    have hF' : ((2 ^ f.fbits + F : ℕ) : ℚ) < 2 ^ f.fbits * 2 := by
      exact_mod_cast (show 2 ^ f.fbits + F < 2 ^ f.fbits * 2 by omega)
    have hunit : (2 : ℚ) * 2 ^ unitExp f E ≤ 2 ^ unitExp f g := by
      rw [← zpow_one_add₀ two_ne_zero]
      exact two_zpow_le (by simp only [unitExp]; omega)
    rw [value_succ]
    calc ((2 ^ f.fbits + F : ℕ) : ℚ) * 2 ^ unitExp f E < 2 ^ f.fbits * 2 * 2 ^ unitExp f E :=
          mul_lt_mul_of_pos_right hF' (two_zpow_pos _)
      _ = 2 ^ f.fbits * (2 * 2 ^ unitExp f E) := mul_assoc _ _ _
      _ ≤ 2 ^ f.fbits * 2 ^ unitExp f g := mul_le_mul_of_nonneg_left hunit (pow_nonneg two_pos.le _)

/-- Seen from binade `g`, a value of the format is below the binade or a whole number of its units; up to the next
binade the number of units tells the pattern. -/
theorem patternValue_units (g P : ℕ) :
    (g ≠ 0 ∧ patternValue f P < 2 ^ f.fbits * 2 ^ unitExp f g) ∨
      ∃ n : ℕ, patternValue f P = n * 2 ^ unitExp f g ∧ (n ≤ 2 ^ (f.fbits + 1) → P = g * 2 ^ f.fbits + n) := by
  have hP := Nat.div_add_mod' P (2 ^ f.fbits)
  have hF := Nat.mod_lt P (Nat.two_pow_pos f.fbits)
  rw [patternValue]
  generalize P / 2 ^ f.fbits = E at *
  generalize P % 2 ^ f.fbits = F at *
  rcases Nat.lt_or_ge g E with hlt | hge
  · obtain ⟨d, rfl⟩ := Nat.exists_eq_add_of_lt hlt
    refine .inr ⟨_, value_units g d F, fun hn => hP.symm.trans (pattern_of_units_le ?_ hF)⟩
    rwa [← pow_succ]
  · rcases Nat.eq_zero_or_pos g with rfl | hg
    · obtain rfl := Nat.le_zero.1 hge
      exact .inr ⟨F, value_zero F, fun _ => hP.symm⟩
    · exact .inl ⟨hg.ne', value_lt_binade hge hF⟩

/-! ### Rounding in units of the last place (R159) -/

/-- `m` is the nearest whole number of units to `q`, in the binade `g` that holds `q`, or in the subnormal range. -/
structure RoundedAt (f : FloatFormat) (q : ℚ) (g m : ℕ) : Prop where
  nearest : IsNearestEven (q / 2 ^ unitExp f g) m
  low : g ≠ 0 → 2 ^ f.fbits * 2 ^ unitExp f g ≤ q
  high : q < 2 ^ (f.fbits + 1) * 2 ^ unitExp f g

section
variable {q : ℚ} {g m : ℕ}

theorem RoundedAt.le_pow (h : RoundedAt f q g m) : m ≤ 2 ^ (f.fbits + 1) := by
  refine isNearestEven_mono ?_ h.nearest (isNearestEven_natCast _)
  rw [div_le_iff₀ (two_zpow_pos _)]
  exact_mod_cast h.high.le

theorem RoundedAt.pow_le (h : RoundedAt f q g m) (hg : g ≠ 0) : 2 ^ f.fbits ≤ m := by
  refine isNearestEven_mono ?_ (isNearestEven_natCast _) h.nearest
  rw [le_div_iff₀ (two_zpow_pos _)]
  exact_mod_cast h.low hg

theorem RoundedAt.value (h : RoundedAt f q g m) :
    patternValue f (g * 2 ^ f.fbits + m) = m * 2 ^ unitExp f g := patternValue_eq h.le_pow h.pow_le

/-- Two whole numbers are at least 1 apart, and so is the way between them over `x`. -/
theorem one_le_abs_sub_add {m n : ℕ} (x : ℚ) (hne : n ≠ m) : 1 ≤ |x - m| + |x - n| := by
  have hone : (1 : ℤ) ≤ |(n : ℤ) - m| := Int.one_le_abs (sub_ne_zero.2 (by exact_mod_cast hne))
  have htriangle := abs_sub (x - m) (x - n)
  rw [sub_sub_sub_cancel_left] at htriangle
  exact le_trans (by exact_mod_cast hone) htriangle

/-- No whole number is nearer than the nearest one. -/
theorem abs_sub_le_of_isNearestEven {x : ℚ} {m : ℕ} (h : IsNearestEven x m) (n : ℕ) : |x - m| ≤ |x - n| := by
  rcases eq_or_ne n m with rfl | hne
  · exact le_rfl
  · have hsum := one_le_abs_sub_add x hne
    linarith [h.1]

/-- A tie between two whole numbers is one of exact halves, and the nearest one is even. -/
theorem even_of_abs_sub_eq {x : ℚ} {m n : ℕ} (h : IsNearestEven x m) (hne : n ≠ m) (heq : |x - m| = |x - n|) :
    m % 2 = 0 := by
  obtain ⟨hdist, htie⟩ := h
  have hsum := one_le_abs_sub_add x hne
  exact htie (by linarith)

/-- Distances in units. -/
theorem abs_sub_units (q : ℚ) (n : ℚ) (k : ℤ) : |q - n * 2 ^ k| = |q / 2 ^ k - n| * 2 ^ k := by
  have hu := two_zpow_pos k
  rw [← abs_of_pos hu, ← abs_mul, abs_of_pos hu, sub_mul, div_mul_cancel₀ _ hu.ne']

/-- The rounded pattern is the nearest of the format, an exact tie going to the even fraction. -/
theorem RoundedAt.closest (h : RoundedAt f q g m) (hf : 1 ≤ f.fbits) {P : ℕ} (hP : P ≠ g * 2 ^ f.fbits + m) :
    |q - patternValue f (g * 2 ^ f.fbits + m)| < |q - patternValue f P| ∨
      (|q - patternValue f (g * 2 ^ f.fbits + m)| = |q - patternValue f P| ∧
        (g * 2 ^ f.fbits + m) % 2 ^ f.fbits % 2 = 0) := by
  have hu := two_zpow_pos (unitExp f g)
  have hparity : (g * 2 ^ f.fbits + m) % 2 ^ f.fbits % 2 = m % 2 := by
    rw [Nat.mul_comm, Nat.mul_add_mod, Nat.mod_mod_of_dvd]
    exact dvd_pow_self 2 (by omega)
  rw [h.value, abs_sub_units, hparity]
  obtain ⟨hg, hbelow⟩ | ⟨n, hn, hpattern⟩ := patternValue_units (f := f) g P
  · left
    have hlow := h.low hg
    have hnearest := abs_sub_le_of_isNearestEven h.nearest (2 ^ f.fbits)
    rw [Nat.cast_pow, Nat.cast_ofNat] at hnearest
    calc |q / 2 ^ unitExp f g - m| * 2 ^ unitExp f g
        ≤ |q / 2 ^ unitExp f g - 2 ^ f.fbits| * 2 ^ unitExp f g := mul_le_mul_of_nonneg_right hnearest hu.le
      _ = q - 2 ^ f.fbits * 2 ^ unitExp f g := by rw [← abs_sub_units, abs_of_nonneg (by linarith)]
      _ < q - patternValue f P := by linarith
      _ ≤ |q - patternValue f P| := le_abs_self _
  · have hne : n ≠ m := by
      rintro rfl
      exact hP (hpattern h.le_pow)
    rw [hn, abs_sub_units]
    rcases (abs_sub_le_of_isNearestEven h.nearest n).lt_or_eq with hlt | heq
    · exact .inl (mul_lt_mul_of_pos_right hlt hu)
    · exact .inr ⟨by rw [heq], even_of_abs_sub_eq h.nearest hne heq⟩

end

theorem roundedAt_zero : RoundedAt f 0 0 0 := by
  refine ⟨?_, fun h => absurd rfl h, mul_pos (pow_pos two_pos _) (two_zpow_pos _)⟩
  rw [zero_div, ← Nat.cast_zero]
  exact isNearestEven_natCast 0

/-- Rounding in units of the exponent `e`, the one of binade `g`. -/
theorem roundedAt_rhe {num den g : ℕ} {e : ℤ} (hden : 0 < den) (hg : e = g + 1 - f.bias)
    (hlow : g ≠ 0 → (2 : ℚ) ^ e ≤ num / den) (hhigh : (num : ℚ) / den < 2 ^ (e + 1)) :
    RoundedAt f (num / den) g (rhe (scaleTwo num den (f.fbits - e)).1 (scaleTwo num den (f.fbits - e)).2) := by
  have hunit : unitExp f g = e - f.fbits := by rw [unitExp, hg]
  have hround := isNearestEven_rhe (scaleTwo num den (f.fbits - e)).1 (scaleTwo_den_pos (num := num) hden (f.fbits - e))
  have hvalue : ((scaleTwo num den (f.fbits - e)).1 : ℚ) / (scaleTwo num den (f.fbits - e)).2 =
      num / den / 2 ^ unitExp f g := by
    rw [scaleTwo_div, hunit, div_eq_mul_inv _ ((2 : ℚ) ^ (e - f.fbits)), ← zpow_neg, neg_sub]
  rw [hvalue] at hround
  have hunits : ∀ n : ℕ, (2 : ℚ) ^ (f.fbits + n) * 2 ^ unitExp f g = 2 ^ (e + n) := by
    intro n
    rw [hunit, ← zpow_natCast (2 : ℚ) (f.fbits + n), ← zpow_add₀ two_ne_zero, Nat.cast_add]
    congr 1
    ring
  have hzero := hunits 0
  have hone := hunits 1
  rw [Nat.add_zero, Nat.cast_zero, add_zero] at hzero
  rw [Nat.cast_one] at hone
  exact ⟨hround, fun hne => hzero.trans_le (hlow hne), hhigh.trans_eq hone.symm⟩

/-- `nearest` rounds in units of the last place, unless the value is too large for the format. -/
theorem nearest_roundedAt (num : ℕ) {den : ℕ} (hden : 0 < den) :
    ∃ g m, RoundedAt f (num / den) g m ∧
      f.nearest num den = min (g * 2 ^ f.fbits + m) ((2 ^ f.ebits - 1) * 2 ^ f.fbits) := by
  rw [FloatFormat.nearest]
  by_cases hzero : num = 0
  · rw [if_pos hzero, hzero, Nat.cast_zero, zero_div]
    exact ⟨0, 0, roundedAt_zero, by rw [Nat.zero_mul, Nat.zero_min]⟩
  · obtain ⟨hlow, hhigh⟩ := floorLog2_spec hzero hden
    obtain ⟨e, he⟩ : ∃ e : ℤ, max (floorLog2 num den) (1 - f.bias) = e := ⟨_, rfl⟩
    have hle : floorLog2 num den ≤ e := he ▸ le_max_left _ _
    have hmin : 1 - (f.bias : ℤ) ≤ e := he ▸ le_max_right _ _
    obtain ⟨g, hgNat⟩ : ∃ g : ℕ, (e + f.bias - 1).toNat = g := ⟨_, rfl⟩
    have hg : e = g + 1 - f.bias := by omega
    have hnormal : g ≠ 0 → (2 : ℚ) ^ e ≤ num / den := fun hne => by
      rcases max_choice (floorLog2 num den) (1 - f.bias : ℤ) with h | h
      · rwa [← he, h]
      · omega
    refine ⟨g, _, roundedAt_rhe hden hg hnormal (hhigh.trans_le (two_zpow_le (by omega))), ?_⟩
    simp only [if_neg hzero, he, hgNat]

end

end Sys2Proof.Proofs

/-! PROOFS. The default `F64_OPS` and the conversions to binary (spec/43_convert.md R155 to R160). A finite pattern of sign 0
is its number, so rounding in units of the last place gives the nearest binary64 or binary32 value; DTOR8 and DTOR4 are
sequences of such roundings of bounded quotients, and the sign bit is free for the sign of the register. -/

namespace Sys2Proof.Proofs

open Sys2Proof.Machine Sys2Proof.Config Sys2Proof.Laws

/-! ### Patterns as numbers (R155) -/

theorem exponent64_eq (x : DWord) : exponent64 x = x.toNat / 2 ^ 52 % 2 ^ 11 := by
  rw [exponent64, BitVec.extractLsb'_toNat, Nat.shiftRight_eq_div_pow]

theorem fraction64_eq (x : DWord) : fraction64 x = x.toNat % 2 ^ 52 := by
  rw [fraction64, BitVec.extractLsb'_toNat, Nat.shiftRight_zero]

theorem exponent32_eq (x : Word) : exponent32 x = x.toNat / 2 ^ 23 % 2 ^ 8 := by
  rw [exponent32, BitVec.extractLsb'_toNat, Nat.shiftRight_eq_div_pow]

theorem fraction32_eq (x : Word) : fraction32 x = x.toNat % 2 ^ 23 := by
  rw [fraction32, BitVec.extractLsb'_toNat, Nat.shiftRight_zero]

/-- The top bit of a word is clear when the number is in the lower half. -/
theorem getLsbD_top_eq_false_iff {w : ℕ} (x : BitVec (w + 1)) : x.getLsbD w = false ↔ x.toNat < 2 ^ w := by
  have hx := x.isLt
  have hpos : 0 < 2 ^ w := by positivity
  rw [BitVec.getLsbD, Nat.testBit_eq_decide_div_mod_eq, decide_eq_false_iff_not]
  rw [pow_succ] at hx
  have hdiv : x.toNat / 2 ^ w < 2 := by
    rw [Nat.div_lt_iff_lt_mul hpos]
    omega
  rw [← Nat.div_eq_zero_iff_lt hpos]
  generalize x.toNat / 2 ^ w = bit at *
  omega

theorem finite64_iff (x : DWord) : Finite64 x ↔ x.toNat < 2047 * 2 ^ 52 := by
  rw [Finite64, exponent64_eq, getLsbD_top_eq_false_iff (w := 63) x]
  have hx := x.isLt
  omega

theorem finite32_iff (x : Word) : Finite32 x ↔ x.toNat < 255 * 2 ^ 23 := by
  rw [Finite32, exponent32_eq, getLsbD_top_eq_false_iff (w := 31) x]
  have hx := x.isLt
  omega

theorem value64_eq {x : DWord} (h : Finite64 x) : value64 x = patternValue binary64 x.toNat := by
  have hx := (finite64_iff x).1 h
  have hexp : x.toNat / 2 ^ 52 % 2 ^ 11 = x.toNat / 2 ^ 52 := by omega
  rw [value64, exponent64_eq, fraction64_eq, hexp]
  rfl

theorem value32_eq {x : Word} (h : Finite32 x) : value32 x = patternValue binary32 x.toNat := by
  have hx := (finite32_iff x).1 h
  have hexp : x.toNat / 2 ^ 23 % 2 ^ 8 = x.toNat / 2 ^ 23 := by omega
  rw [value32, exponent32_eq, fraction32_eq, hexp]
  rfl

theorem RoundedAt.isNearest64 {q : ℚ} {g m : ℕ} {x : DWord} (h : RoundedAt binary64 q g m)
    (hx : x.toNat = g * 2 ^ 52 + m) (hfin : Finite64 x) : IsNearest64 q x := by
  refine ⟨hfin, fun y hy hne => ?_⟩
  have hclosest := h.closest (P := y.toNat) (by decide) fun heq => hne (BitVec.eq_of_toNat_eq (heq.trans hx.symm))
  rw [value64_eq hfin, value64_eq hy, fraction64_eq, hx]
  exact hclosest

theorem RoundedAt.isNearest32 {q : ℚ} {g m : ℕ} {x : Word} (h : RoundedAt binary32 q g m)
    (hx : x.toNat = g * 2 ^ 23 + m) (hfin : Finite32 x) : IsNearest32 q x := by
  refine ⟨hfin, fun y hy hne => ?_⟩
  have hclosest := h.closest (P := y.toNat) (by decide) fun heq => hne (BitVec.eq_of_toNat_eq (heq.trans hx.symm))
  rw [value32_eq hfin, value32_eq hy, fraction32_eq, hx]
  exact hclosest

/-! ### Rounding to a pattern (R159, R160) -/

/-- A bound of the number bounds the binade. -/
theorem RoundedAt.binade_le {f : FloatFormat} {q : ℚ} {g m K : ℕ} (h : RoundedAt f q g m) (hg : g ≠ 0)
    (hq : q ≤ 2 ^ K) : g + 1 ≤ f.bias + K := by
  have hlow := (h.low hg).trans hq
  rw [← zpow_natCast, ← zpow_natCast, ← zpow_add₀ two_ne_zero] at hlow
  have hexp := (zpow_le_zpow_iff_right₀ (one_lt_two (α := ℚ))).1 hlow
  rw [unitExp] at hexp
  omega

theorem nearest64_roundedAt (num : ℕ) {den : ℕ} (hden : 0 < den) (hq : (num : ℚ) / den ≤ 2 ^ 1000) :
    ∃ g m, RoundedAt binary64 (num / den) g m ∧ (nearest64 num den).toNat = g * 2 ^ 52 + m ∧
      Finite64 (nearest64 num den) := by
  obtain ⟨g, m, h, hnearest⟩ := nearest_roundedAt (f := binary64) num hden
  have hm : m ≤ 2 ^ 53 := h.le_pow
  have hg : g ≤ 2022 := by
    rcases Nat.eq_zero_or_pos g with rfl | hpos
    · exact Nat.zero_le _
    · have hbias : binary64.bias = 1023 := rfl
      have := h.binade_le hpos.ne' hq
      omega
  have hfits : binary64.nearest num den = g * 2 ^ 52 + m :=
    hnearest.trans (min_eq_left (show g * 2 ^ 52 + m ≤ (2 ^ 11 - 1) * 2 ^ 52 by omega))
  have hnat : (nearest64 num den).toNat = g * 2 ^ 52 + m := by
    rw [nearest64, BitVec.toNat_ofNat, hfits]
    omega
  exact ⟨g, m, h, hnat, (finite64_iff _).2 (by omega)⟩

theorem nearest32_roundedAt (num : ℕ) {den : ℕ} (hden : 0 < den) (hq : (num : ℚ) / den ≤ 2 ^ 100) :
    ∃ g m, RoundedAt binary32 (num / den) g m ∧
      (BitVec.ofNat 32 (binary32.nearest num den)).toNat = g * 2 ^ 23 + m ∧
      Finite32 (BitVec.ofNat 32 (binary32.nearest num den)) := by
  obtain ⟨g, m, h, hnearest⟩ := nearest_roundedAt (f := binary32) num hden
  have hm : m ≤ 2 ^ 24 := h.le_pow
  have hg : g ≤ 226 := by
    rcases Nat.eq_zero_or_pos g with rfl | hpos
    · exact Nat.zero_le _
    · have hbias : binary32.bias = 127 := rfl
      have := h.binade_le hpos.ne' hq
      omega
  have hfits : binary32.nearest num den = g * 2 ^ 23 + m :=
    hnearest.trans (min_eq_left (show g * 2 ^ 23 + m ≤ (2 ^ 8 - 1) * 2 ^ 23 by omega))
  have hnat : (BitVec.ofNat 32 (binary32.nearest num den)).toNat = g * 2 ^ 23 + m := by
    rw [BitVec.toNat_ofNat, hfits]
    omega
  exact ⟨g, m, h, hnat, (finite32_iff _).2 (by omega)⟩

theorem isNearest64_nearest64 (num : ℕ) {den : ℕ} (hden : 0 < den) (hq : (num : ℚ) / den ≤ 2 ^ 1000) :
    IsNearest64 (num / den) (nearest64 num den) := by
  obtain ⟨g, m, h, hnat, hfin⟩ := nearest64_roundedAt num hden hq
  exact h.isNearest64 hnat hfin

theorem isNearest32_nearest (num : ℕ) {den : ℕ} (hden : 0 < den) (hq : (num : ℚ) / den ≤ 2 ^ 100) :
    IsNearest32 (num / den) (BitVec.ofNat 32 (binary32.nearest num den)) := by
  obtain ⟨g, m, h, hnat, hfin⟩ := nearest32_roundedAt num hden hq
  exact h.isNearest32 hnat hfin

/-! ### The magnitude of a pattern (R154, R155) -/

theorem magnitude_den_pos (f : FloatFormat) (E F : ℕ) : 0 < (f.magnitude E F).2 := by
  unfold FloatFormat.magnitude
  split_ifs
  · exact scaleTwo_den_pos Nat.one_pos _
  · exact scaleTwo_den_pos Nat.one_pos _

theorem magnitude_div (f : FloatFormat) (E F : ℕ) :
    ((f.magnitude E F).1 : ℚ) / (f.magnitude E F).2 = f.value E F := by
  unfold FloatFormat.magnitude FloatFormat.value
  split_ifs
  · rw [scaleTwo_div]
    simp
  · rw [scaleTwo_div]
    simp

theorem magnitude64_den_pos (x : DWord) : 0 < (magnitude64 x).2 := magnitude_den_pos _ _ _

theorem magnitude64_div (x : DWord) : ((magnitude64 x).1 : ℚ) / (magnitude64 x).2 = value64 x := magnitude_div _ _ _

theorem value64_nonneg (x : DWord) : 0 ≤ value64 x := by
  rw [← magnitude64_div]
  positivity

/-! ### Nearest values (R159) -/

/-- No finite pattern is nearer. -/
theorem isNearest64_abs_le {q : ℚ} {x y : DWord} (h : IsNearest64 q x) (hy : Finite64 y) :
    |q - value64 x| ≤ |q - value64 y| := by
  rcases eq_or_ne y x with rfl | hne
  · exact le_rfl
  · rcases h.2 y hy hne with hlt | ⟨heq, -⟩
    · exact hlt.le
    · exact heq.le

theorem value64_zero : value64 0 = 0 := by
  have hzero : value64 0 = binary64.value 0 0 := rfl
  rw [hzero, value_zero, Nat.cast_zero, zero_mul]

/-- Zero has a pattern, so a rounded number at most doubles. -/
theorem value64_le_two_mul {q : ℚ} {x : DWord} (hq : 0 ≤ q) (h : IsNearest64 q x) : value64 x ≤ 2 * q := by
  have hle := isNearest64_abs_le h (y := 0) ⟨rfl, by decide⟩
  rw [value64_zero, sub_zero, abs_of_nonneg hq] at hle
  linarith [(abs_le.1 hle).1]

/-! ### The default operations (R159, R160) -/

theorem isNearest64_ofNat {n : ℕ} (h : n ≤ 2 ^ 100) : IsNearest64 n (nearest64 n 1) := by
  have hdiv : (n : ℚ) / (1 : ℕ) = n := by simp
  have hle : (n : ℚ) ≤ 2 ^ 100 := by exact_mod_cast h
  rw [← hdiv] at hle ⊢
  exact isNearest64_nearest64 n Nat.one_pos (hle.trans (pow_le_pow_right₀ one_le_two (by decide)))

theorem magnitude64_mul_div (a b : DWord) :
    (((magnitude64 a).1 * (magnitude64 b).1 : ℕ) : ℚ) / ((magnitude64 a).2 * (magnitude64 b).2 : ℕ) =
      value64 a * value64 b := by
  rw [← magnitude64_div, ← magnitude64_div, Nat.cast_mul, Nat.cast_mul, div_mul_div_comm]

theorem isNearest64_mul {a b : DWord} (h : value64 a * value64 b ≤ 2 ^ 1000) :
    IsNearest64 (value64 a * value64 b) (f64Default.mul a b) := by
  rw [← magnitude64_mul_div] at h ⊢
  exact isNearest64_nearest64 _ (Nat.mul_pos (magnitude64_den_pos a) (magnitude64_den_pos b)) h

theorem isNearest64_add {a b : DWord} (h : value64 a + value64 b ≤ 2 ^ 1000) :
    IsNearest64 (value64 a + value64 b) (f64Default.add a b) := by
  have ha : ((magnitude64 a).2 : ℚ) ≠ 0 := by exact_mod_cast (magnitude64_den_pos a).ne'
  have hb : ((magnitude64 b).2 : ℚ) ≠ 0 := by exact_mod_cast (magnitude64_den_pos b).ne'
  have hdiv : (((magnitude64 a).1 * (magnitude64 b).2 + (magnitude64 b).1 * (magnitude64 a).2 : ℕ) : ℚ) /
      ((magnitude64 a).2 * (magnitude64 b).2 : ℕ) = value64 a + value64 b := by
    rw [← magnitude64_div, ← magnitude64_div, div_add_div _ _ ha hb]
    push_cast
    ring
  rw [← hdiv] at h ⊢
  exact isNearest64_nearest64 _ (Nat.mul_pos (magnitude64_den_pos a) (magnitude64_den_pos b)) h

theorem isNearest64_div {a b : DWord} (hb : 0 < value64 b) (h : value64 a / value64 b ≤ 2 ^ 1000) :
    IsNearest64 (value64 a / value64 b) (f64Default.div a b) := by
  have hnum : 0 < (magnitude64 b).1 := by
    rw [← magnitude64_div] at hb
    by_contra hzero
    rw [Nat.eq_zero_of_not_pos hzero] at hb
    simp at hb
  have hdiv : (((magnitude64 a).1 * (magnitude64 b).2 : ℕ) : ℚ) / ((magnitude64 a).2 * (magnitude64 b).1 : ℕ) =
      value64 a / value64 b := by
    rw [← magnitude64_div, ← magnitude64_div, div_div_div_eq, Nat.cast_mul, Nat.cast_mul]
  rw [← hdiv] at h ⊢
  exact isNearest64_nearest64 _ (Nat.mul_pos (magnitude64_den_pos a) hnum) h

theorem isNearest32_narrow {a : DWord} (h : value64 a ≤ 2 ^ 100) : IsNearest32 (value64 a) (f64Default.narrow a) := by
  rw [← magnitude64_div] at h ⊢
  exact isNearest32_nearest _ (magnitude64_den_pos a) h

/-! ### Exact values -/

/-- A number with a significand of `fbits + 1` bits, not below the subnormals, is a value of the format. -/
theorem RoundedAt.value_eq_of_significand {f : FloatFormat} {q : ℚ} {g m n : ℕ} {k : ℤ} (h : RoundedAt f q g m)
    (hq : q = n * 2 ^ k) (hn : n < 2 ^ (f.fbits + 1)) (hk : unitExp f 0 ≤ k) : m * 2 ^ unitExp f g = q := by
  have hunit : unitExp f g ≤ k := by
    rcases Nat.eq_zero_or_pos g with rfl | hpos
    · exact hk
    · have hn' : (n : ℚ) < 2 ^ (f.fbits + 1) := by exact_mod_cast hn
      have hlt : (2 : ℚ) ^ f.fbits * 2 ^ unitExp f g < 2 ^ (f.fbits + 1) * 2 ^ k :=
        (h.low hpos.ne').trans_lt (hq ▸ mul_lt_mul_of_pos_right hn' (two_zpow_pos k))
      rw [← zpow_natCast, ← zpow_natCast, ← zpow_add₀ two_ne_zero, ← zpow_add₀ two_ne_zero] at hlt
      have := lt_of_two_zpow_lt hlt
      push_cast at this
      omega
  obtain ⟨d, hd⟩ : ∃ d : ℕ, k = unitExp f g + d := ⟨(k - unitExp f g).toNat, by omega⟩
  have hu := two_zpow_pos (unitExp f g)
  have hwhole : q / 2 ^ unitExp f g = (n * 2 ^ d : ℕ) := by
    rw [hq, hd, zpow_add₀ two_ne_zero, zpow_natCast]
    push_cast
    field_simp
  have hm : m = n * 2 ^ d := isNearestEven_unique (hwhole ▸ h.nearest) (isNearestEven_natCast _)
  rw [hm, ← hwhole, div_mul_cancel₀ _ hu.ne']

/-- A binary64 rounding of a number with a 53-bit significand is exact. -/
theorem value64_nearest64_of_significand {num den n : ℕ} {k : ℤ} (hden : 0 < den) (hq : (num : ℚ) / den = n * 2 ^ k)
    (hn : n < 2 ^ 53) (hk : -1074 ≤ k) (hbound : (num : ℚ) / den ≤ 2 ^ 1000) :
    value64 (nearest64 num den) = num / den := by
  obtain ⟨g, m, h, hnat, hfin⟩ := nearest64_roundedAt num hden hbound
  rw [value64_eq hfin, hnat]
  exact h.value.trans (h.value_eq_of_significand hq hn hk)

theorem value64_mul_of_significand {a b : DWord} {n : ℕ} {k : ℤ} (hq : value64 a * value64 b = n * 2 ^ k)
    (hn : n < 2 ^ 53) (hk : -1074 ≤ k) (hbound : value64 a * value64 b ≤ 2 ^ 1000) :
    value64 (f64Default.mul a b) = value64 a * value64 b := by
  rw [← magnitude64_mul_div] at hq hbound ⊢
  exact value64_nearest64_of_significand (Nat.mul_pos (magnitude64_den_pos a) (magnitude64_den_pos b)) hq hn hk hbound

/-! ### The steps of DTOR8 and DTOR4 (R157, R158) -/

theorem toNat_append (hi lo : Word) : (hi ++ lo).toNat = hi.toNat * 2 ^ 32 + lo.toNat := by
  have hlo := lo.isLt
  rw [BitVec.toNat_append, Nat.shiftLeft_eq, Nat.mul_comm, ← Nat.two_pow_add_eq_or_of_lt hlo]

theorem join64_eq_append (hi lo : Word) : join64 hi lo = hi ++ lo := by
  apply BitVec.eq_of_toNat_eq
  rw [toNat_join64, toNat_append]

theorem isSteps64_decMagnitude64 (ops : F64Ops) (a : DecReg) : IsSteps64 ops a (decMagnitude64 ops a) := by
  refine ⟨_, _, _, rfl, rfl, rfl, ?_⟩
  rw [← join64_eq_append]
  rfl

theorem value64_two64 : value64 two64 = 2 ^ 64 := by
  have hvalue : value64 two64 = binary64.value (1086 + 1) 0 := rfl
  have hunit : unitExp binary64 1086 = 12 := rfl
  rw [hvalue, value_succ, hunit]
  norm_num [binary64]

theorem value64_one : value64 0x3FF0000000000000#64 = 1 := by
  have hvalue : value64 0x3FF0000000000000#64 = binary64.value (1022 + 1) 0 := rfl
  have hunit : unitExp binary64 1022 = -52 := rfl
  rw [hvalue, value_succ, hunit]
  norm_num [binary64]

/-- The entries of `POW10_F64` that are read are rounded powers, and not below 1. -/
theorem pow10F64_spec {k : ℕ} (hk : k ≤ scaleMax) :
    IsNearest64 (10 ^ k) (pow10F64 k) ∧ 1 ≤ value64 (pow10F64 k) := by
  have hmax : scaleMax = 28 := rfl
  have htable : f64TableMax = 80 := rfl
  have hbound : 10 ^ k ≤ 2 ^ 100 := (Nat.pow_le_pow_right (by decide) hk).trans (by decide : 10 ^ scaleMax ≤ 2 ^ 100)
  have hnearest := isNearest64_ofNat hbound
  rw [Nat.cast_pow, Nat.cast_ofNat, ← pow10F64_of_le (by omega)] at hnearest
  refine ⟨hnearest, ?_⟩
  have hone : (1 : ℚ) ≤ 10 ^ k := one_le_pow₀ (by norm_num)
  have hle := isNearest64_abs_le hnearest (y := 0x3FF0000000000000#64) ⟨rfl, by decide⟩
  rw [value64_one, abs_of_nonneg (sub_nonneg.2 hone)] at hle
  linarith [(abs_le.1 hle).2]

/-- The upper mantissa word times `2^64` is exact: it has 32 significant bits. -/
theorem default_hi_exact (hi : Word) :
    IsNearest64 (hi.toNat * 2 ^ 64) (f64Default.mul (f64Default.ofU32 hi) two64) ∧
      value64 (f64Default.mul (f64Default.ofU32 hi) two64) = hi.toNat * 2 ^ 64 := by
  have hlt : (hi.toNat : ℚ) ≤ 2 ^ 32 := by exact_mod_cast hi.isLt.le
  have hword : value64 (f64Default.ofU32 hi) = hi.toNat := by
    have hdiv : (hi.toNat : ℚ) / (1 : ℕ) = hi.toNat := by simp
    refine (value64_nearest64_of_significand (n := hi.toNat) (k := 0) Nat.one_pos (by simp)
      (hi.isLt.trans (by decide)) (by decide) ?_).trans hdiv
    rw [hdiv]
    exact hlt.trans (pow_le_pow_right₀ one_le_two (by decide))
  have hbound : value64 (f64Default.ofU32 hi) * value64 two64 ≤ 2 ^ 1000 := by
    rw [hword, value64_two64]
    calc (hi.toNat : ℚ) * 2 ^ 64 ≤ 2 ^ 32 * 2 ^ 64 := mul_le_mul_of_nonneg_right hlt (by positivity)
      _ = 2 ^ 96 := by norm_num
      _ ≤ 2 ^ 1000 := pow_le_pow_right₀ one_le_two (by decide)
  have hexact := value64_mul_of_significand (n := hi.toNat) (k := 64) (by rw [hword, value64_two64]; norm_num)
    (hi.isLt.trans (by decide)) (by decide) hbound
  have hnearest := isNearest64_mul hbound
  rw [hword, value64_two64] at hnearest hexact
  exact ⟨hnearest, hexact⟩

/-- With the default operations every step is correctly rounded, because no intermediate value is out of range; the
magnitude stays below `2^100`. -/
theorem isMagnitude64_default {a : DecReg} (hv : a.valid = true) :
    IsMagnitude64 a (decMagnitude64 f64Default a) ∧ value64 (decMagnitude64 f64Default a) ≤ 2 ^ 100 := by
  obtain ⟨hhi, hhiExact⟩ := default_hi_exact a.hi
  obtain ⟨hpow, hpowOne⟩ := pow10F64_spec (k := a.scale) (inRange_of_valid hv).2
  have hhuge : (2 : ℚ) ^ 100 ≤ 2 ^ 1000 := pow_le_pow_right₀ one_le_two (by decide)
  have hjoin : ((join64 a.mid a.lo).toNat : ℚ) = a.mid.toNat * 2 ^ 32 + a.lo.toNat := by
    rw [toNat_join64]
    push_cast
    rfl
  have hjoinLt : ((join64 a.mid a.lo).toNat : ℚ) ≤ 2 ^ 64 := by exact_mod_cast (join64 a.mid a.lo).isLt.le
  have hhiLt : (a.hi.toNat : ℚ) ≤ 2 ^ 32 := by exact_mod_cast a.hi.isLt.le
  have hlo : IsNearest64 (join64 a.mid a.lo).toNat (f64Default.ofU64 (join64 a.mid a.lo)) :=
    isNearest64_ofNat ((join64 a.mid a.lo).isLt.le.trans (Nat.pow_le_pow_right (by decide) (by decide)))
  have hloLe := value64_le_two_mul (Nat.cast_nonneg _) hlo
  have hsum : value64 (f64Default.ofU64 (join64 a.mid a.lo)) +
      value64 (f64Default.mul (f64Default.ofU32 a.hi) two64) ≤ 2 ^ 97 := by
    rw [hhiExact]
    linarith only [hloLe, hjoinLt, hhiLt]
  have hadd := isNearest64_add (hsum.trans ((pow_le_pow_right₀ one_le_two (by decide)).trans hhuge))
  have haddLe := value64_le_two_mul (add_nonneg (value64_nonneg _) (value64_nonneg _)) hadd
  have hquot : value64 (f64Default.add (f64Default.ofU64 (join64 a.mid a.lo))
      (f64Default.mul (f64Default.ofU32 a.hi) two64)) / value64 (pow10F64 a.scale) ≤ 2 ^ 98 := by
    refine (div_le_self (value64_nonneg _) hpowOne).trans ?_
    linarith only [haddLe, hsum]
  have hdiv := isNearest64_div (zero_lt_one.trans_le hpowOne)
    (hquot.trans ((pow_le_pow_right₀ one_le_two (by decide)).trans hhuge))
  have hdivLe := value64_le_two_mul (div_nonneg (value64_nonneg _) (value64_nonneg _)) hdiv
  refine ⟨⟨_, _, _, _, hjoin ▸ hlo, hhi, hhiExact, hadd, hpow, hdiv⟩, hdivLe.trans ?_⟩
  linarith only [hquot]

/-! ### The sign bit (R157, R158) -/

/-- The magnitude has sign bit 0 at every setting of `F64_OPS`. -/
theorem decMagnitude64_top (setting : F64Setting) {a : DecReg} (hv : a.valid = true) :
    (decMagnitude64 (f64Of setting) a).getLsbD 63 = false := by
  cases setting with
  | nearestEven =>
    obtain ⟨⟨_, _, _, _, -, -, -, -, -, hdiv⟩, -⟩ := isMagnitude64_default hv
    exact hdiv.1.1
  | other id => exact nonNegative_div_msb _ _ _

theorem narrow_decMagnitude64_top (setting : F64Setting) {a : DecReg} (hv : a.valid = true) :
    ((f64Of setting).narrow (decMagnitude64 (f64Of setting) a)).getLsbD 31 = false := by
  cases setting with
  | nearestEven => exact (isNearest32_narrow (isMagnitude64_default hv).2).1.1
  | other id => exact nonNegative_narrow_msb _ _

/-- Adding the sign sets a clear top bit. -/
theorem sign_add_eq {w : ℕ} (neg : Bool) {x : BitVec (w + 1)} (hx : x.getLsbD w = false) :
    BitVec.ofNat (w + 1) (neg.toNat * 2 ^ w) + x = if neg then x ||| BitVec.twoPow (w + 1) w else x := by
  cases neg with
  | false => simp
  | true =>
    have hand : BitVec.twoPow (w + 1) w &&& x = 0#(w + 1) := by
      rw [BitVec.twoPow_and, hx]
      rfl
    have hbit : BitVec.ofNat (w + 1) (2 ^ w) = BitVec.twoPow (w + 1) w :=
      BitVec.eq_of_toNat_eq (by rw [BitVec.toNat_ofNat, BitVec.toNat_twoPow])
    rw [Bool.toNat_true, Nat.one_mul, hbit, BitVec.add_eq_or_of_and_eq_zero _ _ hand,
      BitVec.or_comm, if_pos rfl]

theorem decToBinary64_eq (setting : F64Setting) {a : DecReg} (hv : a.valid = true) :
    decToBinary64 (f64Of setting) a = if a.sign then decMagnitude64 (f64Of setting) a ||| 0x8000000000000000#64
      else decMagnitude64 (f64Of setting) a :=
  sign_add_eq (w := 63) a.sign (decMagnitude64_top setting hv)

theorem decToBinary32_eq (setting : F64Setting) {a : DecReg} (hv : a.valid = true) :
    decToBinary32 (f64Of setting) a =
      if a.sign then (f64Of setting).narrow (decMagnitude64 (f64Of setting) a) ||| 0x80000000#32
      else (f64Of setting).narrow (decMagnitude64 (f64Of setting) a) :=
  sign_add_eq (w := 31) a.sign (narrow_decMagnitude64_top setting hv)

/-! ### The obligations -/

/-- Settles O57, from the rounding in units of the last place. -/
theorem floatRoundingIsNearestEven : Obligations.FloatRoundingIsNearestEven :=
  ⟨fun num _ hden => isNearest64_nearest64 num hden, fun num _ hden => isNearest32_nearest num hden⟩

/-- Settles O42: the steps are those of the machine's operations, and the sign is added to a clear bit. -/
theorem dtor8Result : Obligations.Dtor8Result := by
  intro r s
  refine ⟨rfl, valueCommand_single_of_invalid _ s _, fun hv =>
    ⟨_, isSteps64_decMagnitude64 _ _, fun hdefault => ?_, ?_⟩⟩
  · rw [hdefault]
    exact (isMagnitude64_default hv).1
  · rw [← decToBinary64_eq _ hv]
    exact valueCommand_single_of_valid _ s _ hv

/-- Settles O43: the magnitude of DTOR8, narrowed. -/
theorem dtor4Result : Obligations.Dtor4Result := by
  intro r s
  refine ⟨rfl, valueCommand_single_of_invalid _ s _, fun hv =>
    ⟨_, _, isSteps64_decMagnitude64 _ _, rfl, fun hdefault => ?_, ?_⟩⟩
  · rw [hdefault]
    exact ⟨(isMagnitude64_default hv).1, isNearest32_narrow (isMagnitude64_default hv).2⟩
  · rw [← decToBinary32_eq _ hv]
    exact valueCommand_single_of_valid _ s _ hv

end Sys2Proof.Proofs

/-! PROOFS. R8TOD and R4TOD (spec/43_convert.md R152 to R156; spec/93_implementation_defined.md U16). The value is scaled to
`digits` significant digits and rounded to an integer. The default rounds the exact number; the binary64 product or
quotient, which any other setting may round instead, is so close that the integer differs in the last digit at most. The
largest value below `2^96` leaves enough room to the next integer that no setting overflows. -/

namespace Sys2Proof.Proofs

open Sys2Proof.Machine Sys2Proof.Config Sys2Proof.Laws

/-! ### The error of a binary64 rounding (R159) -/

/-- The relative error of a binary64 rounding is `2^-53` at most, and below 1 the error is no greater than for 1. -/
theorem abs_sub_nearest64_le (num : ℕ) {den : ℕ} (hden : 0 < den) (hq : (num : ℚ) / den ≤ 2 ^ 1000) :
    |(num : ℚ) / den - value64 (nearest64 num den)| ≤ max ((num : ℚ) / den) 1 / 2 ^ 53 := by
  obtain ⟨g, m, h, hnat, hfin⟩ := nearest64_roundedAt num hden hq
  have hvalue : value64 (nearest64 num den) = m * 2 ^ unitExp binary64 g := by
    rw [value64_eq hfin, hnat]
    exact h.value
  have herror : |(num : ℚ) / den - m * 2 ^ unitExp binary64 g| ≤ 1 / 2 * 2 ^ unitExp binary64 g := by
    rw [abs_sub_units]
    exact mul_le_mul_of_nonneg_right h.nearest.1 (two_zpow_pos _).le
  have hunit : (2 : ℚ) ^ 52 * 2 ^ unitExp binary64 g ≤ max ((num : ℚ) / den) 1 := by
    rcases Nat.eq_zero_or_pos g with rfl | hpos
    · have hsmall : (2 : ℚ) ^ unitExp binary64 0 ≤ 2 ^ (-52 : ℤ) := two_zpow_le (by decide)
      calc (2 : ℚ) ^ 52 * 2 ^ unitExp binary64 0 ≤ 2 ^ 52 * 2 ^ (-52 : ℤ) :=
            mul_le_mul_of_nonneg_left hsmall (by positivity)
        _ = 1 := by norm_num
        _ ≤ max ((num : ℚ) / den) 1 := le_max_right _ _
    · exact (h.low hpos.ne').trans (le_max_left _ _)
  rw [hvalue]
  linarith only [herror, hunit]

/-- Rounding a binary64 value to an integer adds half a unit to its error. -/
theorem abs_sub_roundedValue64_le (num : ℕ) {den : ℕ} (hden : 0 < den) (hq : (num : ℚ) / den ≤ 2 ^ 1000) :
    |(num : ℚ) / den - roundedValue64 (nearest64 num den)| ≤ ((num : ℚ) / den + 1) / 2 ^ 53 + 1 / 2 := by
  have hmax : max ((num : ℚ) / den) 1 ≤ num / den + 1 :=
    max_le_add_of_nonneg (div_nonneg (Nat.cast_nonneg _) (Nat.cast_nonneg _)) zero_le_one
  have hround := (isNearestEven_rhe (magnitude64 (nearest64 num den)).1 (magnitude64_den_pos (nearest64 num den))).1
  rw [magnitude64_div] at hround
  exact (abs_sub_le _ (value64 (nearest64 num den)) _).trans
    (add_le_add ((abs_sub_nearest64_le num hden hq).trans (div_le_div_of_nonneg_right hmax (by positivity))) hround)

/-! ### The entries of `POW10_F64` (R34) -/

theorem ten_pow_le_two_pow {p : ℕ} (hp : p ≤ scaleMax) : (10 : ℚ) ^ p ≤ 2 ^ 1000 :=
  calc (10 : ℚ) ^ p ≤ 10 ^ 28 := pow_le_pow_right₀ (by norm_num) hp
    _ ≤ 2 ^ 100 := by norm_num
    _ ≤ 2 ^ 1000 := pow_le_pow_right₀ one_le_two (by decide)

/-- The entries that scaling reads are rounded powers. -/
theorem pow10F64_eq {p : ℕ} (hp : p ≤ scaleMax) : pow10F64 p = nearest64 (10 ^ p) 1 := by
  have hmax : scaleMax = 28 := rfl
  have htable : f64TableMax = 80 := rfl
  exact pow10F64_of_le (by omega)

theorem ten_pow_div_one (p : ℕ) : ((10 ^ p : ℕ) : ℚ) / (1 : ℕ) = 10 ^ p := by simp

theorem magnitude64_pow10F64_num_pos {p : ℕ} (hp : p ≤ scaleMax) : 0 < (magnitude64 (pow10F64 p)).1 := by
  have hone := (pow10F64_spec hp).2
  rw [← magnitude64_div] at hone
  by_contra hzero
  rw [Nat.eq_zero_of_not_pos hzero, Nat.cast_zero, zero_div] at hone
  exact absurd hone (by norm_num)

theorem abs_sub_pow10F64_le {p : ℕ} (hp : p ≤ scaleMax) :
    |(10 : ℚ) ^ p - value64 (pow10F64 p)| ≤ 10 ^ p / 2 ^ 53 := by
  have hone : (1 : ℚ) ≤ 10 ^ p := one_le_pow₀ (by norm_num)
  have herror := abs_sub_nearest64_le (10 ^ p) Nat.one_pos ((ten_pow_div_one p).trans_le (ten_pow_le_two_pow hp))
  rwa [ten_pow_div_one, max_eq_left hone, ← pow10F64_eq hp] at herror

/-- The powers up to `10^22` have binary64 patterns, for `5^22 < 2^53`. -/
theorem value64_pow10F64 {p : ℕ} (hp : p ≤ 22) : value64 (pow10F64 p) = 10 ^ p := by
  have hp' : p ≤ scaleMax := hp.trans (by decide)
  have hsplit : ((10 ^ p : ℕ) : ℚ) / (1 : ℕ) = (5 ^ p : ℕ) * 2 ^ (p : ℤ) := by
    rw [ten_pow_div_one, zpow_natCast, Nat.cast_pow, Nat.cast_ofNat, ← mul_pow]
    norm_num
  have hfive : 5 ^ p < 2 ^ 53 := (Nat.pow_le_pow_right (by decide) hp).trans_lt (by decide)
  rw [pow10F64_eq hp']
  exact (value64_nearest64_of_significand Nat.one_pos hsplit hfive (by omega)
    ((ten_pow_div_one p).trans_le (ten_pow_le_two_pow hp'))).trans (ten_pow_div_one p)

/-! ### The two scalings (R154, U16) -/

theorem le_of_abs_sub_le_rel {q y : ℚ} (hq : q < 10 ^ 15) (h : |q - y| ≤ q / 2 ^ 53) : y ≤ 10 ^ 15 + 1 := by
  linarith only [hq, (abs_le.1 h).1]

/-- The two roundings of a product below `10^15`. -/
theorem abs_sub_le_of_roundings {q y m : ℚ} (hq : q < 10 ^ 15) (h : |q - y| ≤ q / 2 ^ 53)
    (hround : |y - m| ≤ (y + 1) / 2 ^ 53 + 1 / 2) : |q - m| ≤ 3 / 4 := by
  have hy := le_of_abs_sub_le_rel hq h
  have hsum := (abs_sub_le q y m).trans (add_le_add h hround)
  linarith only [hq, hy, hsum]

/-- The binary64 product is off by little more than half a unit. -/
theorem abs_sub_scalingBinary64_up_le {num den p : ℕ} (hden : 0 < den) (hp : p ≤ scaleMax)
    (hq : (num : ℚ) / den * 10 ^ p < 10 ^ 15) :
    |(num : ℚ) / den * 10 ^ p - scalingBinary64.up num den p| ≤ 3 / 4 := by
  have hproduct : ((num * (magnitude64 (pow10F64 p)).1 : ℕ) : ℚ) / (den * (magnitude64 (pow10F64 p)).2 : ℕ) =
      num / den * value64 (pow10F64 p) := by
    rw [← magnitude64_div, Nat.cast_mul, Nat.cast_mul, div_mul_div_comm]
  have hentry : |(num : ℚ) / den * 10 ^ p - num / den * value64 (pow10F64 p)| ≤ num / den * 10 ^ p / 2 ^ 53 := by
    have hnonneg : (0 : ℚ) ≤ num / den := div_nonneg (Nat.cast_nonneg _) (Nat.cast_nonneg _)
    rw [← mul_sub, abs_mul, abs_of_nonneg hnonneg, mul_div_assoc]
    exact mul_le_mul_of_nonneg_left (abs_sub_pow10F64_le hp) hnonneg
  have hsmall := le_of_abs_sub_le_rel hq hentry
  have hround := abs_sub_roundedValue64_le (num * (magnitude64 (pow10F64 p)).1)
    (Nat.mul_pos hden (magnitude64_den_pos (pow10F64 p)))
    (hproduct.trans_le (hsmall.trans ((by norm_num : (10 : ℚ) ^ 15 + 1 ≤ 2 ^ 100).trans
      (pow_le_pow_right₀ one_le_two (by decide)))))
  rw [hproduct] at hround
  exact abs_sub_le_of_roundings hq hentry hround

/-- The binary64 quotient is off by little more than half a unit: the divisor is exact. -/
theorem abs_sub_scalingBinary64_down_le {num den p : ℕ} (hden : 0 < den) (hp : p ≤ 22)
    (hq : (num : ℚ) / den / 10 ^ p < 10 ^ 15) :
    |(num : ℚ) / den / 10 ^ p - scalingBinary64.down num den p| ≤ ((num : ℚ) / den / 10 ^ p + 1) / 2 ^ 53 + 1 / 2 := by
  have hquotient : ((num * (magnitude64 (pow10F64 p)).2 : ℕ) : ℚ) / (den * (magnitude64 (pow10F64 p)).1 : ℕ) =
      num / den / 10 ^ p := by
    rw [← value64_pow10F64 hp, ← magnitude64_div, Nat.cast_mul, Nat.cast_mul, div_div_div_eq]
  rw [← hquotient]
  refine abs_sub_roundedValue64_le _ (Nat.mul_pos hden (magnitude64_pow10F64_num_pos (hp.trans (by decide)))) ?_
  exact hquotient.trans_le (hq.le.trans ((by norm_num : (10 : ℚ) ^ 15 ≤ 2 ^ 100).trans
    (pow_le_pow_right₀ one_le_two (by decide))))

theorem isNearestEven_scalingDefault_up (num p : ℕ) {den : ℕ} (hden : 0 < den) :
    IsNearestEven (num / den * 10 ^ p) (scalingDefault.up num den p) := by
  have hround := isNearestEven_rhe (num * 10 ^ p) hden
  rwa [Nat.cast_mul, Nat.cast_pow, Nat.cast_ofNat, mul_div_right_comm] at hround

theorem isNearestEven_scalingDefault_down (num p : ℕ) {den : ℕ} (hden : 0 < den) :
    IsNearestEven (num / den / 10 ^ p) (scalingDefault.down num den p) := by
  have hround := isNearestEven_rhe num (Nat.mul_pos hden (pow_pos (by decide : 0 < 10) p))
  rwa [Nat.cast_mul, Nat.cast_pow, Nat.cast_ofNat, ← div_div] at hround

/-- Whatever the setting, scaling up is off by three quarters of a unit at most. -/
theorem abs_sub_scalingOf_up_le (c : ScalingSetting) {num den p : ℕ} (hden : 0 < den) (hp : p ≤ scaleMax)
    (hq : (num : ℚ) / den * 10 ^ p < 10 ^ 15) :
    |(num : ℚ) / den * 10 ^ p - (scalingOf c).up num den p| ≤ 3 / 4 := by
  rcases scalingOf_up_cases c num den p with h | h
  · rw [h]
    exact (isNearestEven_scalingDefault_up num p hden).1.trans (by norm_num)
  · rw [h]
    exact abs_sub_scalingBinary64_up_le hden hp hq

/-- Whatever the setting, scaling down is off by little more than half a unit. -/
theorem abs_sub_scalingOf_down_le (c : ScalingSetting) {num den p : ℕ} (hden : 0 < den) (hp : p ≤ 22)
    (hq : (num : ℚ) / den / 10 ^ p < 10 ^ 15) :
    |(num : ℚ) / den / 10 ^ p - (scalingOf c).down num den p| ≤ ((num : ℚ) / den / 10 ^ p + 1) / 2 ^ 53 + 1 / 2 := by
  rcases scalingOf_down_cases c num den p with h | h
  · rw [h]
    exact (isNearestEven_scalingDefault_down num p hden).1.trans (le_add_of_nonneg_left (by positivity))
  · rw [h]
    exact abs_sub_scalingBinary64_down_le hden hp hq

/-! ### The decimal exponent (R154) -/

/-- The search finds the exponent of every magnitude that is neither too small nor too large. -/
theorem decimalExponent_spec {num den : ℕ} (hden : 0 < den) (hlow : (2 : ℚ) ^ (-95 : ℤ) ≤ num / den)
    (hhigh : (num : ℚ) / den < 2 ^ 96) :
    (10 : ℚ) ^ decimalExponent num den ≤ num / den ∧ (num : ℚ) / den < 10 ^ (decimalExponent num den + 1) ∧
      decimalExponent num den ≤ 28 := by
  have hden' : (0 : ℚ) < den := by exact_mod_cast hden
  have htest : ∀ j : ℕ, den * 10 ^ j ≤ num * 10 ^ 29 ↔ (10 : ℚ) ^ ((j : ℤ) - 29) ≤ num / den := by
    intro j
    rw [zpow_sub₀ (by norm_num), zpow_natCast, div_le_div_iff₀ (by positivity) hden', mul_comm ((10 : ℚ) ^ j)]
    exact_mod_cast Iff.rfl
  have hzero : decide (den * 10 ^ 0 ≤ num * 10 ^ 29) = true := by
    refine decide_eq_true ((htest 0).2 (le_trans ?_ hlow))
    norm_num
  rw [decimalExponent]
  cases hfind : findDown (fun j => decide (den * 10 ^ j ≤ num * 10 ^ 29)) 57 with
  | none => exact absurd hzero (ne_true_of_eq_false (findDown_eq_none.1 hfind 0 (Nat.zero_le _)))
  | some j =>
    obtain ⟨hj, hpass, hmax⟩ := findDown_eq_some.1 hfind
    refine ⟨(htest j).1 (of_decide_eq_true hpass), ?_, ?_⟩
    · rcases hj.lt_or_eq with hlt | rfl
      · have hfail := mt (htest (j + 1)).2 (of_decide_eq_false (hmax (j + 1) (Nat.lt_succ_self j) hlt))
        have hexp : ((j + 1 : ℕ) : ℤ) - 29 = (j : ℤ) - 29 + 1 := by
          push_cast
          ring
        rw [hexp] at hfail
        exact not_le.1 hfail
      · exact hhigh.trans (by norm_num)
    · rw [Option.getD_some]
      omega

end Sys2Proof.Proofs

/-! PROOFS. FloatToDec and the commands R8TOD and R4TOD (spec/43_convert.md R152 to R156). Each branch of FloatToDec has an
equation; with what the scaling rounds to they give the result for every magnitude below `2^96`. The exponent field bounds
the value on both sides, which gives the thresholds. -/

namespace Sys2Proof.Proofs

open Sys2Proof.Machine Sys2Proof.Config Sys2Proof.Laws

/-! ### What the machine's scaling rounds to -/

/-- With this setting the scaled values below `10^digits` are rounded as `rounds` says. -/
structure ScalesBy (c : ScalingSetting) (rounds : ℚ → ℕ → Prop) (digits : ℕ) : Prop where
  up : ∀ {num den p : ℕ}, 0 < den → p ≤ scaleMax → (num : ℚ) / den * 10 ^ p < 10 ^ digits →
    rounds (num / den * 10 ^ p) ((scalingOf c).up num den p)
  down : ∀ {num den p : ℕ}, 0 < den → p ≤ 22 → (num : ℚ) / den / 10 ^ p < 10 ^ digits →
    rounds (num / den / 10 ^ p) ((scalingOf c).down num den p)

theorem scalesBy_exactRational (digits : ℕ) : ScalesBy .exactRational IsNearestEven digits :=
  ⟨fun hden _ _ => isNearestEven_scalingDefault_up _ _ hden, fun hden _ _ => isNearestEven_scalingDefault_down _ _ hden⟩

theorem le_ten_pow_of_abs_sub_le {q : ℚ} {m digits : ℕ} (hq : q < 10 ^ digits) (h : |q - m| ≤ 3 / 4) :
    m ≤ 10 ^ digits := by
  have hlt : (m : ℚ) < (10 ^ digits + 1 : ℕ) := by
    push_cast
    linarith only [hq, (abs_le.1 h).1]
  exact Nat.lt_succ_iff.1 (by exact_mod_cast hlt)

theorem quarter_of_lt {q : ℚ} (hq : q < 10 ^ 15) : (q + 1) / 2 ^ 53 + 1 / 2 ≤ 3 / 4 := by
  linarith only [hq]

theorem scalesBy_isNearLastDigit (c : ScalingSetting) {digits : ℕ} (hdigits : digits ≤ 15) :
    ScalesBy c (IsNearLastDigit digits) digits := by
  have hbound : (10 : ℚ) ^ digits ≤ 10 ^ 15 := pow_le_pow_right₀ (by norm_num) hdigits
  refine ⟨fun hden hp hq => ?_, fun hden hp hq => ?_⟩
  · have herror := abs_sub_scalingOf_up_le c hden hp (hq.trans_le hbound)
    exact ⟨herror, le_ten_pow_of_abs_sub_le hq herror⟩
  · have herror := (abs_sub_scalingOf_down_le c hden hp (hq.trans_le hbound)).trans (quarter_of_lt (hq.trans_le hbound))
    exact ⟨herror, le_ten_pow_of_abs_sub_le hq herror⟩

/-! ### The branches of FloatToDec (R154) -/

section
variable {sc : FromFloatScaling} {f : FloatFormat} {digits : ℕ} {sgn : Bool} {E F : ℕ}

theorem two_pow_le_value_iff :
    (f.magnitude E F).2 * 2 ^ 96 ≤ (f.magnitude E F).1 ↔ (2 : ℚ) ^ 96 ≤ f.value E F := by
  have hden : (0 : ℚ) < (f.magnitude E F).2 := by exact_mod_cast magnitude_den_pos f E F
  rw [← magnitude_div, le_div_iff₀ hden, mul_comm]
  exact_mod_cast Iff.rfl

theorem value_lt_two_zpow_iff :
    (f.magnitude E F).1 * 2 ^ 95 < (f.magnitude E F).2 ↔ f.value E F < (2 : ℚ) ^ (-95 : ℤ) := by
  have hden : (0 : ℚ) < (f.magnitude E F).2 := by exact_mod_cast magnitude_den_pos f E F
  have hpow : (2 : ℚ) ^ (-95 : ℤ) = 1 / 2 ^ 95 := by norm_num
  rw [← magnitude_div, hpow, div_lt_div_iff₀ hden (by positivity), one_mul]
  exact_mod_cast Iff.rfl

/-- Infinities, not-a-numbers and large magnitudes overflow (R154 (a), (b)). -/
theorem floatToDec_eq_none (h : E = 2 ^ f.ebits - 1 ∨ (2 : ℚ) ^ 96 ≤ f.value E F) :
    floatToDec sc f digits sgn E F = none := by
  rw [← two_pow_le_value_iff] at h
  simp only [floatToDec]
  by_cases hE : E = 2 ^ f.ebits - 1
  · rw [if_pos hE]
  · rw [if_neg hE, if_pos (h.resolve_left hE)]

/-- Small magnitudes are the zero record (R154 (c)). -/
theorem floatToDec_eq_zeroDec (hE : E ≠ 2 ^ f.ebits - 1) (h : f.value E F < (2 : ℚ) ^ (-95 : ℤ)) :
    floatToDec sc f digits sgn E F = some zeroDec := by
  have hlarge : ¬(2 : ℚ) ^ 96 ≤ f.value E F := not_le.2 (h.trans (by norm_num))
  rw [← two_pow_le_value_iff] at hlarge
  rw [← value_lt_two_zpow_iff] at h
  simp only [floatToDec]
  rw [if_neg hE, if_neg hlarge, if_pos h]

variable (hE : E ≠ 2 ^ f.ebits - 1) (hlow : (2 : ℚ) ^ (-95 : ℤ) ≤ f.value E F) (hhigh : f.value E F < 2 ^ 96)
include hE hlow hhigh

/-- The result of scaling up: the rounded integer without its trailing zeros. -/
theorem floatToDec_up {p m : ℕ}
    (hp : (p : ℤ) = min (digits - 1 - decimalExponent (f.magnitude E F).1 (f.magnitude E F).2) scaleMax)
    (hm : sc.up (f.magnitude E F).1 (f.magnitude E F).2 p = m) :
    floatToDec sc f digits sgn E F = some (if m = 0 then zeroDec else
      ⟨m / 10 ^ removable m (min p (digits - 1)), p - removable m (min p (digits - 1)), sgn⟩) := by
  have hlarge := mt two_pow_le_value_iff.1 (not_le.2 hhigh)
  have hsmall := mt value_lt_two_zpow_iff.1 (not_lt.2 hlow)
  simp only [floatToDec]
  rw [if_neg hE, if_neg hlarge, if_neg hsmall, ← hp, if_pos (Int.natCast_nonneg p), Int.toNat_natCast, hm]
  split_ifs with hzero
  · rfl
  · rw [removable, if_neg hzero, min_assoc]

/-- The result of scaling down: the rounded integer, scaled up again. -/
theorem floatToDec_down {k m : ℕ} (hk : 0 < k)
    (hkdef : (k : ℤ) = decimalExponent (f.magnitude E F).1 (f.magnitude E F).2 + 1 - digits)
    (hm : sc.down (f.magnitude E F).1 (f.magnitude E F).2 k = m) (hfits : m * 10 ^ k ≤ max96) :
    floatToDec sc f digits sgn E F = some ⟨m * 10 ^ k, 0, sgn⟩ := by
  have hp : -(k : ℤ) = min (digits - 1 - decimalExponent (f.magnitude E F).1 (f.magnitude E F).2) scaleMax := by
    rw [min_eq_left] <;> omega
  have hlarge := mt two_pow_le_value_iff.1 (not_le.2 hhigh)
  have hsmall := mt value_lt_two_zpow_iff.1 (not_lt.2 hlow)
  simp only [floatToDec]
  rw [if_neg hE, if_neg hlarge, if_neg hsmall, ← hp, if_neg (by omega), neg_neg, Int.toNat_natCast, hm,
    if_neg (not_lt.2 hfits)]

end

/-! ### What FloatToDec gives (R154) -/

section
variable {rounds : ℚ → ℕ → Prop} {x : ℚ} {digits m : ℕ} {sgn : Bool} {e : ℤ}

theorem isFromFloat_zeroDec (h : x < (2 : ℚ) ^ (-95 : ℤ)) : IsFromFloat rounds x digits sgn zeroDec :=
  ⟨fun _ => rfl, fun hlow => absurd hlow (not_le.2 h)⟩

theorem isFromFloat_up (hlow : (2 : ℚ) ^ (-95 : ℤ) ≤ x) (hle : (10 : ℚ) ^ e ≤ x) (hlt : x < 10 ^ (e + 1)) {p : ℕ}
    (hp : (p : ℤ) = min (digits - 1 - e) scaleMax) (hround : rounds (x * 10 ^ p) m) :
    IsFromFloat rounds x digits sgn (if m = 0 then zeroDec else
      ⟨m / 10 ^ removable m (min p (digits - 1)), p - removable m (min p (digits - 1)), sgn⟩) := by
  refine ⟨fun h => absurd hlow (not_le.2 h), fun _ => ⟨e, p, m, hle, hlt, hp, ?_, fun hzero => if_pos hzero,
    fun hne _ => ⟨_, removesZeros_removable m _, if_neg hne⟩, fun hneg => absurd hneg (by omega)⟩⟩
  rwa [zpow_natCast]

theorem isFromFloat_down (hlow : (2 : ℚ) ^ (-95 : ℤ) ≤ x) (hle : (10 : ℚ) ^ e ≤ x) (hlt : x < 10 ^ (e + 1)) {k : ℕ}
    (hk : 0 < k) (hkdef : (k : ℤ) = e + 1 - digits) (hround : rounds (x / 10 ^ k) m) (hm : m ≠ 0) :
    IsFromFloat rounds x digits sgn ⟨m * 10 ^ k, 0, sgn⟩ := by
  have hp : -(k : ℤ) = min (digits - 1 - e) scaleMax := by
    rw [min_eq_left] <;> omega
  refine ⟨fun h => absurd hlow (not_le.2 h), fun _ => ⟨e, -k, m, hle, hlt, hp, ?_, fun hzero => absurd hzero hm,
    fun _ hnonneg => absurd hnonneg (by omega), fun _ => ?_⟩⟩
  · rwa [zpow_neg, zpow_natCast, ← div_eq_mul_inv]
  · rw [neg_neg, Int.toNat_natCast]

/-- A value with `digits` digits before the point is scaled down to at least 1, and so not to 0. -/
theorem ne_zero_of_abs_sub_le {q : ℚ} (hone : 1 ≤ q) (herror : |q - m| ≤ (q + 1) / 2 ^ 53 + 1 / 2) : m ≠ 0 := by
  rintro rfl
  rw [Nat.cast_zero, sub_zero, abs_of_nonneg (by linarith)] at herror
  linarith

/-- Below `10^28` there is room for the rounding. -/
theorem scaled_down_le_of_lt (hdigits : digits ≤ 15) (hlt : x < 10 ^ (e + 1)) (he : e < 28) {k : ℕ}
    (hk : (k : ℤ) = e + 1 - digits) (herror : |x / 10 ^ k - m| ≤ (x / 10 ^ k + 1) / 2 ^ 53 + 1 / 2) :
    m * 10 ^ k ≤ max96 := by
  have hpos : (0 : ℚ) < 10 ^ k := pow_pos (by norm_num) k
  have hexp : e + 1 = ((digits + k : ℕ) : ℤ) := by omega
  have hq : x / 10 ^ k < 10 ^ digits := by
    rwa [div_lt_iff₀ hpos, ← pow_add, ← zpow_natCast (10 : ℚ) (digits + k), ← hexp]
  have hbound : (10 : ℚ) ^ digits ≤ 10 ^ 15 := pow_le_pow_right₀ (by norm_num) hdigits
  have hm : m ≤ 10 ^ digits := le_ten_pow_of_abs_sub_le hq (herror.trans (quarter_of_lt (hq.trans_le hbound)))
  calc m * 10 ^ k ≤ 10 ^ digits * 10 ^ k := Nat.mul_le_mul_right _ hm
    _ = 10 ^ (digits + k) := (pow_add _ _ _).symm
    _ ≤ 10 ^ 28 := Nat.pow_le_pow_right (by decide) (by omega)
    _ ≤ max96 := by decide

/-- The largest scaled value and its error stay below the next integer. -/
theorem scaled_down_le_of_room (hhigh : x < 2 ^ 96) {k N : ℕ}
    (hroom : (2 : ℚ) ^ 96 / 10 ^ k + ((2 ^ 96 / 10 ^ k + 1) / 2 ^ 53 + 1 / 2) ≤ (N + 1 : ℕ)) (hfits : N * 10 ^ k ≤ max96)
    (herror : |x / 10 ^ k - m| ≤ (x / 10 ^ k + 1) / 2 ^ 53 + 1 / 2) : m * 10 ^ k ≤ max96 := by
  have hq : x / 10 ^ k < 2 ^ 96 / 10 ^ k := div_lt_div_of_pos_right hhigh (pow_pos (by norm_num) k)
  have hm : (m : ℚ) < (N + 1 : ℕ) := by linarith only [hq, hroom, (abs_le.1 herror).1]
  exact (Nat.mul_le_mul_right _ (Nat.lt_succ_iff.1 (by exact_mod_cast hm))).trans hfits

/-- Scaling down and up again stays within 96 bits. -/
theorem scaled_down_le_max96 (hdigits : digits = r8Digits ∨ digits = r4Digits) (hhigh : x < 2 ^ 96)
    (hlt : x < 10 ^ (e + 1)) (he : e ≤ 28) {k : ℕ} (hk : (k : ℤ) = e + 1 - digits)
    (herror : |x / 10 ^ k - m| ≤ (x / 10 ^ k + 1) / 2 ^ 53 + 1 / 2) : m * 10 ^ k ≤ max96 := by
  have hr8 : r8Digits = 15 := rfl
  have hr4 : r4Digits = 7 := rfl
  rcases he.lt_or_eq with hsmall | rfl
  · exact scaled_down_le_of_lt (by omega) hlt hsmall hk herror
  · rcases hdigits with rfl | rfl
    · obtain rfl : k = 14 := by omega
      exact scaled_down_le_of_room (N := 792281625142643) hhigh (by norm_num) (by decide) herror
    · obtain rfl : k = 22 := by omega
      exact scaled_down_le_of_room (N := 7922816) hhigh (by norm_num) (by decide) herror

end

theorem zeroDec_inRange : zeroDec.InRange := ⟨by decide, by decide⟩

/-- A scaling by `10^p` that leaves `digits` digits. -/
theorem scaled_lt {x : ℚ} {e p : ℤ} {digits : ℕ} (hlt : x < 10 ^ (e + 1)) (hp : e + 1 + p ≤ digits) :
    x * 10 ^ p < 10 ^ digits :=
  calc x * 10 ^ p < 10 ^ (e + 1) * 10 ^ p := mul_lt_mul_of_pos_right hlt (zpow_pos (by norm_num) p)
    _ = 10 ^ (e + 1 + p) := (zpow_add₀ (by norm_num) _ _).symm
    _ ≤ 10 ^ (digits : ℤ) := zpow_le_zpow_right₀ (by norm_num) hp
    _ = 10 ^ digits := zpow_natCast _ _

section
variable {c : ScalingSetting} {rounds : ℚ → ℕ → Prop} {digits : ℕ} {f : FloatFormat} {E F : ℕ} (sgn : Bool)
  (hs : ScalesBy c rounds digits) (hE : E ≠ 2 ^ f.ebits - 1) (hlow : (2 : ℚ) ^ (-95 : ℤ) ≤ f.value E F)
  (hhigh : f.value E F < 2 ^ 96)
include hs hE hlow hhigh

theorem floatToDec_spec_up (hdigits : digits ≤ 15) {p : ℕ}
    (hp : (p : ℤ) = min (digits - 1 - decimalExponent (f.magnitude E F).1 (f.magnitude E F).2) scaleMax) :
    ∃ d, floatToDec (scalingOf c) f digits sgn E F = some d ∧ IsFromFloat rounds (f.value E F) digits sgn d ∧
      d.InRange := by
  have hdiv := magnitude_div f E F
  have hden := magnitude_den_pos f E F
  obtain ⟨hle, hlt, -⟩ := decimalExponent_spec hden (hdiv.symm ▸ hlow) (hdiv.symm ▸ hhigh)
  have hpmax : p ≤ scaleMax := by omega
  have hq := scaled_lt (p := p) (digits := digits) hlt (by omega)
  rw [zpow_natCast] at hq
  have hround := hs.up hden hpmax hq
  have hm := le_ten_pow_of_abs_sub_le hq
    (abs_sub_scalingOf_up_le c hden hpmax (hq.trans_le (pow_le_pow_right₀ (by norm_num) hdigits)))
  rw [hdiv] at hle hlt hround
  refine ⟨_, floatToDec_up hE hlow hhigh hp rfl, isFromFloat_up hlow hle hlt hp hround, ?_⟩
  split_ifs
  · exact zeroDec_inRange
  · refine ⟨(Nat.div_le_self _ _).trans (hm.trans ?_), (Nat.sub_le _ _).trans hpmax⟩
    exact (Nat.pow_le_pow_right (by decide) hdigits).trans (by decide)

theorem floatToDec_spec_down (hdigits : digits = r8Digits ∨ digits = r4Digits) {k : ℕ} (hk : 0 < k)
    (hkdef : (k : ℤ) = decimalExponent (f.magnitude E F).1 (f.magnitude E F).2 + 1 - digits) :
    ∃ d, floatToDec (scalingOf c) f digits sgn E F = some d ∧ IsFromFloat rounds (f.value E F) digits sgn d ∧
      d.InRange := by
  have hdig : 7 ≤ digits ∧ digits ≤ 15 := by rcases hdigits with rfl | rfl <;> decide
  have hdiv := magnitude_div f E F
  have hden := magnitude_den_pos f E F
  obtain ⟨hle, hlt, he⟩ := decimalExponent_spec hden (hdiv.symm ▸ hlow) (hdiv.symm ▸ hhigh)
  have hkmax : k ≤ 22 := by omega
  have hq := scaled_lt (p := -k) (digits := digits) hlt (by omega)
  rw [zpow_neg, zpow_natCast, ← div_eq_mul_inv] at hq
  have hround := hs.down hden hkmax hq
  have herror := abs_sub_scalingOf_down_le c hden hkmax (hq.trans_le (pow_le_pow_right₀ (by norm_num) hdig.2))
  rw [hdiv] at hle hlt hround herror
  have hle' : (10 : ℚ) ^ k ≤ f.value E F :=
    (zpow_natCast (10 : ℚ) k).ge.trans ((zpow_le_zpow_right₀ (by norm_num) (by omega)).trans hle)
  have hone : 1 ≤ f.value E F / 10 ^ k := (one_le_div (pow_pos (by norm_num) k)).2 hle'
  have hfits := scaled_down_le_max96 hdigits hhigh hlt he hkdef herror
  exact ⟨_, floatToDec_down hE hlow hhigh hk hkdef rfl hfits,
    isFromFloat_down hlow hle hlt hk hkdef hround (ne_zero_of_abs_sub_le hone herror), hfits, Nat.zero_le _⟩

end

/-- Every magnitude below `2^96` has a decimal in range, rounded as the setting scales. -/
theorem floatToDec_spec {c : ScalingSetting} {rounds : ℚ → ℕ → Prop} {digits : ℕ} {f : FloatFormat} {E F : ℕ} (sgn : Bool)
    (hdigits : digits = r8Digits ∨ digits = r4Digits) (hs : ScalesBy c rounds digits) (hE : E ≠ 2 ^ f.ebits - 1)
    (hhigh : f.value E F < 2 ^ 96) :
    ∃ d, floatToDec (scalingOf c) f digits sgn E F = some d ∧ IsFromFloat rounds (f.value E F) digits sgn d ∧
      d.InRange := by
  rcases lt_or_ge (f.value E F) ((2 : ℚ) ^ (-95 : ℤ)) with hsmall | hlow
  · exact ⟨_, floatToDec_eq_zeroDec hE hsmall, isFromFloat_zeroDec hsmall, zeroDec_inRange⟩
  rcases le_or_gt (decimalExponent (f.magnitude E F).1 (f.magnitude E F).2 + 1) (digits : ℤ) with hup | hdown
  · obtain ⟨p, hp⟩ := Int.eq_ofNat_of_zero_le (le_min (by omega :
      0 ≤ (digits : ℤ) - 1 - decimalExponent (f.magnitude E F).1 (f.magnitude E F).2) (Int.natCast_nonneg scaleMax))
    exact floatToDec_spec_up sgn hs hE hlow hhigh (by rcases hdigits with rfl | rfl <;> decide) hp.symm
  · obtain ⟨k, hk⟩ := Int.eq_ofNat_of_zero_le (sub_pos.2 hdown).le
    exact floatToDec_spec_down sgn hs hE hlow hhigh hdigits (by omega) hk.symm

/-! ### The commands (R152, R153) -/

theorem exec_r8tod (r : DReg) (s : State) :
    exec (.r8tod r) s = orOverflow (encode (.r8tod r)) s
      ((floatToDec (scalingOf s.params.scaling) binary64 r8Digits (s.x.getLsbD 63) (exponent64 s.x)
        (fraction64 s.x)).map fun d => s.setD r (pack d)) := rfl

theorem exec_r4tod (r : DReg) (s : State) :
    exec (.r4tod r) s = orOverflow (encode (.r4tod r)) s
      ((floatToDec (scalingOf s.params.scaling) binary32 r4Digits (s.xlo.getLsbD 31) (exponent32 s.xlo)
        (fraction32 s.xlo)).map fun d => s.setD r (pack d)) := rfl

theorem r8tod_raises {r : DReg} {s : State} (h : exponent64 s.x = 2047 ∨ 2 ^ 96 ≤ value64 s.x) :
    Raises (.r8tod r) s .overflow := by
  rw [Raises, exec_r8tod, floatToDec_eq_none (f := binary64) h]
  rfl

theorem r4tod_raises {r : DReg} {s : State} (h : exponent32 s.xlo = 255 ∨ 2 ^ 96 ≤ value32 s.xlo) :
    Raises (.r4tod r) s .overflow := by
  rw [Raises, exec_r4tod, floatToDec_eq_none (f := binary32) h]
  rfl

theorem r8tod_converts {r : DReg} {s : State} {rounds : ℚ → ℕ → Prop} (hs : ScalesBy s.params.scaling rounds 15)
    (hE : exponent64 s.x ≠ 2047) (hx : value64 s.x < 2 ^ 96) :
    ∃ d, IsFromFloat rounds (value64 s.x) 15 (s.x.getLsbD 63) d ∧ d.InRange ∧
      exec (.r8tod r) s = .next (s.setD r (pack d)) := by
  obtain ⟨d, hd, hfrom, hrange⟩ :=
    floatToDec_spec (f := binary64) (digits := r8Digits) (s.x.getLsbD 63) (.inl rfl) hs hE hx
  exact ⟨d, hfrom, hrange, by rw [exec_r8tod, hd]; rfl⟩

theorem r4tod_converts {r : DReg} {s : State} {rounds : ℚ → ℕ → Prop} (hs : ScalesBy s.params.scaling rounds 7)
    (hE : exponent32 s.xlo ≠ 255) (hx : value32 s.xlo < 2 ^ 96) :
    ∃ d, IsFromFloat rounds (value32 s.xlo) 7 (s.xlo.getLsbD 31) d ∧ d.InRange ∧
      exec (.r4tod r) s = .next (s.setD r (pack d)) := by
  obtain ⟨d, hd, hfrom, hrange⟩ :=
    floatToDec_spec (f := binary32) (digits := r4Digits) (s.xlo.getLsbD 31) (.inr rfl) hs hE hx
  exact ⟨d, hfrom, hrange, by rw [exec_r4tod, hd]; rfl⟩

/-! ### The thresholds on the exponent field (R156) -/

theorem value_lt_two_zpow {f : FloatFormat} {E F : ℕ} (hF : F < 2 ^ f.fbits) :
    f.value E F < (2 : ℚ) ^ ((E : ℤ) + 1 - f.bias) := by
  cases E with
  | zero =>
    have hF' : (F : ℚ) < 2 ^ (f.fbits : ℤ) := by
      rw [zpow_natCast]
      exact_mod_cast hF
    calc f.value 0 F = F * 2 ^ unitExp f 0 := value_zero F
      _ < 2 ^ (f.fbits : ℤ) * 2 ^ unitExp f 0 := mul_lt_mul_of_pos_right hF' (two_zpow_pos _)
      _ = 2 ^ (((0 : ℕ) : ℤ) + 1 - f.bias) := by
        rw [← zpow_add₀ two_ne_zero, unitExp]
        congr 1
        ring
  | succ g =>
    have hF' : ((2 ^ f.fbits + F : ℕ) : ℚ) < 2 ^ ((f.fbits + 1 : ℕ) : ℤ) := by
      rw [zpow_natCast]
      exact_mod_cast (by omega : 2 ^ f.fbits + F < 2 ^ (f.fbits + 1))
    calc f.value (g + 1) F = (2 ^ f.fbits + F : ℕ) * 2 ^ unitExp f g := value_succ g F
      _ < 2 ^ ((f.fbits + 1 : ℕ) : ℤ) * 2 ^ unitExp f g := mul_lt_mul_of_pos_right hF' (two_zpow_pos _)
      _ = 2 ^ (((g + 1 : ℕ) : ℤ) + 1 - f.bias) := by
        rw [← zpow_add₀ two_ne_zero, unitExp]
        congr 1
        push_cast
        ring

theorem two_zpow_le_value {f : FloatFormat} {E F : ℕ} (hE : E ≠ 0) :
    (2 : ℚ) ^ ((E : ℤ) - f.bias) ≤ f.value E F := by
  obtain ⟨g, rfl⟩ := Nat.exists_eq_succ_of_ne_zero hE
  have hF : (2 : ℚ) ^ (f.fbits : ℤ) ≤ ((2 ^ f.fbits + F : ℕ) : ℚ) := by
    rw [zpow_natCast]
    exact_mod_cast Nat.le_add_right _ _
  calc (2 : ℚ) ^ (((g + 1 : ℕ) : ℤ) - f.bias) = 2 ^ (f.fbits : ℤ) * 2 ^ unitExp f g := by
        rw [← zpow_add₀ two_ne_zero, unitExp]
        congr 1
        push_cast
        ring
    _ ≤ (2 ^ f.fbits + F : ℕ) * 2 ^ unitExp f g := mul_le_mul_of_nonneg_right hF (two_zpow_pos _).le
    _ = f.value (g + 1) F := (value_succ g F).symm

theorem value64_lt_two_zpow (x : DWord) : value64 x < (2 : ℚ) ^ ((exponent64 x : ℤ) + 1 - 1023) :=
  value_lt_two_zpow (f := binary64) (by rw [fraction64_eq]; exact Nat.mod_lt _ (by decide))

theorem value32_lt_two_zpow (x : Word) : value32 x < (2 : ℚ) ^ ((exponent32 x : ℤ) + 1 - 127) :=
  value_lt_two_zpow (f := binary32) (by rw [fraction32_eq]; exact Nat.mod_lt _ (by decide))

theorem two_pow_le_value64 {x : DWord} (h : 1119 ≤ exponent64 x) : 2 ^ 96 ≤ value64 x := by
  rw [← zpow_natCast]
  have hbias : binary64.bias = 1023 := rfl
  exact (two_zpow_le (by omega)).trans (two_zpow_le_value (f := binary64) (by omega))

theorem two_pow_le_value32 {x : Word} (h : 223 ≤ exponent32 x) : 2 ^ 96 ≤ value32 x := by
  rw [← zpow_natCast]
  have hbias : binary32.bias = 127 := rfl
  exact (two_zpow_le (by omega)).trans (two_zpow_le_value (f := binary32) (by omega))

theorem value64_lt_two_pow {x : DWord} (h : exponent64 x ≤ 1118) : value64 x < 2 ^ 96 := by
  rw [← zpow_natCast (2 : ℚ) 96]
  exact (value64_lt_two_zpow x).trans_le (two_zpow_le (by omega))

theorem value32_lt_two_pow {x : Word} (h : exponent32 x ≤ 222) : value32 x < 2 ^ 96 := by
  rw [← zpow_natCast (2 : ℚ) 96]
  exact (value32_lt_two_zpow x).trans_le (two_zpow_le (by omega))

theorem pack_zeroDec : pack zeroDec = ⟨0, 0, 0, 0⟩ := by decide

theorem r8tod_of_small {r : DReg} {s : State} (h : exponent64 s.x ≤ 927) :
    exec (.r8tod r) s = .next (s.setD r ⟨0, 0, 0, 0⟩) := by
  have hsmall : value64 s.x < 2 ^ (-95 : ℤ) := (value64_lt_two_zpow s.x).trans_le (two_zpow_le (by omega))
  have hE : exponent64 s.x ≠ 2 ^ binary64.ebits - 1 := by
    have hones : 2 ^ binary64.ebits - 1 = 2047 := rfl
    omega
  rw [exec_r8tod, floatToDec_eq_zeroDec hE hsmall, ← pack_zeroDec]
  rfl

theorem r4tod_of_small {r : DReg} {s : State} (h : exponent32 s.xlo ≤ 31) :
    exec (.r4tod r) s = .next (s.setD r ⟨0, 0, 0, 0⟩) := by
  have hsmall : value32 s.xlo < 2 ^ (-95 : ℤ) := (value32_lt_two_zpow s.xlo).trans_le (two_zpow_le (by omega))
  have hE : exponent32 s.xlo ≠ 2 ^ binary32.ebits - 1 := by
    have hones : 2 ^ binary32.ebits - 1 = 255 := rfl
    omega
  rw [exec_r4tod, floatToDec_eq_zeroDec hE hsmall, ← pack_zeroDec]
  rfl

/-! ### The obligations -/

/-- Settles O40: the default rounds the exact scaled value, every setting one within a quarter of it. -/
theorem fromFloatResult : Obligations.FromFloatResult := by
  intro r s
  refine ⟨rfl, rfl, r8tod_raises, fun h => ?_, r4tod_raises, fun h => ?_⟩
  · obtain ⟨hE, hx⟩ := not_or.1 h
    refine ⟨fun hdefault => ?_, r8tod_converts (scalesBy_isNearLastDigit _ le_rfl) hE (not_le.1 hx)⟩
    obtain ⟨d, hfrom, -, hexec⟩ := r8tod_converts (r := r) (hdefault ▸ scalesBy_exactRational 15) hE (not_le.1 hx)
    exact ⟨d, hfrom, hexec⟩
  · obtain ⟨hE, hx⟩ := not_or.1 h
    refine ⟨fun hdefault => ?_, r4tod_converts (scalesBy_isNearLastDigit _ (by decide)) hE (not_le.1 hx)⟩
    obtain ⟨d, hfrom, -, hexec⟩ := r4tod_converts (r := r) (hdefault ▸ scalesBy_exactRational 7) hE (not_le.1 hx)
    exact ⟨d, hfrom, hexec⟩

/-- Settles O41: the exponent field bounds the value on both sides. -/
theorem floatRejectionThresholds : Obligations.FloatRejectionThresholds := by
  intro r s
  refine ⟨fun h => r8tod_raises (.inr (two_pow_le_value64 h)), r8tod_of_small, fun h => ?_,
    fun h => r4tod_raises (.inr (two_pow_le_value32 h)), r4tod_of_small, fun h => ?_⟩
  · obtain ⟨d, -, hrange, hexec⟩ :=
      r8tod_converts (r := r) (scalesBy_isNearLastDigit _ le_rfl) (by omega) (value64_lt_two_pow h)
    exact ⟨d, hrange, hexec⟩
  · obtain ⟨d, -, hrange, hexec⟩ :=
      r4tod_converts (r := r) (scalesBy_isNearLastDigit _ (by decide)) (by omega) (value32_lt_two_pow h)
    exact ⟨d, hrange, hexec⟩

end Sys2Proof.Proofs
